-- ==== Sys2Proof/Word.lean ====
section
/-! DEFINITION. Word.lean: the word types of the codec (spec/00_scope.md R6, R7; spec/10_state.md R19). -/

namespace Sys2Proof

/-- An address word, and every 64-bit operand of the port: `W = 64`, bit 0 least significant (R6, R7). -/
abbrev Word := BitVec 64

/-- A topology coordinate on the port: an unsigned 32-bit id (R19). -/
abbrev CoordId := BitVec 32

end Sys2Proof
end

