-- ==== Sys2Proof/Syntax.lean ====
section
/-! DEFINITION. Syntax.lean: the values that cross the codec's port and the instructions `Instr`, one constructor
for each row of spec/opcode_table.json: fifteen request operations (R72) and seven address-word formats (R50). -/

namespace Sys2Proof

/-- The memory tier of an address, the source's `AddressType` (R31, R100). -/
inductive Tier where
  | l1sp | l2sp | dram | ctrl
deriving DecidableEq, Repr

/-- The addressing mode (R32, R100). -/
inductive Mode where
  | relative | absolute
deriving DecidableEq, Repr, Inhabited

/-- The three topology coordinates (R19). -/
inductive Coord where
  | pxn | pod | core
deriving DecidableEq, Repr

/-- The `AddressInfo` record (R19, R100): `none` is the spec's `unset`. -/
structure AddressInfo where
  tier : Option Tier
  mode : Mode
  offset : Word
  pxn : Option CoordId
  pod : Option CoordId
  core : Option CoordId
deriving DecidableEq, Repr

/-- The `AddressInfo` bundle as it stands on the request port (R73): the raw signals, reserved type codes included. -/
structure InfoBundle where
  typeSig : BitVec 3
  modeSig : Bool
  offset : Word
  pxnV : Bool
  podV : Bool
  coreV : Bool
  pxn : CoordId
  pod : CoordId
  core : CoordId
deriving DecidableEq, Repr

/-- The requester's identity `my_pxn, my_pod, my_core`, operands of `AM.DEC` (R144, R206). -/
structure Requester where
  pxn : CoordId
  pod : CoordId
  core : CoordId
deriving DecidableEq, Repr

/-- The seven formats of an address word, one for each legal (mode, type) pair (R50). -/
inductive Format where
  | absDram | absL2sp | absL1sp | absCtrl | relDram | relL2sp | relL1sp
deriving DecidableEq, Repr

/-- The fifteen entries of the layout table, in the order of their ids 0 to 14 (R16, R75). -/
inductive FieldName where
  | isAbsolute | absIsDram | absIsL2sp | absIsCtrl
  | absPxn | absPod | absCore
  | absDramOffset | absL2spOffset | absL1spOffset
  | relIsDram | relIsL2sp
  | relL1spOffset | relL2spOffset | relDramOffset
deriving DecidableEq, Repr

/-- The instructions: one constructor for each row of spec/opcode_table.json.

The first fifteen are the operations of the request port with the operands of R72. The last seven are the
address-word formats R55 to R61: a word of the format, held as the bits its row's mask leaves free, presented to the
codec's decoder by a requester (log entry 1). -/
inductive Instr where
  /-- `BF.BITS` (R91). -/
  | bfBits (hi lo : BitVec 6)
  /-- `BF.MASK` (R92). -/
  | bfMask (hi lo : BitVec 6)
  /-- `BF.GET` (R93). -/
  | bfGet (hi lo : BitVec 6) (word : Word)
  /-- `BF.SET` (R94). -/
  | bfSet (hi lo : BitVec 6) (word value : Word)
  /-- `AM.CFG` (R130): the pxn count, pods per pxn, cores per pod. -/
  | amCfg (p o c : Nat)
  /-- `AM.ENC` (R135). -/
  | amEnc (info : InfoBundle)
  /-- `AM.DEC` (R144). -/
  | amDec (raw : Word) (my : Requester)
  /-- `AM.FIELD` (R155). -/
  | amField (fieldId : BitVec 4)
  /-- `AM.STATUS` (R156). -/
  | amStatus
  /-- `RB.BANKS` (R161). -/
  | rbBanks (size step : Word)
  /-- `RB.TOTAL` (R162). -/
  | rbTotal (memsize size step : Word)
  /-- `RB.RANGE` (R163). -/
  | rbRange (memsize size step bank : Word)
  /-- `RB.L1SP` (R166). -/
  | rbL1sp (memsize : Word) (pxn pod core : CoordId)
  /-- `RB.L2SP` (R167). -/
  | rbL2sp (memsize size step : Word) (pxn pod : CoordId) (bank : Word)
  /-- `RB.DRAM` (R168). -/
  | rbDram (memsize size step : Word) (pxn : CoordId) (bank : Word)
  /-- A word of format `ABS_DRAM` (R55): bits 61 to 0. -/
  | absDram (low : BitVec 62) (my : Requester)
  /-- A word of format `ABS_L2SP` (R56): bits 60 to 0. -/
  | absL2sp (low : BitVec 61) (my : Requester)
  /-- A word of format `ABS_L1SP` (R57): bits 60 to 30, and the offset bits 28 to 0. -/
  | absL1sp (ids : BitVec 31) (offset : BitVec 29) (my : Requester)
  /-- A word of format `ABS_CTRL` (R58): bits 60 to 30, and the offset bits 28 to 0. -/
  | absCtrl (ids : BitVec 31) (offset : BitVec 29) (my : Requester)
  /-- A word of format `REL_L1SP` (R59): the reserved bits 62 to 31, and the offset bits 28 to 0. -/
  | relL1sp (reserved : BitVec 32) (offset : BitVec 29) (my : Requester)
  /-- A word of format `REL_L2SP` (R60): the reserved bits 62 to 31, and the offset bits 28 to 0. -/
  | relL2sp (reserved : BitVec 32) (offset : BitVec 29) (my : Requester)
  /-- A word of format `REL_DRAM` (R61): the reserved bits 62 to 31, and the offset bits 29 to 0. -/
  | relDram (reserved : BitVec 32) (offset : BitVec 30) (my : Requester)
deriving DecidableEq, Repr

/-- What a requester puts on the codec's inputs (R70; the placing of the operands is log entry 2):
a request bundle, or (for the seven formats of the opcode table) an address word with the requester's identity. -/
inductive Wire where
  | request (bundle : BitVec 325)
  | address (bits : BitVec 160)
deriving DecidableEq, Repr

end Sys2Proof
end

