-- ==== Sys2Proof/Config.lean ====
section
/-! DEFINITION. Config.lean: what an implementation fixes, and the values the spec leaves open. Each is a constant
without a body: no proof can see which value it has. -/

namespace Sys2Proof

/-- The two values of the model parameter `OVERFLOW_POLICY` (R6, R143). -/
inductive OverflowPolicy where
  | reject | mask
deriving DecidableEq, Repr, Inhabited

/-- `OVERFLOW_POLICY`, which the spec leaves open (D12 `OPEN`, U1; log entry 3). -/
opaque Config.overflowPolicy : OverflowPolicy

/-- The `mode` of the n-th fresh `AddressInfo` record, an arbitrary draw (R101, U6; log entry 4). -/
opaque Config.freshMode : Nat → Mode

/-- The `offset` of the n-th fresh `AddressInfo` record, an arbitrary draw (R101, U6; log entry 4). -/
opaque Config.freshOffset : Nat → Word

end Sys2Proof
end

