-- ==== Sys2Proof/WellFormed.lean ====
section
/-! DEFINITION. WellFormed.lean: which instructions the port can carry. Every operand but the counts of `AM.CFG` has
the width of its signal by its type; the counts are naturals of which the port carries 32 bits (R15, R72). -/

namespace Sys2Proof

/-- The port carries a count in 32 bits (R15: "32 bits suffice"; log entry 2). -/
def countOnPort (n : Nat) : Bool := decide (n < 2 ^ 32)

/-- The instruction can stand on the port. -/
def WellFormed : Instr → Bool
  | .bfBits _ _ => true
  | .bfMask _ _ => true
  | .bfGet _ _ _ => true
  | .bfSet _ _ _ _ => true
  | .amCfg p o c => countOnPort p && countOnPort o && countOnPort c
  | .amEnc _ => true
  | .amDec _ _ => true
  | .amField _ => true
  | .amStatus => true
  | .rbBanks _ _ => true
  | .rbTotal _ _ _ => true
  | .rbRange _ _ _ _ => true
  | .rbL1sp _ _ _ _ => true
  | .rbL2sp _ _ _ _ _ _ => true
  | .rbDram _ _ _ _ _ => true
  | .absDram _ _ => true
  | .absL2sp _ _ => true
  | .absL1sp _ _ _ => true
  | .absCtrl _ _ _ => true
  | .relL1sp _ _ _ => true
  | .relL2sp _ _ _ => true
  | .relDram _ _ _ => true

end Sys2Proof
end

