-- ==== Sys2Proof/Decode.lean ====
section
/-! DEFINITION. Decode.lean: the bits on the codec's inputs as an instruction, and back. The op code stands in bits
4 to 0 of a request; its operands follow upward in the order of R72 (log entry 2). Bits that the operation does not
list are not read (U8). -/

namespace Sys2Proof

/-- Why bits on the request port are no operation. -/
inductive DecodeError where
  /-- `op` is one of the seventeen codes that select no operation (R74). -/
  | unknownOp (op : BitVec 5)
deriving DecidableEq, Repr

/-- The `w` bits of `b` from bit `lo` upward. -/
def slice {n : Nat} (b : BitVec n) (lo w : Nat) : BitVec w := b.extractLsb' lo w

/-- The `AddressInfo` bundle of an `AM.ENC` request, its signals in the order of R73 from bit 5 upward. -/
def infoOfBundle (b : BitVec 325) : InfoBundle where
  typeSig := slice b 5 3
  modeSig := b.getLsbD 8
  offset := slice b 9 64
  pxnV := b.getLsbD 73
  podV := b.getLsbD 74
  coreV := b.getLsbD 75
  pxn := slice b 76 32
  pod := slice b 108 32
  core := slice b 140 32

/-- The operation a request selects (R72), or `unknownOp` for a reserved code (R74). -/
def decodeRequest (b : BitVec 325) : Except DecodeError Instr :=
  match (slice b 0 5).toNat with
  | 0x00 => .ok (.bfBits (slice b 5 6) (slice b 11 6))
  | 0x01 => .ok (.bfMask (slice b 5 6) (slice b 11 6))
  | 0x02 => .ok (.bfGet (slice b 5 6) (slice b 11 6) (slice b 17 64))
  | 0x03 => .ok (.bfSet (slice b 5 6) (slice b 11 6) (slice b 17 64) (slice b 81 64))
  | 0x08 => .ok (.amCfg (slice b 5 32).toNat (slice b 37 32).toNat (slice b 69 32).toNat)
  | 0x09 => .ok (.amEnc (infoOfBundle b))
  | 0x0A => .ok (.amDec (slice b 5 64) ⟨slice b 69 32, slice b 101 32, slice b 133 32⟩)
  | 0x0B => .ok (.amField (slice b 5 4))
  | 0x0C => .ok .amStatus
  | 0x10 => .ok (.rbBanks (slice b 5 64) (slice b 69 64))
  | 0x11 => .ok (.rbTotal (slice b 5 64) (slice b 69 64) (slice b 133 64))
  | 0x12 => .ok (.rbRange (slice b 5 64) (slice b 69 64) (slice b 133 64) (slice b 197 64))
  | 0x13 => .ok (.rbL1sp (slice b 5 64) (slice b 69 32) (slice b 101 32) (slice b 133 32))
  | 0x14 => .ok (.rbL2sp (slice b 5 64) (slice b 69 64) (slice b 133 64)
      (slice b 197 32) (slice b 229 32) (slice b 261 64))
  | 0x15 => .ok (.rbDram (slice b 5 64) (slice b 69 64) (slice b 133 64) (slice b 197 32) (slice b 229 64))
  | _ => .error (.unknownOp (slice b 0 5))

/-- The format of an address word, from at most four of its bits, in the order of tests of R50. -/
def classify (w : Word) : Format :=
  if w.getLsbD 63 then
    if w.getLsbD 62 then .absDram
    else if w.getLsbD 61 then .absL2sp
    else if w.getLsbD 29 then .absCtrl
    else .absL1sp
  else if w.getLsbD 30 then .relDram
  else if w.getLsbD 29 then .relL2sp
  else .relL1sp

/-- The instruction of an address word: its format's row with the bits the row's mask leaves free (R62). Total: every
64-bit word has exactly one format. -/
def decodeAddress (b : BitVec 160) : Instr :=
  let w : Word := slice b 0 64
  let my : Requester := ⟨slice b 64 32, slice b 96 32, slice b 128 32⟩
  match classify w with
  | .absDram => .absDram (slice w 0 62) my
  | .absL2sp => .absL2sp (slice w 0 61) my
  | .absL1sp => .absL1sp (slice w 30 31) (slice w 0 29) my
  | .absCtrl => .absCtrl (slice w 30 31) (slice w 0 29) my
  | .relDram => .relDram (slice w 31 32) (slice w 0 30) my
  | .relL2sp => .relL2sp (slice w 31 32) (slice w 0 29) my
  | .relL1sp => .relL1sp (slice w 31 32) (slice w 0 29) my

/-- The instruction on the codec's inputs. -/
def decode : Wire → Except DecodeError Instr
  | .request b => decodeRequest b
  | .address b => .ok (decodeAddress b)

/-- What the table's row word puts on the inputs. The rows of format `REQ` give one byte, the rows of format `ADDR64`
eight; every bit above is 0 (log entry 2). -/
def tableWire (nbits w : Nat) : Wire :=
  if nbits ≤ 8 then .request ((BitVec.ofNat 8 (w % 2 ^ nbits)).setWidth 325)
  else if nbits ≤ 64 then .address ((BitVec.ofNat 64 (w % 2 ^ nbits)).setWidth 160)
  else .request (BitVec.ofNat 325 (w % 2 ^ nbits))

/-- The instruction the decoder reads from a table word. -/
def decodeTableWord (nbits w : Nat) : Option Instr := (decode (tableWire nbits w)).toOption

/-! ### The encoder -/

/-- The word of format `ABS_DRAM` with these free bits (R55, R62). -/
def absDramWord (low : BitVec 62) : Word := 0b11#2 ++ low
/-- The word of format `ABS_L2SP` with these free bits (R56, R62). -/
def absL2spWord (low : BitVec 61) : Word := 0b101#3 ++ low
/-- The word of format `ABS_L1SP` with these free bits (R57, R62). -/
def absL1spWord (ids : BitVec 31) (offset : BitVec 29) : Word := 0b100#3 ++ ids ++ 0b0#1 ++ offset
/-- The word of format `ABS_CTRL` with these free bits (R58, R62). -/
def absCtrlWord (ids : BitVec 31) (offset : BitVec 29) : Word := 0b100#3 ++ ids ++ 0b1#1 ++ offset
/-- The word of format `REL_L1SP` with these free bits (R59, R62). -/
def relL1spWord (reserved : BitVec 32) (offset : BitVec 29) : Word := 0b0#1 ++ reserved ++ 0b00#2 ++ offset
/-- The word of format `REL_L2SP` with these free bits (R60, R62). -/
def relL2spWord (reserved : BitVec 32) (offset : BitVec 29) : Word := 0b0#1 ++ reserved ++ 0b01#2 ++ offset
/-- The word of format `REL_DRAM` with these free bits (R61, R62). -/
def relDramWord (reserved : BitVec 32) (offset : BitVec 30) : Word := 0b0#1 ++ reserved ++ 0b1#1 ++ offset

/-- A request bundle: the operands above the op code, zeros above them. -/
def bundle {n : Nat} (op : BitVec 5) (operands : BitVec n) : Wire := .request ((operands ++ op).setWidth 325)

/-- An address word with the requester's identity above it. -/
def addressBits (w : Word) (my : Requester) : Wire := .address (my.core ++ my.pod ++ my.pxn ++ w)

/-- The signals of an `AddressInfo` bundle, `type` lowest (R73). -/
def infoBits (i : InfoBundle) : BitVec 167 :=
  i.core ++ i.pod ++ i.pxn ++ BitVec.ofBool i.coreV ++ BitVec.ofBool i.podV ++ BitVec.ofBool i.pxnV
    ++ i.offset ++ BitVec.ofBool i.modeSig ++ i.typeSig

/-- The bits of an instruction on the codec's inputs (R72, R73; log entry 2). -/
def encode : Instr → Wire
  | .bfBits hi lo => bundle 0x00#5 (lo ++ hi)
  | .bfMask hi lo => bundle 0x01#5 (lo ++ hi)
  | .bfGet hi lo word => bundle 0x02#5 (word ++ lo ++ hi)
  | .bfSet hi lo word value => bundle 0x03#5 (value ++ word ++ lo ++ hi)
  | .amCfg p o c => bundle 0x08#5 (BitVec.ofNat 32 c ++ BitVec.ofNat 32 o ++ BitVec.ofNat 32 p)
  | .amEnc info => bundle 0x09#5 (infoBits info)
  | .amDec raw my => bundle 0x0A#5 (my.core ++ my.pod ++ my.pxn ++ raw)
  | .amField fieldId => bundle 0x0B#5 fieldId
  | .amStatus => bundle 0x0C#5 (0#0)
  | .rbBanks size step => bundle 0x10#5 (step ++ size)
  | .rbTotal memsize size step => bundle 0x11#5 (step ++ size ++ memsize)
  | .rbRange memsize size step bank => bundle 0x12#5 (bank ++ step ++ size ++ memsize)
  | .rbL1sp memsize pxn pod core => bundle 0x13#5 (core ++ pod ++ pxn ++ memsize)
  | .rbL2sp memsize size step pxn pod bank =>
      bundle 0x14#5 (bank ++ pod ++ pxn ++ step ++ size ++ memsize)
  | .rbDram memsize size step pxn bank => bundle 0x15#5 (bank ++ pxn ++ step ++ size ++ memsize)
  | .absDram low my => addressBits (absDramWord low) my
  | .absL2sp low my => addressBits (absL2spWord low) my
  | .absL1sp ids offset my => addressBits (absL1spWord ids offset) my
  | .absCtrl ids offset my => addressBits (absCtrlWord ids offset) my
  | .relL1sp reserved offset my => addressBits (relL1spWord reserved offset) my
  | .relL2sp reserved offset my => addressBits (relL2spWord reserved offset) my
  | .relDram reserved offset my => addressBits (relDramWord reserved offset) my

end Sys2Proof
end

