-- ==== Sys2Proof/Machine/State.lean ====
section
/-! DEFINITION. Machine/State.lean: the codec's registers (spec/10_state.md), its response, and the state after
reset. The codec has no general register, no program counter, no flag and no memory (R10 to R12, R36). -/

namespace Sys2Proof.Machine

/-- The statuses other than `OK` (R195). -/
inductive Error where
  | configurationError | invalidAddressKind | fieldOverflow
  | badOperand | unknownOp | unknownField | notConfigured | alreadyConfigured
  | faulted
deriving DecidableEq, Repr

/-- The results of `AM.STATUS` (R72, R156). -/
structure StatusReport where
  configured : Bool
  fault : Bool
  cause : BitVec 4
  cfgP : Nat
  cfgO : Nat
  cfgC : Nat
  pxnBits : BitVec 5
  podBits : BitVec 5
  coreBits : BitVec 5
deriving DecidableEq, Repr

/-- The result fields of a request that ends `OK`, those of its operation only (R71, R72, U8). -/
inductive Result where
  /-- `AM.CFG`: no result beyond the status. -/
  | done
  | bits (n : BitVec 7)
  | mask (m : Word)
  | value (v : Word)
  /-- `word'` of `BF.SET`. -/
  | newWord (w : Word)
  /-- `word` of `AM.ENC`. -/
  | word (w : Word)
  | decoded (info : AddressInfo) (canonical : Bool)
  /-- `AM.FIELD` with `present = 0`: `hi` and `lo` carry no value. -/
  | fieldAbsent
  /-- `AM.FIELD` with `present = 1`. -/
  | fieldAt (hi lo : BitVec 6)
  | status (report : StatusReport)
  | banks (n : Word)
  /-- `total_size`, a natural below 2^128. -/
  | total (n : Nat)
  | range (first last : Word)
  /-- The interleaved range descriptor (R20). -/
  | descriptor (first last size step : Word)
deriving DecidableEq, Repr

/-- A response (R70, R71): with a status other than `OK` it carries nothing else. -/
inductive Response where
  | ok (result : Result)
  | error (status : Error)
deriving DecidableEq, Repr

/-- One event at the codec: something on its inputs, or reset, "the only event that is not a request" (R220). -/
inductive Event where
  | wire (w : Wire)
  | reset
deriving DecidableEq, Repr

/-- A pair of bit positions of the layout table; an empty field is the pair with `lo = hi + 1` (R16, R17). -/
structure FieldPos where
  hi : Nat
  lo : Nat
deriving DecidableEq, Repr

/-- The three id widths, from which the whole layout table follows (R13, R16). -/
structure Layout where
  pxnBits : Nat
  podBits : Nat
  coreBits : Nat
deriving DecidableEq, Repr

/-- The state: the nine registers of R13 and R14, and two fields of the model's own. -/
structure State where
  /-- `cfg.CONFIGURED` (R14). -/
  configured : Bool
  /-- `cfg.FAULT` (R14). -/
  fault : Bool
  /-- `cfg.CAUSE` (R14). -/
  cause : BitVec 4
  /-- `cfg.P` (R13). -/
  cfgP : Nat
  /-- `cfg.O` (R13). -/
  cfgO : Nat
  /-- `cfg.C` (R13). -/
  cfgC : Nat
  /-- `cfg.PXN_BITS` (R13). -/
  pxnBits : BitVec 5
  /-- `cfg.POD_BITS` (R13). -/
  podBits : BitVec 5
  /-- `cfg.CORE_BITS` (R13). -/
  coreBits : BitVec 5
  /-- The model's own: the response to the last request, none before the first (R70; log entry 5). -/
  response : Option Response
  /-- The model's own: what the host has yet to put to the codec, in the order of acceptance (R40, R70, R211;
  log entry 6). -/
  pending : List Event
deriving DecidableEq, Repr

/-- Why a step faults: nothing does. "Nothing in this codec is `stuck`: every request in every state has a defined
response" (spec/93_implementation_defined.md), so the type has no constructor and the model has no safe or unsafe stop. -/
inductive Fault where
deriving DecidableEq, Repr

/-- Why the model refuses a step. -/
inductive Refusal where
  /-- Raised by an arm of `exec` whose instruction has no meaning yet. Safe: nothing is claimed of it. No arm does. -/
  | notModelled (mnemonic : String)
deriving DecidableEq, Repr

/-- The machine right after reset (R22, R221). The spec gives `CONFIGURED`, `FAULT` and `CAUSE`; the six configuration
registers are unspecified there, and 0 is DESIGN CHOICE (log entry 7). -/
def State.reset : State where
  configured := false
  fault := false
  cause := 0
  cfgP := 0
  cfgO := 0
  cfgC := 0
  pxnBits := 0
  podBits := 0
  coreBits := 0
  response := none
  pending := []

/-- What every step and every meaning answers with. -/
abbrev Outcome := Host.Outcome State Fault Refusal

end Sys2Proof.Machine
end

