-- ==== Sys2Proof/Machine/Flags.lean ====
section
/-! DEFINITION. Machine/Flags.lean: the codec has no arithmetic flag (R12). Its status bits are `cfg.FAULT` with
`cfg.CAUSE`, written from the status code, and the `canonical` bit that `AM.DEC` computes. -/

namespace Sys2Proof.Machine

/-- The code of a status (R195). Code 0 is `OK`. -/
def Error.code : Error → BitVec 4
  | .configurationError => 1
  | .invalidAddressKind => 2
  | .fieldOverflow => 3
  | .badOperand => 4
  | .unknownOp => 5
  | .unknownField => 6
  | .notConfigured => 7
  | .alreadyConfigured => 8
  | .faulted => 9

/-- The `status` signal of a response (R71, R195). -/
def Response.status : Response → BitVec 4
  | .ok _ => 0
  | .error e => e.code

/-- The column "sets `cfg.FAULT`" of R195: every status of codes 1 to 8; `Faulted` changes nothing. -/
def Error.setsFault : Error → Bool
  | .faulted => false
  | _ => true

/-- The reserved bits of the format that carry no field, as positions; `none` where there are none (R64, R65).
With `p + o + c = 31` the pair of the absolute `L1SP` and `CTRL` formats is empty. -/
def reservedBits (L : Layout) : Format → Option FieldPos
  | .absDram => some ⟨61, 61⟩
  | .absL2sp => none
  | .absL1sp => some ⟨60 - L.pxnBits - L.podBits - L.coreBits, 30⟩
  | .absCtrl => some ⟨60 - L.pxnBits - L.podBits - L.coreBits, 30⟩
  | .relDram => some ⟨62, 31⟩
  | .relL2sp => some ⟨62, 31⟩
  | .relL1sp => some ⟨62, 31⟩

/-- The `canonical` result of `AM.DEC`: every bit of the word that the format's fields do not cover is 0 (R152). -/
def canonical (L : Layout) (f : Format) (raw : Word) : Bool :=
  match reservedBits L f with
  | none => true
  | some F => (slice raw F.lo (F.hi + 1 - F.lo)).toNat == 0

end Sys2Proof.Machine
end

