-- ==== Sys2Proof/Machine/AddressInfo.lean ====
section
/-! DEFINITION. Machine/AddressInfo.lean: the record functions on an `AddressInfo` (spec/41_addressinfo.md). They are
functions on a value the requester holds and touch no register (R23). -/

namespace Sys2Proof.Machine

/-- The n-th fresh record, the source's `AddressInfo()`: `mode` and `offset` are draws (R101, U6; log entry 4). -/
def freshInfo (n : Nat) : AddressInfo where
  tier := none
  mode := Config.freshMode n
  offset := Config.freshOffset n
  pxn := none
  pod := none
  core := none

/-! ### Setters (R102 to R111): each changes exactly one component and checks nothing -/

/-- `set_l1sp()` (R102). -/
def setL1sp (i : AddressInfo) : AddressInfo := { i with tier := some .l1sp }
/-- `set_l2sp()` (R103). -/
def setL2sp (i : AddressInfo) : AddressInfo := { i with tier := some .l2sp }
/-- `set_dram()` (R104). -/
def setDram (i : AddressInfo) : AddressInfo := { i with tier := some .dram }
/-- `set_core_ctrl()` (R105). -/
def setCoreCtrl (i : AddressInfo) : AddressInfo := { i with tier := some .ctrl }
/-- `set_absolute()` (R106). -/
def setAbsolute (i : AddressInfo) : AddressInfo := { i with mode := .absolute }
/-- `set_relative()` (R107). -/
def setRelative (i : AddressInfo) : AddressInfo := { i with mode := .relative }
/-- `set_offset(v)` (R108). -/
def setOffset (v : Word) (i : AddressInfo) : AddressInfo := { i with offset := v }
/-- `set_pxn(v)` (R109). -/
def setPxn (v : CoordId) (i : AddressInfo) : AddressInfo := { i with pxn := some v }
/-- `set_pod(v)` (R110). -/
def setPod (v : CoordId) (i : AddressInfo) : AddressInfo := { i with pod := some v }
/-- `set_core(v)` (R111). -/
def setCore (v : CoordId) (i : AddressInfo) : AddressInfo := { i with core := some v }

/-! ### Predicates and accessors (R112 to R114): the accessors of the components are the fields themselves -/

/-- `is_l1sp()` (R112). -/
def isL1sp (i : AddressInfo) : Bool := i.tier == some .l1sp
/-- `is_l2sp()` (R112). -/
def isL2sp (i : AddressInfo) : Bool := i.tier == some .l2sp
/-- `is_dram()` (R112). -/
def isDram (i : AddressInfo) : Bool := i.tier == some .dram
/-- `is_core_ctrl()` (R112). -/
def isCoreCtrl (i : AddressInfo) : Bool := i.tier == some .ctrl
/-- `is_absolute()` (R113). -/
def isAbsolute (i : AddressInfo) : Bool := i.mode == .absolute
/-- `is_relative()` (R113). -/
def isRelative (i : AddressInfo) : Bool := i.mode == .relative

/-- The accessor of a coordinate: `none` for an unpopulated one, never a number (R114). -/
def coordOf (i : AddressInfo) : Coord → Option CoordId
  | .pxn => i.pxn
  | .pod => i.pod
  | .core => i.core

/-! ### The invariants (R115, R117) -/

/-- The format of a (mode, type) pair; relative `CTRL` has none (R50, R65). -/
def formatOf : Mode → Tier → Option Format
  | .absolute, .dram => some .absDram
  | .absolute, .l2sp => some .absL2sp
  | .absolute, .l1sp => some .absL1sp
  | .absolute, .ctrl => some .absCtrl
  | .relative, .dram => some .relDram
  | .relative, .l2sp => some .relL2sp
  | .relative, .l1sp => some .relL1sp
  | .relative, .ctrl => none

/-- The mode a format's words carry in bit 63 (R51). -/
def formatMode : Format → Mode
  | .absDram | .absL2sp | .absL1sp | .absCtrl => .absolute
  | .relDram | .relL2sp | .relL1sp => .relative

/-- The tier of a format (R50). -/
def formatTier : Format → Tier
  | .absDram | .relDram => .dram
  | .absL2sp | .relL2sp => .l2sp
  | .absL1sp | .relL1sp => .l1sp
  | .absCtrl => .ctrl

/-- The coordinates the format's words carry, in the order pxn, pod, core (R54, R115). -/
def formatCoords : Format → List Coord
  | .absDram => [.pxn]
  | .absL2sp => [.pxn, .pod]
  | .absL1sp => [.pxn, .pod, .core]
  | .absCtrl => [.pxn, .pod, .core]
  | .relDram => []
  | .relL2sp => []
  | .relL1sp => []

/-- The format of a record, if its type is set and its pairing is legal. -/
def infoFormat (i : AddressInfo) : Option Format :=
  match i.tier with
  | none => none
  | some t => formatOf i.mode t

/-- `carried(info.mode, info.type)` (R115); nothing where the pair has no format. -/
def carried (i : AddressInfo) : List Coord :=
  match infoFormat i with
  | none => []
  | some f => formatCoords f

/-- `valid(info)` (R115). -/
def validInfo (i : AddressInfo) : Bool :=
  (infoFormat i).isSome && (carried i).all fun k => (coordOf i k).isSome

/-- `strict(info)`: valid, and no coordinate beyond those carried is populated (R115). -/
def strictInfo (i : AddressInfo) : Bool :=
  validInfo i && [Coord.pxn, .pod, .core].all fun k => (carried i).contains k || (coordOf i k).isNone

/-- `info1 ~ info2`: equality on populated fields (R117). Where both records lack a carried coordinate, R117 does not
say whether they agree on it: that they do is DESIGN CHOICE (log entry 17). -/
def sameAddress (a b : AddressInfo) : Bool :=
  a.tier == b.tier && a.mode == b.mode && a.offset == b.offset
    && (carried a).all fun k => coordOf a k == coordOf b k

/-! ### Rendering (R118) -/

/-- A digit, upper-case above 9. -/
def digitChar (d : Nat) : Char := if d < 10 then Char.ofNat (48 + d) else Char.ofNat (55 + d)

/-- The digits of `n`, most significant first, without leading zeros; `fuel` bounds their number. -/
def digitsIn (base : Nat) : Nat → Nat → List Char
  | 0, _ => []
  | fuel + 1, n =>
    if n < base then [digitChar n] else digitsIn base fuel (n / base) ++ [digitChar (n % base)]

/-- `n` in decimal; a port value has at most 64 bits, hence fewer than 64 digits. -/
def decimal (n : Nat) : List Char := digitsIn 10 64 n

/-- `n` in `0x` hexadecimal, upper-case digits, no leading zeros. -/
def hexadecimal (n : Nat) : List Char := "0x".toList ++ digitsIn 16 64 n

/-- `abs` or `rel`. -/
def modeText : Mode → List Char
  | .absolute => "abs".toList
  | .relative => "rel".toList

/-- The tier's name, or `unset`. -/
def tierText : Option Tier → List Char
  | some .l1sp => "L1SP".toList
  | some .l2sp => "L2SP".toList
  | some .dram => "DRAM".toList
  | some .ctrl => "CTRL".toList
  | none => "unset".toList

/-- The coordinate's name. -/
def coordText : Coord → List Char
  | .pxn => "pxn".toList
  | .pod => "pod".toList
  | .core => "core".toList

/-- One carried coordinate, `?` where it is carried but unpopulated. -/
def coordEntry (i : AddressInfo) (k : Coord) : List Char :=
  " ".toList ++ coordText k ++ "=".toList ++
    (match coordOf i k with
     | none => "?".toList
     | some v => decimal v.toNat)

/-- The rendering of a record, character by character (R118). The two braces are characters 123 and 125. -/
def renderInfo (i : AddressInfo) : List Char :=
  [Char.ofNat 123] ++ modeText i.mode ++ " ".toList ++ tierText i.tier
    ++ (carried i).flatMap (coordEntry i)
    ++ " offset=".toList ++ hexadecimal i.offset.toNat ++ [Char.ofNat 125]

/-! ### The factory functions, which are also the pseudo-operations (R119, R82) -/

/-- `abs_l1sp(pxn, pod, core, offset)`. -/
def absL1spInfo (x y z : CoordId) (f : Word) : AddressInfo := ⟨some .l1sp, .absolute, f, some x, some y, some z⟩
/-- `abs_ctrl(pxn, pod, core, offset)`. -/
def absCtrlInfo (x y z : CoordId) (f : Word) : AddressInfo := ⟨some .ctrl, .absolute, f, some x, some y, some z⟩
/-- `abs_l2sp(pxn, pod, offset)`. -/
def absL2spInfo (x y : CoordId) (f : Word) : AddressInfo := ⟨some .l2sp, .absolute, f, some x, some y, none⟩
/-- `abs_dram(pxn, offset)`. -/
def absDramInfo (x : CoordId) (f : Word) : AddressInfo := ⟨some .dram, .absolute, f, some x, none, none⟩
/-- `rel_l1sp(offset)`. -/
def relL1spInfo (f : Word) : AddressInfo := ⟨some .l1sp, .relative, f, none, none, none⟩
/-- `rel_l2sp(offset)`. -/
def relL2spInfo (f : Word) : AddressInfo := ⟨some .l2sp, .relative, f, none, none, none⟩
/-- `rel_dram(offset)`. -/
def relDramInfo (f : Word) : AddressInfo := ⟨some .dram, .relative, f, none, none, none⟩

end Sys2Proof.Machine
end

