-- ==== Sys2Proof/Machine/Bitfield.lean ====
section
/-! DEFINITION. Machine/Bitfield.lean: the bitfield unit on a 64-bit word (spec/40_bitfield.md), and `bitlength`. -/

namespace Sys2Proof.Machine

/-- The number of binary digits of `n` (R8). -/
def bitlength (n : Nat) : Nat := if n = 0 then 0 else Nat.log2 n + 1

/-- The width of a field (R90). -/
def fieldWidth (hi lo : Nat) : Nat := hi - lo + 1

/-- The all-ones value of the field's width, right-justified (R92): computed in naturals, so width 64 does not wrap. -/
def fieldMask (hi lo : Nat) : Word := BitVec.ofNat 64 (2 ^ fieldWidth hi lo - 1)

/-- The content of bits `lo` to `hi`, right-justified (R93). -/
def fieldGet (hi lo : Nat) (word : Word) : Word := (word >>> lo) &&& fieldMask hi lo

/-- The word with bits `lo` to `hi` replaced by the low bits of `value` (R94). -/
def fieldSet (hi lo : Nat) (word value : Word) : Word :=
  (word &&& ~~~ (fieldMask hi lo <<< lo)) ||| ((value &&& fieldMask hi lo) <<< lo)

/-- The construction invariant of a `Bitfield`, checked first by each of the four operations (R90, R96). -/
def checkBounds (hi lo : BitVec 6) : Except Error Unit :=
  if hi.toNat < lo.toNat then .error .badOperand else .ok ()

end Sys2Proof.Machine
end

