-- ==== Sys2Proof/Machine/Operands.lean ====
section
/-! DEFINITION. Machine/Operands.lean: the layout table, access to a word through one of its entries, and the
`AddressInfo` operand of a request. -/

namespace Sys2Proof.Machine

/-- The layout the configuration registers describe (R13, R16). -/
def State.layout (s : State) : Layout := ⟨s.pxnBits.toNat, s.podBits.toNat, s.coreBits.toNat⟩

/-- The layout table (R16). -/
def fieldPos (L : Layout) : FieldName → FieldPos
  | .isAbsolute => ⟨63, 63⟩
  | .absIsDram => ⟨62, 62⟩
  | .absIsL2sp => ⟨61, 61⟩
  | .absIsCtrl => ⟨29, 29⟩
  | .absPxn => ⟨60, 61 - L.pxnBits⟩
  | .absPod => ⟨60 - L.pxnBits, 61 - L.pxnBits - L.podBits⟩
  | .absCore => ⟨60 - L.pxnBits - L.podBits, 61 - L.pxnBits - L.podBits - L.coreBits⟩
  | .absDramOffset => ⟨60 - L.pxnBits, 0⟩
  | .absL2spOffset => ⟨60 - L.pxnBits - L.podBits, 0⟩
  | .absL1spOffset => ⟨28, 0⟩
  | .relIsDram => ⟨30, 30⟩
  | .relIsL2sp => ⟨29, 29⟩
  | .relL1spOffset => ⟨28, 0⟩
  | .relL2spOffset => ⟨28, 0⟩
  | .relDramOffset => ⟨29, 0⟩

/-- The entry a `field_id` names; id 15 names none (R75). -/
def fieldOfId (n : BitVec 4) : Option FieldName :=
  [.isAbsolute, .absIsDram, .absIsL2sp, .absIsCtrl, .absPxn, .absPod, .absCore, .absDramOffset, .absL2spOffset,
    .absL1spOffset, .relIsDram, .relIsL2sp, .relL1spOffset, .relL2spOffset, .relDramOffset][n.toNat]?

/-- `width(F)`, 0 for an empty field (R17, R134). -/
def FieldPos.width (F : FieldPos) : Nat := F.hi + 1 - F.lo

/-- `F.get(w)`: an empty field reads as 0 (R17, R134). -/
def FieldPos.get (F : FieldPos) (w : Word) : Word := if F.width = 0 then 0 else fieldGet F.hi F.lo w

/-- `F.set(w, v)`: inserting into an empty field returns the word unchanged (R17, R134). -/
def FieldPos.set (F : FieldPos) (w v : Word) : Word := if F.width = 0 then w else fieldSet F.hi F.lo w v

/-- Reading through the entry `n` of the layout. -/
def readField (L : Layout) (n : FieldName) (w : Word) : Word := (fieldPos L n).get w

/-- Inserting through the entry `n` of the layout. -/
def insertField (L : Layout) (n : FieldName) (v w : Word) : Word := (fieldPos L n).set w v

/-- A coordinate read from a word; its field is at most 31 bits wide (R13). -/
def readCoord (L : Layout) (n : FieldName) (w : Word) : CoordId := (readField L n w).setWidth 32

/-- Inserting a coordinate. -/
def insertCoord (L : Layout) (n : FieldName) (v : CoordId) (w : Word) : Word := insertField L n (v.setWidth 64) w

/-- The type code of the bundle: `none` for the reserved codes 5 to 7 (R73). -/
def tierOfSignal (t : BitVec 3) : Option (Option Tier) :=
  match t.toNat with
  | 0 => some none
  | 1 => some (some .l1sp)
  | 2 => some (some .l2sp)
  | 3 => some (some .dram)
  | 4 => some (some .ctrl)
  | _ => none

/-- A coordinate of the bundle, ignored when its valid bit is 0 (R73). -/
def coordOfSignals (valid : Bool) (v : CoordId) : Option CoordId := if valid then some v else none

/-- The record a bundle stands for, or none where its type signal is reserved (R73). -/
def infoOf (b : InfoBundle) : Option AddressInfo :=
  (tierOfSignal b.typeSig).map fun t =>
    { tier := t
      mode := if b.modeSig then .absolute else .relative
      offset := b.offset
      pxn := coordOfSignals b.pxnV b.pxn
      pod := coordOfSignals b.podV b.pod
      core := coordOfSignals b.coreV b.core }

/-- The type code of a record (R73). -/
def tierSignal : Option Tier → BitVec 3
  | none => 0
  | some .l1sp => 1
  | some .l2sp => 2
  | some .dram => 3
  | some .ctrl => 4

/-- A bundle that carries a record: the signal of an unset coordinate is not read by anyone, and is 0 here. -/
def bundleOf (i : AddressInfo) : InfoBundle where
  typeSig := tierSignal i.tier
  modeSig := i.mode == .absolute
  offset := i.offset
  pxnV := i.pxn.isSome
  podV := i.pod.isSome
  coreV := i.core.isSome
  pxn := i.pxn.getD 0
  pod := i.pod.getD 0
  core := i.core.getD 0

end Sys2Proof.Machine
end

