-- ==== Sys2Proof/Machine/Ops.lean ====
section
/-! DEFINITION. Machine/Ops.lean: how a request ends: with its results, by fault entry, or turned away by the halted
codec; and reset, the only way out of the halted state. -/

namespace Sys2Proof.Machine

/-- The request ends `OK` with these results (R71). -/
def State.respond (s : State) (r : Result) : State := { s with response := some (.ok r) }

/-- The request ends with a status other than `OK`. For the codes 1 to 8 this is the fault entry of R200: the response
carries the status and no result, `cfg.FAULT` is set and `cfg.CAUSE` holds the code, and nothing else changes.
`Faulted` changes no register (R201). -/
def State.fail (s : State) (e : Error) : State :=
  { s with
    fault := s.fault || e.setsFault
    cause := if e.setsFault then e.code else s.cause
    response := some (.error e) }

/-- Reset (R220, R221): every register as after reset, whatever the state was; what the host does next is its own. -/
def State.applyReset (s : State) : State := { State.reset with pending := s.pending }

/-- A request that may write registers: the halted codec answers `Faulted` (R196 step 1, R201); otherwise the request
ends with its results over the state it leaves, or with its error and no other effect. -/
def attempt (s : State) (r : Except Error (State × Result)) : Outcome :=
  if s.fault then .next (s.fail .faulted)
  else
    match r with
    | .ok (t, v) => .next (t.respond v)
    | .error e => .next (s.fail e)

/-- A request that writes no register. -/
def answer (s : State) (r : Except Error Result) : Outcome := attempt s (r.map fun v => (s, v))

/-- A request that needs the map: `NotConfigured` comes before any check of an operand (R196 step 3). -/
def withMap {α : Type} (s : State) (k : Layout → Except Error α) : Except Error α :=
  if s.configured then k s.layout else .error .notConfigured

/-- A request whose op code selects no operation (R74, R196 step 2). -/
def refuseUnknownOp (s : State) : Outcome := attempt s (.error .unknownOp)

end Sys2Proof.Machine
end

