-- ==== Sys2Proof/Machine/AddressMap.lean ====
section
/-! DEFINITION. Machine/AddressMap.lean: configuration, encode, decode and the queries (spec/42_addressmap.md). -/

namespace Sys2Proof.Machine

/-! ### AM.CFG -/

/-- The sum of the id widths a topology needs (R130, R131). -/
def idBits (p o c : Nat) : Nat := bitlength (p - 1) + bitlength (o - 1) + bitlength (c - 1)

/-- The registers after a successful `AM.CFG` (R130, R132). -/
def State.configure (s : State) (p o c : Nat) : State :=
  { s with
    configured := true
    cfgP := p
    cfgO := o
    cfgC := c
    pxnBits := BitVec.ofNat 5 (bitlength (p - 1))
    podBits := BitVec.ofNat 5 (bitlength (o - 1))
    coreBits := BitVec.ofNat 5 (bitlength (c - 1)) }

/-- Constructing the map, its errors in the order of R133. -/
def buildMap (s : State) (p o c : Nat) : Except Error (State × Result) :=
  if s.configured then .error .alreadyConfigured
  else if p = 0 ∨ o = 0 ∨ c = 0 then .error .configurationError
  else if 31 < idBits p o c then .error .configurationError
  else .ok (s.configure p o c, .done)

/-- `AM.CFG` (R130 to R133). -/
def execAmCfg (p o c : Nat) (s : State) : Outcome := attempt s (buildMap s p o c)

/-! ### AM.ENC -/

/-- The offset entry of a format (R116); absolute `L1SP` and `CTRL` share one. -/
def offsetField : Format → FieldName
  | .absDram => .absDramOffset
  | .absL2sp => .absL2spOffset
  | .absL1sp => .absL1spOffset
  | .absCtrl => .absL1spOffset
  | .relDram => .relDramOffset
  | .relL2sp => .relL2spOffset
  | .relL1sp => .relL1spOffset

/-- The configured width of a coordinate (R13, R116). -/
def coordBits (L : Layout) : Coord → Nat
  | .pxn => L.pxnBits
  | .pod => L.podBits
  | .core => L.coreBits

/-- A coordinate fits its field; the id 0 alone fits an empty one (R116). R116 says nothing of an unset coordinate:
that it fits is DESIGN CHOICE (log entry 16). -/
def coordFits (L : Layout) (i : AddressInfo) (k : Coord) : Bool :=
  match coordOf i k with
  | none => true
  | some v => decide (v.toNat < 2 ^ coordBits L k)

/-- `fits(info)` for a record of format `f`: the offset and the carried coordinates, nothing else (R116, R143). -/
def fitsFormat (L : Layout) (f : Format) (i : AddressInfo) : Bool :=
  decide (i.offset.toNat < 2 ^ (fieldPos L (offsetField f)).width) && (formatCoords f).all (coordFits L i)

/-- `fits(info)` (R116). R116 gives no offset field to a record without a format: that it does not fit is DESIGN
CHOICE (log entry 16). -/
def fitsInfo (L : Layout) (i : AddressInfo) : Bool :=
  match infoFormat i with
  | none => false
  | some f => fitsFormat L f i

/-- Inserting a record's coordinate. Where the packing reads one it is populated: `encodeInfo` has checked it. -/
def packCoord (L : Layout) (n : FieldName) (v : Option CoordId) (w : Word) : Word := insertCoord L n (v.getD 0) w

/-- The packing of each format over a word (R136 to R142). -/
def packOver (L : Layout) (f : Format) (i : AddressInfo) (w : Word) : Word :=
  match f with
  | .absDram =>
    let w := insertField L .isAbsolute 1 w
    let w := insertField L .absIsDram 1 w
    let w := packCoord L .absPxn i.pxn w
    insertField L .absDramOffset i.offset w
  | .absL2sp =>
    let w := insertField L .isAbsolute 1 w
    let w := insertField L .absIsL2sp 1 w
    let w := packCoord L .absPxn i.pxn w
    let w := packCoord L .absPod i.pod w
    insertField L .absL2spOffset i.offset w
  | .absL1sp =>
    let w := insertField L .isAbsolute 1 w
    let w := packCoord L .absPxn i.pxn w
    let w := packCoord L .absPod i.pod w
    let w := packCoord L .absCore i.core w
    insertField L .absL1spOffset i.offset w
  | .absCtrl =>
    let w := insertField L .isAbsolute 1 w
    let w := insertField L .absIsCtrl 1 w
    let w := packCoord L .absPxn i.pxn w
    let w := packCoord L .absPod i.pod w
    let w := packCoord L .absCore i.core w
    insertField L .absL1spOffset i.offset w
  | .relL1sp => insertField L .relL1spOffset i.offset w
  | .relL2sp =>
    let w := insertField L .relIsL2sp 1 w
    insertField L .relL2spOffset i.offset w
  | .relDram =>
    let w := insertField L .relIsDram 1 w
    insertField L .relDramOffset i.offset w

/-- The word of a record: the packing starts from the all-zero word (R135). -/
def packInfo (L : Layout) (f : Format) (i : AddressInfo) : Word := packOver L f i 0

/-- `AM.ENC` on a record, from the type test on (R135, R143, R158). The record has no format exactly when its type is
unset or it is relative `CTRL`; then a carried coordinate may be missing; then a value may be wider than its field,
which only the policy `reject` turns away: under `mask` every insert drops the high bits. -/
def encodeInfo (policy : OverflowPolicy) (L : Layout) (i : AddressInfo) : Except Error Word :=
  match infoFormat i with
  | none => .error .invalidAddressKind
  | some f =>
    if (formatCoords f).all (fun k => (coordOf i k).isSome) then
      if fitsFormat L f i then .ok (packInfo L f i)
      else
        match policy with
        | .reject => .error .fieldOverflow
        | .mask => .ok (packInfo L f i)
    else .error .invalidAddressKind

/-- `AM.ENC` on a bundle: a reserved type signal comes before every test of the record (R135, R193). -/
def encodeBundle (policy : OverflowPolicy) (L : Layout) (b : InfoBundle) : Except Error Word :=
  match infoOf b with
  | none => .error .badOperand
  | some i => encodeInfo policy L i

/-- `AM.ENC` (R135 to R143, R158). -/
def execAmEnc (info : InfoBundle) (s : State) : Outcome :=
  answer s ((withMap s fun L => encodeBundle Config.overflowPolicy L info).map .word)

/-! ### AM.DEC -/

/-- The record of a word of each format (R145 to R151). An absolute record has exactly the carried coordinates, read
from the word; a relative one has the requester's identity attached. -/
def readInfo (L : Layout) (f : Format) (raw : Word) (my : Requester) : AddressInfo :=
  match f with
  | .absDram =>
    { tier := some .dram, mode := .absolute, offset := readField L .absDramOffset raw
      pxn := some (readCoord L .absPxn raw), pod := none, core := none }
  | .absL2sp =>
    { tier := some .l2sp, mode := .absolute, offset := readField L .absL2spOffset raw
      pxn := some (readCoord L .absPxn raw), pod := some (readCoord L .absPod raw), core := none }
  | .absL1sp =>
    { tier := some .l1sp, mode := .absolute, offset := readField L .absL1spOffset raw
      pxn := some (readCoord L .absPxn raw), pod := some (readCoord L .absPod raw)
      core := some (readCoord L .absCore raw) }
  | .absCtrl =>
    { tier := some .ctrl, mode := .absolute, offset := readField L .absL1spOffset raw
      pxn := some (readCoord L .absPxn raw), pod := some (readCoord L .absPod raw)
      core := some (readCoord L .absCore raw) }
  | .relDram =>
    { tier := some .dram, mode := .relative, offset := readField L .relDramOffset raw
      pxn := some my.pxn, pod := some my.pod, core := some my.core }
  | .relL2sp =>
    { tier := some .l2sp, mode := .relative, offset := readField L .relL2spOffset raw
      pxn := some my.pxn, pod := some my.pod, core := some my.core }
  | .relL1sp =>
    { tier := some .l1sp, mode := .relative, offset := readField L .relL1spOffset raw
      pxn := some my.pxn, pod := some my.pod, core := some my.core }

/-- The results of decoding a word of a given format: the record and `canonical` (R144, R152). -/
def decodeAs (L : Layout) (f : Format) (raw : Word) (my : Requester) : Result :=
  .decoded (readInfo L f raw my) (canonical L f raw)

/-- `AM.DEC` (R144 to R152): total on every word once the map exists. -/
def execAmDec (raw : Word) (my : Requester) (s : State) : Outcome :=
  answer s (withMap s fun L => .ok (decodeAs L (classify raw) raw my))

/-! ### AM.FIELD and AM.STATUS -/

/-- The answer of the query surface for an entry: an empty field is absent (R155). -/
def reportField (F : FieldPos) : Result :=
  if F.width = 0 then .fieldAbsent else .fieldAt (BitVec.ofNat 6 F.hi) (BitVec.ofNat 6 F.lo)

/-- `AM.FIELD` (R155). -/
def execAmField (fieldId : BitVec 4) (s : State) : Outcome :=
  answer s (withMap s fun L =>
    match fieldOfId fieldId with
    | none => .error .unknownField
    | some n => .ok (reportField (fieldPos L n)))

/-- The results of `AM.STATUS`: the six configuration registers read as 0 until the map exists (R156). -/
def statusReport (s : State) : StatusReport where
  configured := s.configured
  fault := s.fault
  cause := s.cause
  cfgP := if s.configured then s.cfgP else 0
  cfgO := if s.configured then s.cfgO else 0
  cfgC := if s.configured then s.cfgC else 0
  pxnBits := if s.configured then s.pxnBits else 0
  podBits := if s.configured then s.podBits else 0
  coreBits := if s.configured then s.coreBits else 0

/-- `AM.STATUS` (R156): the one operation the halted codec still answers (R201). -/
def execAmStatus (s : State) : Outcome := .next (s.respond (.status (statusReport s)))

end Sys2Proof.Machine
end

