-- ==== Sys2Proof/Machine/AddressWord.lean ====
section
/-! DEFINITION. Machine/AddressWord.lean: the meanings of the seven address-word rows of the opcode table. A word of a
format that a requester presents is taken apart by the decode rule of that format, as `AM.DEC` takes it apart
(R145 to R152; log entry 1). -/

namespace Sys2Proof.Machine

/-- A word whose format is known, presented to the decoder. -/
def presentWord (f : Format) (w : Word) (my : Requester) (s : State) : Outcome :=
  answer s (withMap s fun L => .ok (decodeAs L f w my))

/-- A word of format `ABS_DRAM` (R55, R145). -/
def execAbsDram (low : BitVec 62) (my : Requester) (s : State) : Outcome :=
  presentWord .absDram (absDramWord low) my s

/-- A word of format `ABS_L2SP` (R56, R146). -/
def execAbsL2sp (low : BitVec 61) (my : Requester) (s : State) : Outcome :=
  presentWord .absL2sp (absL2spWord low) my s

/-- A word of format `ABS_L1SP` (R57, R147). -/
def execAbsL1sp (ids : BitVec 31) (offset : BitVec 29) (my : Requester) (s : State) : Outcome :=
  presentWord .absL1sp (absL1spWord ids offset) my s

/-- A word of format `ABS_CTRL` (R58, R148). -/
def execAbsCtrl (ids : BitVec 31) (offset : BitVec 29) (my : Requester) (s : State) : Outcome :=
  presentWord .absCtrl (absCtrlWord ids offset) my s

/-- A word of format `REL_L1SP` (R59, R151). -/
def execRelL1sp (reserved : BitVec 32) (offset : BitVec 29) (my : Requester) (s : State) : Outcome :=
  presentWord .relL1sp (relL1spWord reserved offset) my s

/-- A word of format `REL_L2SP` (R60, R150). -/
def execRelL2sp (reserved : BitVec 32) (offset : BitVec 29) (my : Requester) (s : State) : Outcome :=
  presentWord .relL2sp (relL2spWord reserved offset) my s

/-- A word of format `REL_DRAM` (R61, R149). -/
def execRelDram (reserved : BitVec 32) (offset : BitVec 30) (my : Requester) (s : State) : Outcome :=
  presentWord .relDram (relDramWord reserved offset) my s

end Sys2Proof.Machine
end

