-- ==== Sys2Proof/Machine/BitfieldOps.lean ====
section
/-! DEFINITION. Machine/BitfieldOps.lean: the meanings of the `BF.*` operations (spec/40_bitfield.md). None needs the
map and none touches a register. -/

namespace Sys2Proof.Machine

/-- `BF.BITS` (R91). -/
def execBfBits (hi lo : BitVec 6) (s : State) : Outcome :=
  answer s ((checkBounds hi lo).map fun _ => .bits (BitVec.ofNat 7 (fieldWidth hi.toNat lo.toNat)))

/-- `BF.MASK` (R92). -/
def execBfMask (hi lo : BitVec 6) (s : State) : Outcome :=
  answer s ((checkBounds hi lo).map fun _ => .mask (fieldMask hi.toNat lo.toNat))

/-- `BF.GET` (R93). -/
def execBfGet (hi lo : BitVec 6) (word : Word) (s : State) : Outcome :=
  answer s ((checkBounds hi lo).map fun _ => .value (fieldGet hi.toNat lo.toNat word))

/-- `BF.SET` (R94): it masks the value under both overflow policies. -/
def execBfSet (hi lo : BitVec 6) (word value : Word) (s : State) : Outcome :=
  answer s ((checkBounds hi lo).map fun _ => .newWord (fieldSet hi.toNat lo.toNat word value))

end Sys2Proof.Machine
end

