-- ==== Sys2Proof/Machine/RangeBuilder.lean ====
section
/-! DEFINITION. Machine/RangeBuilder.lean: the bank-interleave address-range partitioner (spec/43_rangebuilder.md).
`m`, `s`, `t`, `b` are the spec's abbreviations of the operands (R160); all arithmetic is on naturals (R8). -/

namespace Sys2Proof.Machine

/-- `banks(s, t)` (R161). With `s = 0` the step is not looked at. -/
def bankCount (s t : Nat) : Except Error Nat :=
  if s = 0 then .ok 1
  else if t % s ≠ 0 then .error .configurationError
  else if t = 0 then .error .configurationError
  else .ok (t / s)

/-- `RB.BANKS` (R161). -/
def execRbBanks (size step : Word) (s : State) : Outcome :=
  answer s ((bankCount size.toNat step.toNat).map fun n => .banks (BitVec.ofNat 64 n))

/-- `total_size`, the exact product (R162). -/
def totalSize (m s t : Nat) : Except Error Nat := (bankCount s t).map fun n => m * n

/-- `RB.TOTAL` (R162). -/
def execRbTotal (memsize size step : Word) (s : State) : Outcome :=
  answer s ((totalSize memsize.toNat size.toNat step.toNat).map .total)

/-- `check_range(m, s, N, b)`, its tests in order (R164). -/
def checkRange (m s n b : Nat) : Except Error Unit :=
  if m = 0 then .error .configurationError
  else if m < s then .error .configurationError
  else if n ≤ b then .error .configurationError
  else .ok ()

/-- The start of bank `b`'s envelope (R163). -/
def rangeFirst (s b : Nat) : Nat := b * s

/-- The end of bank `b`'s envelope among `n` banks (R163). -/
def rangeLast (m s n b : Nat) : Nat := m * n - (n - b - 1) * s - 1

/-- `interleaved_address_range(b)` (R163), with the check of its end (R164). -/
def bankRange (m s t b : Nat) : Except Error (Nat × Nat) :=
  match bankCount s t with
  | .error e => .error e
  | .ok n =>
    match checkRange m s n b with
    | .error e => .error e
    | .ok _ =>
      if 2 ^ 64 ≤ rangeLast m s n b then .error .configurationError
      else .ok (rangeFirst s b, rangeLast m s n b)

/-- `RB.RANGE` (R163). -/
def execRbRange (memsize size step bank : Word) (s : State) : Outcome :=
  answer s ((bankRange memsize.toNat size.toNat step.toNat bank.toNat).map fun r =>
    .range (BitVec.ofNat 64 r.1) (BitVec.ofNat 64 r.2))

/-- The two boundaries of an envelope through the whole of `AM.ENC`, the start first (R165). -/
def encodeRange (policy : OverflowPolicy) (L : Layout) (tag : Word → AddressInfo) (first last : Nat) :
    Except Error (Word × Word) :=
  match encodeInfo policy L (tag (BitVec.ofNat 64 first)) with
  | .error e => .error e
  | .ok a =>
    match encodeInfo policy L (tag (BitVec.ofNat 64 last)) with
    | .error e => .error e
    | .ok b => .ok (a, b)

/-- `RB.L1SP` from the map on (R166): never interleaved. -/
def l1spRange (policy : OverflowPolicy) (L : Layout) (m : Nat) (pxn pod core : CoordId) : Except Error (Word × Word) :=
  match checkRange m 0 1 0 with
  | .error e => .error e
  | .ok _ => encodeRange policy L (absL1spInfo pxn pod core) 0 (m - 1)

/-- A bank's envelope, its boundaries tagged for the tier (R165, R167, R168). -/
def taggedRange (policy : OverflowPolicy) (L : Layout) (tag : Word → AddressInfo) (m s t b : Nat) :
    Except Error (Word × Word) :=
  match bankRange m s t b with
  | .error e => .error e
  | .ok r => encodeRange policy L tag r.1 r.2

/-- `RB.L1SP` (R166). -/
def execRbL1sp (memsize : Word) (pxn pod core : CoordId) (s : State) : Outcome :=
  answer s ((withMap s fun L => l1spRange Config.overflowPolicy L memsize.toNat pxn pod core).map fun r =>
    .descriptor r.1 r.2 0 0)

/-- `RB.L2SP` (R167). -/
def execRbL2sp (memsize size step : Word) (pxn pod : CoordId) (bank : Word) (s : State) : Outcome :=
  answer s ((withMap s fun L => taggedRange Config.overflowPolicy L (absL2spInfo pxn pod)
      memsize.toNat size.toNat step.toNat bank.toNat).map fun r => .descriptor r.1 r.2 size step)

/-- `RB.DRAM` (R168). -/
def execRbDram (memsize size step : Word) (pxn : CoordId) (bank : Word) (s : State) : Outcome :=
  answer s ((withMap s fun L => taggedRange Config.overflowPolicy L (absDramInfo pxn)
      memsize.toNat size.toNat step.toNat bank.toNat).map fun r => .descriptor r.1 r.2 size step)

/-- The ownership predicate of a descriptor `(first, last, s, t)` on an address (R180): not an operation of the codec. -/
def owns (first last s t a : Nat) : Bool :=
  decide (first ≤ a) && decide (a ≤ last) && (s == 0 || decide ((a - first) % t < s))

end Sys2Proof.Machine
end

