-- ==== Sys2Proof/Machine/Dispatch.lean ====
section
/-! DEFINITION. Machine/Dispatch.lean: every instruction to its meaning. -/

namespace Sys2Proof.Machine

def exec (i : Instr) (s : State) : Host.Outcome State Fault Refusal :=
  match i with
  -- the bitfield unit
  | .bfBits hi lo => Sys2Proof.Machine.execBfBits hi lo s
  | .bfMask hi lo => Sys2Proof.Machine.execBfMask hi lo s
  | .bfGet hi lo word => Sys2Proof.Machine.execBfGet hi lo word s
  | .bfSet hi lo word value => Sys2Proof.Machine.execBfSet hi lo word value s
  -- the address map
  | .amCfg p o c => Sys2Proof.Machine.execAmCfg p o c s
  | .amEnc info => Sys2Proof.Machine.execAmEnc info s
  | .amDec raw my => Sys2Proof.Machine.execAmDec raw my s
  | .amField fieldId => Sys2Proof.Machine.execAmField fieldId s
  | .amStatus => Sys2Proof.Machine.execAmStatus s
  -- the range partitioner
  | .rbBanks size step => Sys2Proof.Machine.execRbBanks size step s
  | .rbTotal memsize size step => Sys2Proof.Machine.execRbTotal memsize size step s
  | .rbRange memsize size step bank => Sys2Proof.Machine.execRbRange memsize size step bank s
  | .rbL1sp memsize pxn pod core => Sys2Proof.Machine.execRbL1sp memsize pxn pod core s
  | .rbL2sp memsize size step pxn pod bank => Sys2Proof.Machine.execRbL2sp memsize size step pxn pod bank s
  | .rbDram memsize size step pxn bank => Sys2Proof.Machine.execRbDram memsize size step pxn bank s
  -- the address words
  | .absDram low my => Sys2Proof.Machine.execAbsDram low my s
  | .absL2sp low my => Sys2Proof.Machine.execAbsL2sp low my s
  | .absL1sp ids offset my => Sys2Proof.Machine.execAbsL1sp ids offset my s
  | .absCtrl ids offset my => Sys2Proof.Machine.execAbsCtrl ids offset my s
  | .relL1sp reserved offset my => Sys2Proof.Machine.execRelL1sp reserved offset my s
  | .relL2sp reserved offset my => Sys2Proof.Machine.execRelL2sp reserved offset my s
  | .relDram reserved offset my => Sys2Proof.Machine.execRelDram reserved offset my s

end Sys2Proof.Machine
end

