-- ==== Sys2Proof/Machine/Step.lean ====
section
/-! DEFINITION. Machine/Step.lean: one step of the codec: the next event the host puts to it, taken whole (R40, R70). -/

namespace Sys2Proof.Machine

/-- One step. With no event at the codec nothing happens (R222; log entry 6). A request or an address word is taken
from the inputs, decoded and executed; a request whose code selects no operation is refused (R74); reset resets
(R220). -/
def step (s : State) : Host.Outcome State Fault Refusal :=
  match s.pending with
  | [] => .next s
  | .reset :: rest => .next { s with pending := rest }.applyReset
  | .wire w :: rest =>
    match decode w with
    | .ok i => exec i { s with pending := rest }
    | .error (.unknownOp _) => refuseUnknownOp { s with pending := rest }

/-- The state in which the very next step takes this word from the inputs: the host puts it to the codec first
(log entry 6). -/
def State.withFetchWord (s : State) (nbits w : Nat) : State :=
  { s with pending := .wire (tableWire nbits w) :: s.pending }

end Sys2Proof.Machine
end

