-- ==== Sys2Proof/Safety.lean ====
section
/-! DEFINITION. Safety.lean: the terms the statements use: the invariant of the registers, the states in which the map
operations run, what a run shows to the host, and the spec's tables that the machine itself does not use. -/

namespace Sys2Proof.Machine

/-- The configuration registers describe a legal map whenever `cfg.CONFIGURED = 1` (R13: positive counts, the widths
`bitlength(count - 1)`, their sum at most 31). -/
abbrev State.MapLegal (s : State) : Prop :=
  s.configured = true →
    1 ≤ s.cfgP ∧ 1 ≤ s.cfgO ∧ 1 ≤ s.cfgC
      ∧ s.pxnBits.toNat = bitlength (s.cfgP - 1)
      ∧ s.podBits.toNat = bitlength (s.cfgO - 1)
      ∧ s.coreBits.toNat = bitlength (s.cfgC - 1)
      ∧ s.pxnBits.toNat + s.podBits.toNat + s.coreBits.toNat ≤ 31

/-- `cfg.CAUSE` is 0 while `cfg.FAULT = 0`, and otherwise one of the codes 1 to 8 (R14, R195). -/
abbrev State.CauseLegal (s : State) : Prop :=
  if s.fault = true then 1 ≤ s.cause.toNat ∧ s.cause.toNat ≤ 8 else s.cause = 0

/-- The response just given is an error. -/
def State.lastFailed (s : State) : Bool :=
  match s.response with
  | some (.error _) => true
  | _ => false

/-- A request that ended with a status other than `OK` has left `cfg.FAULT` set (R14). -/
abbrev State.FailureHalts (s : State) : Prop := s.lastFailed = true → s.fault = true

/-- The invariant of the registers. -/
abbrev State.Inv (s : State) : Prop := s.MapLegal ∧ s.CauseLegal ∧ s.FailureHalts

/-- The codec serves requests: it is not halted (R201). -/
abbrev State.Running (s : State) : Prop := s.fault = false

/-- The codec serves map requests: not halted, configured, its registers legal (R225). -/
abbrev State.Ready (s : State) : Prop := s.fault = false ∧ s.configured = true ∧ s.MapLegal

/-- The codec serves requests and has no map yet. -/
abbrev State.Unconfigured (s : State) : Prop := s.fault = false ∧ s.configured = false

/-- Two states a requester cannot tell apart: equal but for the six configuration registers while there is no map
(R22, U7). -/
abbrev State.LooksLike (s t : State) : Prop :=
  s.configured = t.configured ∧ s.fault = t.fault ∧ s.cause = t.cause ∧ s.response = t.response
    ∧ s.pending = t.pending ∧ (s.configured = true → s = t)

/-- The responses of the next `k` steps, in order. -/
def State.trace : Nat → State → List (Option Response)
  | 0, _ => []
  | k + 1, s =>
    match step s with
    | .next t => t.response :: t.trace k
    | .fault _ => []
    | .refused _ => []

/-- The mask of a format's row (R62). -/
def formatMask : Format → Word
  | .absDram => 0xC000000000000000
  | .absL2sp => 0xE000000000000000
  | .absCtrl => 0xE000000020000000
  | .absL1sp => 0xE000000020000000
  | .relDram => 0x8000000040000000
  | .relL2sp => 0x8000000060000000
  | .relL1sp => 0x8000000060000000

/-- The match of a format's row (R62). -/
def formatMatch : Format → Word
  | .absDram => 0xC000000000000000
  | .absL2sp => 0xA000000000000000
  | .absCtrl => 0x8000000020000000
  | .absL1sp => 0x8000000000000000
  | .relDram => 0x0000000040000000
  | .relL2sp => 0x0000000020000000
  | .relL1sp => 0x0000000000000000

/-- Bit `j` of a word of this format is reserved under these widths (R64, R65). -/
def reservedAt (p o c : Nat) (f : Format) (j : Nat) : Bool :=
  match f with
  | .absDram => j == 61
  | .absL2sp => false
  | .absL1sp | .absCtrl => decide (30 ≤ j ∧ j + p + o + c ≤ 60)
  | .relDram | .relL2sp | .relL1sp => decide (31 ≤ j ∧ j ≤ 62)

/-! ### How a request ends, written out for the statements -/

/-- The state with this result in its response and nothing else changed (R71). -/
def State.gives (s : State) (r : Result) : State := { s with response := some (.ok r) }

/-- The state after fault entry with this error and code (R200). -/
def State.haltsWith (s : State) (e : Error) (code : BitVec 4) : State :=
  { s with fault := true, cause := code, response := some (.error e) }

/-- How a request ends whose value is wider than its field: by the policy (R143). -/
def State.overflows (s : State) (masked : Result) : State :=
  match Config.overflowPolicy with
  | .reject => s.haltsWith .fieldOverflow 3
  | .mask => s.gives masked

/-- The number of banks of a region with a legal step (R160, R161). -/
def bankNumber (s t : Nat) : Nat := if s = 0 then 1 else t / s

/-- The end of bank `b`'s envelope (R163). -/
def lastOffset (m s t b : Nat) : Nat := m * bankNumber s t - (bankNumber s t - b - 1) * s - 1

/-- The parameters give a number of banks (R161). -/
abbrev StepLegal (s t : Nat) : Prop := s = 0 ∨ (s ∣ t ∧ 0 < t)

/-- The parameters and the bank index pass every check of R161 and R164. -/
abbrev RangeAccepts (m s t b : Nat) : Prop :=
  StepLegal s t ∧ 0 < m ∧ s ≤ m ∧ b < bankNumber s t ∧ lastOffset m s t b < 2 ^ 64

end Sys2Proof.Machine
end

