-- ==== Sys2Proof/Certificates/Slice0/Obligations.lean ====
section
/-! DEFINITION. Certificates/Slice0/Obligations.lean: the statements for the provers. `s.gives r` is `s` with the
result `r` in its response and nothing else changed; `s.haltsWith e code` is `s` after fault entry. An equation
`exec i s = .next …` therefore says the frame as well: every register it does not name is as before. -/

open Sys2Proof Sys2Proof.Machine

/-! ### Encoding -/

/-- Words of the opcode table, and one whole request bundle, decode to the instructions they stand for (R62, R72). -/
def Obligations.TableWordsDecode : Prop :=
  decodeTableWord 8 0x00 = some (.bfBits 0 0)
    ∧ decodeTableWord 8 0x0A = some (.amDec 0 ⟨0, 0, 0⟩)
    ∧ decodeTableWord 8 0x15 = some (.rbDram 0 0 0 0 0)
    ∧ decodeTableWord 8 0x04 = none
    ∧ decodeTableWord 64 0xC000000000000000 = some (.absDram 0 ⟨0, 0, 0⟩)
    ∧ decodeTableWord 64 0x8000000020000000 = some (.absCtrl 0 0 ⟨0, 0, 0⟩)
    ∧ decode (.request ((BitVec.ofNat 81 (0x02 + 31 * 2 ^ 5 + 16 * 2 ^ 11 + 0x0123456789ABCDEF * 2 ^ 17)).setWidth 325))
      = .ok (.bfGet 31 16 0x0123456789ABCDEF)

/-- Decoding the bits of a well-formed instruction gives it back, with every operand at every value the port carries. -/
def Obligations.EncodedInstructionsDecodeBack : Prop :=
  ∀ i : Instr, WellFormed i = true → decode (encode i) = .ok i

/-- No bit of an address word or of the requester's identity is dropped by decoding. -/
def Obligations.AddressBitsReencode : Prop :=
  ∀ b : BitVec 160, encode (decodeAddress b) = .address b

/-- The seventeen reserved op codes, and only they, select no operation; a request with one is refused with
`UnknownOp` (R74), or with `Faulted` by a halted codec, which keeps its cause (R196, R201). That the op code is the five
low bits of a bundle is the model's choice (log entry 2), and so is the host's sequence it is taken from (log entry 6). -/
def Obligations.ReservedCodesAreUnknownOp : Prop :=
  (∀ b : BitVec 325,
    (b.toNat % 32 ∈ [0x04, 0x05, 0x06, 0x07, 0x0D, 0x0E, 0x0F, 0x16, 0x17, 0x18, 0x19, 0x1A, 0x1B, 0x1C, 0x1D, 0x1E, 0x1F])
      ↔ ∀ i : Instr, decode (.request b) ≠ .ok i)
  ∧ ∀ (s : State) (b : BitVec 325) (rest : List Event), s.pending = .wire (.request b) :: rest →
      (∀ i : Instr, decode (.request b) ≠ .ok i) →
      step s = .next
        { s with
          pending := rest
          fault := true
          cause := if s.fault then s.cause else 5
          response := some (.error (if s.fault then .faulted else .unknownOp)) }

/-- The masks and matches of R62 are the classification by bits, so every word matches exactly one row. -/
def Obligations.EveryWordMatchesExactlyItsFormat : Prop :=
  ∀ (w : Word) (f : Format), w &&& formatMask f = formatMatch f ↔ classify w = f

/-! ### The step, reset and the invariant -/

/-- A step runs the instruction its input decodes to, over the state without that input; an input the host places
first is run next. -/
def Obligations.StepRunsTheDecodedInstruction : Prop :=
  (∀ (s : State) (w : Wire) (rest : List Event) (i : Instr), s.pending = .wire w :: rest → decode w = .ok i →
    step s = exec i { s with pending := rest })
  ∧ ∀ (s : State) (nbits w : Nat) (i : Instr), decodeTableWord nbits w = some i →
      step (s.withFetchWord nbits w) = exec i s

/-- Reset leaves the codec unconfigured and unhalted, whatever its state was (R220, R221). The last clause is the model's
choice (log entries 6 and 9): reset is an event of the host's sequence and leaves the rest of it as it was. -/
def Obligations.ResetEventUnconfigures : Prop :=
  ∀ (s : State) (rest : List Event), s.pending = .reset :: rest →
    ∃ t, step s = .next t ∧ t.configured = false ∧ t.fault = false ∧ t.cause = 0 ∧ t.pending = rest

/-- The invariant holds right after reset. -/
def Obligations.InvHoldsAtReset : Prop := State.reset.Inv

/-- Every step keeps the invariant of the registers. -/
def Obligations.StepKeepsInv : Prop := ∀ s t : State, s.Inv → step s = .next t → t.Inv

/-- Every state has a next state: "every request in every state has a defined response". -/
def Obligations.EveryStepAnswersNext : Prop := ∀ s : State, ∃ t, step s = .next t

/-! ### Faults, halting and the frame of every instruction -/

/-- The halted codec answers `Faulted` to every request but `AM.STATUS`, one with a reserved code included, and changes
no register; `AM.STATUS` is answered normally (R201). -/
def Obligations.HaltedCodecAnswersFaulted : Prop :=
  ∀ s : State, s.fault = true →
    (∀ i : Instr, i ≠ .amStatus → exec i s = .next { s with response := some (.error .faulted) })
    ∧ (∀ (b : BitVec 325) (rest : List Event), s.pending = .wire (.request b) :: rest →
        (∀ i : Instr, decode (.request b) ≠ .ok i) →
        step s = .next { s with pending := rest, response := some (.error .faulted) })
    ∧ ∃ report, exec .amStatus s = .next (s.gives (.status report)) ∧ report.fault = true ∧ report.cause = s.cause

/-- An operation of a running codec that ends with an error sets `FAULT` and records the code in `CAUSE`, and changes
nothing else (R200). -/
def Obligations.FaultEntryWritesFaultAndCauseOnly : Prop :=
  ∀ (i : Instr) (s t : State) (e : Error), s.fault = false → exec i s = .next t →
    t.response = some (.error e) →
    t = { s with fault := true, cause := e.code, response := some (.error e) }
      ∧ 1 ≤ e.code.toNat ∧ e.code.toNat ≤ 8

/-- An operation that ends `OK` changes no register, unless it is `AM.CFG`; and a request that ends leaves a response. -/
def Obligations.SuccessWritesNoRegister : Prop :=
  ∀ (i : Instr) (s t : State), (∀ p o c, i ≠ .amCfg p o c) → exec i s = .next t → t.lastFailed = false →
    ∃ r, t = s.gives r

/-- Once configured, no step but reset changes the map; a second `AM.CFG` is refused (R18). -/
def Obligations.MapIsImmutableUntilReset : Prop :=
  (∀ s t : State, s.configured = true → (∀ rest, s.pending ≠ .reset :: rest) → step s = .next t →
    t.configured = true ∧ t.cfgP = s.cfgP ∧ t.cfgO = s.cfgO ∧ t.cfgC = s.cfgC
      ∧ t.pxnBits = s.pxnBits ∧ t.podBits = s.podBits ∧ t.coreBits = s.coreBits)
  ∧ ∀ (s : State) (p o c : Nat), s.Running → s.configured = true →
      exec (.amCfg p o c) s = .next (s.haltsWith .alreadyConfigured 8)

/-- A halted codec stays halted with the cause of its first fault, through any run without reset. -/
def Obligations.FaultPersistsUntilReset : Prop :=
  ∀ (k : Nat) (s t : State), s.fault = true → (∀ e ∈ s.pending.take k, e ≠ .reset) →
    Host.Core.run Sys2Proof.core k s = .next t →
    t.fault = true ∧ t.cause = s.cause ∧ t.configured = s.configured ∧ t.cfgP = s.cfgP ∧ t.cfgO = s.cfgO
      ∧ t.cfgC = s.cfgC ∧ t.pxnBits = s.pxnBits ∧ t.podBits = s.podBits ∧ t.coreBits = s.coreBits

/-- Until the map exists, no response and no later state that has a map depends on the six configuration registers. -/
def Obligations.UnconfiguredRegistersAreUnobservable : Prop :=
  ∀ s s' t : State, s.LooksLike s' → step s = .next t → ∃ t', step s' = .next t' ∧ t.LooksLike t'

/-- Requests that each end `OK` when put alone to a configured, running codec get the same responses when put to it
in any order. -/
def Obligations.ResponsesDoNotDependOnOrder : Prop :=
  ∀ (s : State) (es : List Event), s.Running → s.configured = true →
    (∀ e ∈ es, ∃ r, State.trace 1 { s with pending := [e] } = [some (.ok r)]) →
    State.trace es.length { s with pending := es } = es.flatMap fun e => State.trace 1 { s with pending := [e] }

/-- Every operation that needs the map is refused with `NotConfigured` before it exists, whatever its operands; so is
an address word (the last clause is the model's choice, log entry 1). -/
def Obligations.MapOperationsNeedConfiguration : Prop :=
  ∀ s : State, s.Unconfigured →
    (∀ info, exec (.amEnc info) s = .next (s.haltsWith .notConfigured 7))
    ∧ (∀ raw my, exec (.amDec raw my) s = .next (s.haltsWith .notConfigured 7))
    ∧ (∀ n, exec (.amField n) s = .next (s.haltsWith .notConfigured 7))
    ∧ (∀ m x y z, exec (.rbL1sp m x y z) s = .next (s.haltsWith .notConfigured 7))
    ∧ (∀ m n t x y b, exec (.rbL2sp m n t x y b) s = .next (s.haltsWith .notConfigured 7))
    ∧ (∀ m n t x b, exec (.rbDram m n t x b) s = .next (s.haltsWith .notConfigured 7))
    ∧ ∀ b : BitVec 160, exec (decodeAddress b) s = .next (s.haltsWith .notConfigured 7)

/-! ### The bitfield unit -/

/-- `BF.BITS` answers the width of the field, and refuses `hi < lo` (R91). -/
def Obligations.BfBitsAnswersTheWidth : Prop :=
  ∀ (hi lo : BitVec 6) (s : State), s.Running →
    (lo.toNat ≤ hi.toNat →
      exec (.bfBits hi lo) s = .next (s.gives (.bits (BitVec.ofNat 7 (hi.toNat - lo.toNat + 1)))))
    ∧ (hi.toNat < lo.toNat → exec (.bfBits hi lo) s = .next (s.haltsWith .badOperand 4))

/-- `BF.MASK` answers the right-justified all-ones value of the field's width, and refuses `hi < lo` (R92). -/
def Obligations.BfMaskAnswersAllOnes : Prop :=
  ∀ (hi lo : BitVec 6) (s : State), s.Running →
    (lo.toNat ≤ hi.toNat →
      ∃ m : Word, exec (.bfMask hi lo) s = .next (s.gives (.mask m))
        ∧ m.toNat = 2 ^ (hi.toNat - lo.toNat + 1) - 1)
    ∧ (hi.toNat < lo.toNat → exec (.bfMask hi lo) s = .next (s.haltsWith .badOperand 4))

/-- `BF.GET` answers the content of the field as a number, and refuses `hi < lo` (R93). -/
def Obligations.BfGetAnswersTheField : Prop :=
  ∀ (hi lo : BitVec 6) (word : Word) (s : State), s.Running →
    (lo.toNat ≤ hi.toNat →
      ∃ v : Word, exec (.bfGet hi lo word) s = .next (s.gives (.value v))
        ∧ v.toNat = word.toNat / 2 ^ lo.toNat % 2 ^ (hi.toNat - lo.toNat + 1))
    ∧ (hi.toNat < lo.toNat → exec (.bfGet hi lo word) s = .next (s.haltsWith .badOperand 4))

/-- `BF.SET` answers the word with the field replaced by the low bits of the value and every other bit as it was, and
refuses `hi < lo` (R94). -/
def Obligations.BfSetReplacesTheFieldOnly : Prop :=
  ∀ (hi lo : BitVec 6) (word value : Word) (s : State), s.Running →
    (lo.toNat ≤ hi.toNat →
      ∃ w : Word, exec (.bfSet hi lo word value) s = .next (s.gives (.newWord w))
        ∧ ∀ j, j < 64 → w.getLsbD j
          = if lo.toNat ≤ j ∧ j ≤ hi.toNat then value.getLsbD (j - lo.toNat) else word.getLsbD j)
    ∧ (hi.toNat < lo.toNat → exec (.bfSet hi lo word value) s = .next (s.haltsWith .badOperand 4))

/-- The six laws of the unit: bit isolation, mask, get after set, set after get, last writer wins, and sets on
disjoint fields commute and do not disturb a get. -/
def Obligations.BitfieldLaws : Prop :=
  ∀ (hi lo : Nat) (w v v' : Word), lo ≤ hi → hi ≤ 63 →
    (∀ j, j < lo ∨ hi < j → (fieldSet hi lo w v).getLsbD j = w.getLsbD j)
    ∧ (fieldMask hi lo).toNat = 2 ^ fieldWidth hi lo - 1
    ∧ fieldGet hi lo (fieldSet hi lo w v) = v &&& fieldMask hi lo
    ∧ fieldSet hi lo w (fieldGet hi lo w) = w
    ∧ fieldSet hi lo (fieldSet hi lo w v) v' = fieldSet hi lo w v'
    ∧ ∀ hi' lo' : Nat, lo' ≤ hi' → hi' ≤ 63 → (hi < lo' ∨ hi' < lo) →
        fieldSet hi' lo' (fieldSet hi lo w v) v' = fieldSet hi lo (fieldSet hi' lo' w v') v
        ∧ fieldGet hi lo (fieldSet hi' lo' w v') = fieldGet hi lo w

/-! ### Configuration and the queries -/

/-- The width of an id field is the base-2 logarithm of the count, rounded up. -/
def Obligations.BitlengthIsTheLeastWidth : Prop :=
  ∀ n k : Nat, 1 ≤ n → (bitlength (n - 1) ≤ k ↔ n ≤ 2 ^ k)

/-- `AM.CFG`: a legal topology writes the counts and the widths and sets `CONFIGURED`; a zero count or widths above 31
bits are `ConfigurationError`; a second one is `AlreadyConfigured` (R130, R133). The widths are written as the
rounded-up logarithms of the counts. -/
def Obligations.CfgBuildsTheMapOrFails : Prop :=
  ∀ (p o c : Nat) (s : State), s.Running →
    (s.configured = false → 1 ≤ p → 1 ≤ o → 1 ≤ c → Nat.clog 2 p + Nat.clog 2 o + Nat.clog 2 c ≤ 31 →
      exec (.amCfg p o c) s = .next
        { s with
          configured := true
          cfgP := p
          cfgO := o
          cfgC := c
          pxnBits := BitVec.ofNat 5 (Nat.clog 2 p)
          podBits := BitVec.ofNat 5 (Nat.clog 2 o)
          coreBits := BitVec.ofNat 5 (Nat.clog 2 c)
          response := some (.ok .done) })
    ∧ (s.configured = false →
        (p = 0 ∨ o = 0 ∨ c = 0 ∨ 31 < Nat.clog 2 p + Nat.clog 2 o + Nat.clog 2 c) →
        exec (.amCfg p o c) s = .next (s.haltsWith .configurationError 1))
    ∧ (s.configured = true → exec (.amCfg p o c) s = .next (s.haltsWith .alreadyConfigured 8))

/-- `AM.FIELD` answers the layout table entry by entry, an empty field as absent, and refuses id 15 and a codec
without a map (R155). -/
def Obligations.FieldAnswersTheLayoutTable : Prop :=
  (∀ s : State, s.Ready →
    let p := s.pxnBits.toNat
    let o := s.podBits.toNat
    let c := s.coreBits.toNat
    (∀ k hi lo : Nat,
      ([(63, 63), (62, 62), (61, 61), (29, 29), (60, 61 - p), (60 - p, 61 - p - o), (60 - p - o, 61 - p - o - c),
        (60 - p, 0), (60 - p - o, 0), (28, 0), (30, 30), (29, 29), (28, 0), (28, 0), (29, 0)]
          : List (Nat × Nat))[k]? = some (hi, lo) →
      exec (.amField (BitVec.ofNat 4 k)) s = .next
        (s.gives (if hi < lo then .fieldAbsent else .fieldAt (BitVec.ofNat 6 hi) (BitVec.ofNat 6 lo))))
    ∧ exec (.amField 15) s = .next (s.haltsWith .unknownField 6))
  ∧ ∀ (s : State) (n : BitVec 4), s.Unconfigured → exec (.amField n) s = .next (s.haltsWith .notConfigured 7)

/-- `AM.STATUS` is answered in every state, with the registers, those of the map as 0 until it exists (R156). -/
def Obligations.StatusReportsTheRegisters : Prop :=
  ∀ s : State,
    (s.configured = true →
      exec .amStatus s = .next (s.gives (.status
        ⟨true, s.fault, s.cause, s.cfgP, s.cfgO, s.cfgC, s.pxnBits, s.podBits, s.coreBits⟩)))
    ∧ (s.configured = false →
      exec .amStatus s = .next (s.gives (.status ⟨false, s.fault, s.cause, 0, 0, 0, 0, 0, 0⟩)))

/-! ### Encode -/

/-- `AM.ENC` of an absolute `DRAM` record: the closed form where it fits, whatever the signals of `pod` and `core`;
where it does not, `FieldOverflow` or the form with each value reduced to its field (R136). -/
def Obligations.EncAbsoluteDram : Prop :=
  ∀ (s : State) (x y z : CoordId) (f : Word) (vy vz : Bool), s.Ready →
    let p := s.pxnBits.toNat
    let fits := x.toNat < 2 ^ p ∧ f.toNat < 2 ^ (61 - p)
    (fits → exec (.amEnc ⟨3, true, f, true, vy, vz, x, y, z⟩) s = .next (s.gives (.word
      (BitVec.ofNat 64 (0xC000000000000000 + x.toNat * 2 ^ (61 - p) + f.toNat)))))
    ∧ (¬ fits → exec (.amEnc ⟨3, true, f, true, vy, vz, x, y, z⟩) s = .next (s.overflows (.word
      (BitVec.ofNat 64 (0xC000000000000000 + x.toNat % 2 ^ p * 2 ^ (61 - p) + f.toNat % 2 ^ (61 - p))))))

/-- `AM.ENC` of an absolute `L2SP` record (R137). -/
def Obligations.EncAbsoluteL2sp : Prop :=
  ∀ (s : State) (x y z : CoordId) (f : Word) (vz : Bool), s.Ready →
    let p := s.pxnBits.toNat
    let o := s.podBits.toNat
    let fits := x.toNat < 2 ^ p ∧ y.toNat < 2 ^ o ∧ f.toNat < 2 ^ (61 - p - o)
    (fits → exec (.amEnc ⟨2, true, f, true, true, vz, x, y, z⟩) s = .next (s.gives (.word
      (BitVec.ofNat 64 (0xA000000000000000 + x.toNat * 2 ^ (61 - p) + y.toNat * 2 ^ (61 - p - o) + f.toNat)))))
    ∧ (¬ fits → exec (.amEnc ⟨2, true, f, true, true, vz, x, y, z⟩) s = .next (s.overflows (.word
      (BitVec.ofNat 64 (0xA000000000000000 + x.toNat % 2 ^ p * 2 ^ (61 - p) + y.toNat % 2 ^ o * 2 ^ (61 - p - o)
        + f.toNat % 2 ^ (61 - p - o))))))

/-- `AM.ENC` of an absolute `L1SP` record, and of a `CTRL` record: the same word plus 2^29 (R138, R139). -/
def Obligations.EncAbsoluteL1spAndCtrl : Prop :=
  ∀ (s : State) (x y z : CoordId) (f : Word), s.Ready →
    let p := s.pxnBits.toNat
    let o := s.podBits.toNat
    let c := s.coreBits.toNat
    let fits := x.toNat < 2 ^ p ∧ y.toNat < 2 ^ o ∧ z.toNat < 2 ^ c ∧ f.toNat < 2 ^ 29
    let exact := 0x8000000000000000 + x.toNat * 2 ^ (61 - p) + y.toNat * 2 ^ (61 - p - o)
      + z.toNat * 2 ^ (61 - p - o - c) + f.toNat
    let masked := 0x8000000000000000 + x.toNat % 2 ^ p * 2 ^ (61 - p) + y.toNat % 2 ^ o * 2 ^ (61 - p - o)
      + z.toNat % 2 ^ c * 2 ^ (61 - p - o - c) + f.toNat % 2 ^ 29
    (fits →
      exec (.amEnc ⟨1, true, f, true, true, true, x, y, z⟩) s = .next (s.gives (.word (BitVec.ofNat 64 exact)))
      ∧ exec (.amEnc ⟨4, true, f, true, true, true, x, y, z⟩) s
        = .next (s.gives (.word (BitVec.ofNat 64 (exact + 2 ^ 29)))))
    ∧ (¬ fits →
      exec (.amEnc ⟨1, true, f, true, true, true, x, y, z⟩) s
        = .next (s.overflows (.word (BitVec.ofNat 64 masked)))
      ∧ exec (.amEnc ⟨4, true, f, true, true, true, x, y, z⟩) s
        = .next (s.overflows (.word (BitVec.ofNat 64 (masked + 2 ^ 29)))))

/-- `AM.ENC` of the relative records, whatever the signals of the coordinates (R140, R141, R142). -/
def Obligations.EncRelative : Prop :=
  ∀ (s : State) (x y z : CoordId) (f : Word) (vx vy vz : Bool), s.Ready →
    (f.toNat < 2 ^ 29 →
      exec (.amEnc ⟨1, false, f, vx, vy, vz, x, y, z⟩) s = .next (s.gives (.word f))
      ∧ exec (.amEnc ⟨2, false, f, vx, vy, vz, x, y, z⟩) s
        = .next (s.gives (.word (BitVec.ofNat 64 (0x20000000 + f.toNat)))))
    ∧ (2 ^ 29 ≤ f.toNat →
      exec (.amEnc ⟨1, false, f, vx, vy, vz, x, y, z⟩) s
        = .next (s.overflows (.word (BitVec.ofNat 64 (f.toNat % 2 ^ 29))))
      ∧ exec (.amEnc ⟨2, false, f, vx, vy, vz, x, y, z⟩) s
        = .next (s.overflows (.word (BitVec.ofNat 64 (0x20000000 + f.toNat % 2 ^ 29)))))
    ∧ (f.toNat < 2 ^ 30 →
      exec (.amEnc ⟨3, false, f, vx, vy, vz, x, y, z⟩) s
        = .next (s.gives (.word (BitVec.ofNat 64 (0x40000000 + f.toNat)))))
    ∧ (2 ^ 30 ≤ f.toNat →
      exec (.amEnc ⟨3, false, f, vx, vy, vz, x, y, z⟩) s
        = .next (s.overflows (.word (BitVec.ofNat 64 (0x40000000 + f.toNat % 2 ^ 30)))))

/-- Every cause of `InvalidAddressKind`, and no other: `AM.ENC` of a record ends with it exactly when the type is
unset, or the record is relative `CTRL`, or it is absolute and lacks a coordinate its type carries; `AM.DEC` and the
`RB.*` specialisations never do (R192). -/
def Obligations.InvalidAddressKindCauses : Prop :=
  ∀ (s : State) (b : InfoBundle) (i : AddressInfo), s.Ready → infoOf b = some i →
    ((i.tier = none ∨ (i.mode = .relative ∧ i.tier = some .ctrl)
        ∨ (i.mode = .absolute ∧ (i.pxn = none
            ∨ (i.tier ≠ some .dram ∧ i.pod = none)
            ∨ ((i.tier = some .l1sp ∨ i.tier = some .ctrl) ∧ i.core = none)))) →
      exec (.amEnc b) s = .next (s.haltsWith .invalidAddressKind 2))
    ∧ (∀ t, exec (.amEnc b) s = .next t → t.response = some (.error .invalidAddressKind) →
        (i.tier = none ∨ (i.mode = .relative ∧ i.tier = some .ctrl)
        ∨ (i.mode = .absolute ∧ (i.pxn = none
            ∨ (i.tier ≠ some .dram ∧ i.pod = none)
            ∨ ((i.tier = some .l1sp ∨ i.tier = some .ctrl) ∧ i.core = none)))))
    ∧ (∀ raw my t, exec (.amDec raw my) s = .next t → t.response ≠ some (.error .invalidAddressKind))
    ∧ (∀ m x y z t, exec (.rbL1sp m x y z) s = .next t → t.response ≠ some (.error .invalidAddressKind))
    ∧ (∀ m n k x y c t, exec (.rbL2sp m n k x y c) s = .next t → t.response ≠ some (.error .invalidAddressKind))
    ∧ ∀ m n k x c t, exec (.rbDram m n k x c) s = .next t → t.response ≠ some (.error .invalidAddressKind)

/-- A reserved type signal is `BadOperand`, whatever else the bundle holds. -/
def Obligations.ReservedTypeSignalIsBadOperand : Prop :=
  ∀ (s : State) (b : InfoBundle), s.Ready → 5 ≤ b.typeSig.toNat →
    exec (.amEnc b) s = .next (s.haltsWith .badOperand 4)

/-- Under either policy and every legal layout, an encoded word classifies as its record's format and has every
reserved bit 0: the selector bits alone keep the formats apart, even where a value was masked. -/
def Obligations.EncodedWordHasItsFormat : Prop :=
  ∀ (policy : OverflowPolicy) (L : Layout) (i : AddressInfo) (w : Word),
    L.pxnBits + L.podBits + L.coreBits ≤ 31 → encodeInfo policy L i = .ok w →
    infoFormat i = some (classify w)
      ∧ ∀ j, j < 64 → reservedAt L.pxnBits L.podBits L.coreBits (classify w) j = true → w.getLsbD j = false

/-! ### Decode -/

/-- `AM.DEC` of an absolute `DRAM` word: `pxn` and `offset` from the word, the other coordinates unset, bit 61 seen by
`canonical` only, the requester's identity not read (R145). -/
def Obligations.DecAbsoluteDram : Prop :=
  ∀ (s : State) (raw : Word) (my : Requester), s.Ready → raw.getLsbD 63 = true → raw.getLsbD 62 = true →
    let p := s.pxnBits.toNat
    exec (.amDec raw my) s = .next (s.gives (.decoded
      ⟨some .dram, .absolute, BitVec.ofNat 64 (raw.toNat % 2 ^ (61 - p)),
        some (BitVec.ofNat 32 (raw.toNat / 2 ^ (61 - p) % 2 ^ p)), none, none⟩
      (!raw.getLsbD 61)))

/-- `AM.DEC` of an absolute `L2SP` word (R146). -/
def Obligations.DecAbsoluteL2sp : Prop :=
  ∀ (s : State) (raw : Word) (my : Requester), s.Ready →
    raw.getLsbD 63 = true → raw.getLsbD 62 = false → raw.getLsbD 61 = true →
    let p := s.pxnBits.toNat
    let o := s.podBits.toNat
    exec (.amDec raw my) s = .next (s.gives (.decoded
      ⟨some .l2sp, .absolute, BitVec.ofNat 64 (raw.toNat % 2 ^ (61 - p - o)),
        some (BitVec.ofNat 32 (raw.toNat / 2 ^ (61 - p) % 2 ^ p)),
        some (BitVec.ofNat 32 (raw.toNat / 2 ^ (61 - p - o) % 2 ^ o)), none⟩
      true))

/-- `AM.DEC` of an absolute `L1SP` word and of an absolute `CTRL` word, which differ in bit 29 (R147, R148). -/
def Obligations.DecAbsoluteL1spAndCtrl : Prop :=
  ∀ (s : State) (raw : Word) (my : Requester), s.Ready →
    raw.getLsbD 63 = true → raw.getLsbD 62 = false → raw.getLsbD 61 = false →
    let p := s.pxnBits.toNat
    let o := s.podBits.toNat
    let c := s.coreBits.toNat
    exec (.amDec raw my) s = .next (s.gives (.decoded
      ⟨some (if raw.getLsbD 29 then .ctrl else .l1sp), .absolute, BitVec.ofNat 64 (raw.toNat % 2 ^ 29),
        some (BitVec.ofNat 32 (raw.toNat / 2 ^ (61 - p) % 2 ^ p)),
        some (BitVec.ofNat 32 (raw.toNat / 2 ^ (61 - p - o) % 2 ^ o)),
        some (BitVec.ofNat 32 (raw.toNat / 2 ^ (61 - p - o - c) % 2 ^ c))⟩
      (decide (raw.toNat / 2 ^ 30 % 2 ^ (31 - p - o - c) = 0))))

/-- `AM.DEC` of the relative words: the tier by bits 30 and 29 in that order, the requester's identity attached, bits
62 to 31 seen by `canonical` only (R149, R150, R151). -/
def Obligations.DecRelative : Prop :=
  ∀ (s : State) (raw : Word) (my : Requester), s.Ready → raw.getLsbD 63 = false →
    (raw.getLsbD 30 = true →
      exec (.amDec raw my) s = .next (s.gives (.decoded
        ⟨some .dram, .relative, BitVec.ofNat 64 (raw.toNat % 2 ^ 30), some my.pxn, some my.pod, some my.core⟩
        (decide (raw.toNat / 2 ^ 31 = 0)))))
    ∧ (raw.getLsbD 30 = false →
      exec (.amDec raw my) s = .next (s.gives (.decoded
        ⟨some (if raw.getLsbD 29 then .l2sp else .l1sp), .relative, BitVec.ofNat 64 (raw.toNat % 2 ^ 29),
          some my.pxn, some my.pod, some my.core⟩
        (decide (raw.toNat / 2 ^ 31 = 0)))))

/-- The addresses of one memory instance are one contiguous window: a word decodes, canonically, to the `DRAM` of pxn
`x`, the `L2SP` of pod `(x, y)`, the `L1SP` or the `CTRL` window of core `(x, y, z)`, exactly when it lies between
the first address of the instance and its size. -/
def Obligations.InstanceAddressesAreOneWindow : Prop :=
  ∀ (s : State) (x y z : CoordId) (raw : Word) (my : Requester), s.Ready →
    let p := s.pxnBits.toNat
    let o := s.podBits.toNat
    let c := s.coreBits.toNat
    x.toNat < 2 ^ p → y.toNat < 2 ^ o → z.toNat < 2 ^ c →
    let decodesTo := fun (t : Tier) (py pz : Option CoordId) =>
      ∃ f, exec (.amDec raw my) s = .next (s.gives (.decoded ⟨some t, .absolute, f, some x, py, pz⟩ true))
    let within := fun (first size : Nat) => first ≤ raw.toNat ∧ raw.toNat < first + size
    let dram := 0xC000000000000000 + x.toNat * 2 ^ (61 - p)
    let l2sp := 0xA000000000000000 + x.toNat * 2 ^ (61 - p) + y.toNat * 2 ^ (61 - p - o)
    let l1sp := 0x8000000000000000 + x.toNat * 2 ^ (61 - p) + y.toNat * 2 ^ (61 - p - o)
      + z.toNat * 2 ^ (61 - p - o - c)
    (decodesTo .dram none none ↔ within dram (2 ^ (61 - p)))
    ∧ (decodesTo .l2sp (some y) none ↔ within l2sp (2 ^ (61 - p - o)))
    ∧ (decodesTo .l1sp (some y) (some z) ↔ within l1sp (2 ^ 29))
    ∧ (decodesTo .ctrl (some y) (some z) ↔ within (l1sp + 2 ^ 29) (2 ^ 29))

/-! ### Encode and decode together -/

/-- Round trip: a valid record that fits encodes, and its word decodes, for every requester, canonically to a record
equal on every populated field. -/
def Obligations.DecodeOfEncodeIsTheRecord : Prop :=
  ∀ (s : State) (b : InfoBundle) (i : AddressInfo) (my : Requester), s.Ready → infoOf b = some i →
    validInfo i = true → fitsInfo s.layout i = true →
    ∃ (w : Word) (j : AddressInfo),
      exec (.amEnc b) s = .next (s.gives (.word w))
      ∧ exec (.amDec w my) s = .next (s.gives (.decoded j true))
      ∧ sameAddress j i = true

/-- The converse: every word decodes to a record that is valid and fits, and encoding it gives the word with its
reserved bits cleared, which is the word itself exactly when `canonical = 1`. -/
def Obligations.EncodeOfDecodeClearsReservedBits : Prop :=
  ∀ (s : State) (raw : Word) (my : Requester), s.Ready →
    ∃ (w : Word) (j : AddressInfo) (canon : Bool),
      exec (.amDec raw my) s = .next (s.gives (.decoded j canon))
      ∧ validInfo j = true ∧ fitsInfo s.layout j = true
      ∧ exec (.amEnc (bundleOf j)) s = .next (s.gives (.word w))
      ∧ (canon = true ↔ w = raw)
      ∧ ∀ k, k < 64 → w.getLsbD k = (raw.getLsbD k
          && !reservedAt s.pxnBits.toNat s.podBits.toNat s.coreBits.toNat (classify raw) k)

/-- Two valid records that fit and encode to one word are the same address. -/
def Obligations.EncodeIsInjectiveOnFittingRecords : Prop :=
  ∀ (policy : OverflowPolicy) (L : Layout) (a b : AddressInfo) (w : Word),
    L.pxnBits + L.podBits + L.coreBits ≤ 31 → fitsInfo L a = true → fitsInfo L b = true →
    encodeInfo policy L a = .ok w → encodeInfo policy L b = .ok w → sameAddress a b = true

/-! ### The address words of the opcode table (the model's choice, log entry 1) -/

/-- The model's choice (log entry 1): an absolute address word presented to the codec is decoded by its format's rule,
bit for bit. -/
def Obligations.AbsoluteAddressWordsDecode : Prop :=
  ∀ (s : State) (my : Requester), s.Ready →
    let p := s.pxnBits.toNat
    let o := s.podBits.toNat
    let c := s.coreBits.toNat
    (∀ low : BitVec 62, exec (.absDram low my) s = .next (s.gives (.decoded
      ⟨some .dram, .absolute, BitVec.ofNat 64 (low.toNat % 2 ^ (61 - p)),
        some (BitVec.ofNat 32 (low.toNat / 2 ^ (61 - p) % 2 ^ p)), none, none⟩
      (decide (low.toNat < 2 ^ 61)))))
    ∧ (∀ low : BitVec 61, exec (.absL2sp low my) s = .next (s.gives (.decoded
      ⟨some .l2sp, .absolute, BitVec.ofNat 64 (low.toNat % 2 ^ (61 - p - o)),
        some (BitVec.ofNat 32 (low.toNat / 2 ^ (61 - p))),
        some (BitVec.ofNat 32 (low.toNat / 2 ^ (61 - p - o) % 2 ^ o)), none⟩
      true)))
    ∧ ∀ (ids : BitVec 31) (f : BitVec 29),
      let read := fun t : Tier => Result.decoded
        ⟨some t, .absolute, BitVec.ofNat 64 f.toNat,
          some (BitVec.ofNat 32 (ids.toNat / 2 ^ (31 - p))),
          some (BitVec.ofNat 32 (ids.toNat / 2 ^ (31 - p - o) % 2 ^ o)),
          some (BitVec.ofNat 32 (ids.toNat / 2 ^ (31 - p - o - c) % 2 ^ c))⟩
        (decide (ids.toNat % 2 ^ (31 - p - o - c) = 0))
      exec (.absL1sp ids f my) s = .next (s.gives (read .l1sp))
      ∧ exec (.absCtrl ids f my) s = .next (s.gives (read .ctrl))

/-- The model's choice (log entry 1): a relative address word presented to the codec is decoded by its format's rule,
with the requester's identity attached. -/
def Obligations.RelativeAddressWordsDecode : Prop :=
  ∀ (s : State) (my : Requester) (reserved : BitVec 32), s.Ready →
    (∀ f : BitVec 29,
      let read := fun t : Tier => Result.decoded
        ⟨some t, .relative, BitVec.ofNat 64 f.toNat, some my.pxn, some my.pod, some my.core⟩
        (decide (reserved.toNat = 0))
      exec (.relL1sp reserved f my) s = .next (s.gives (read .l1sp))
      ∧ exec (.relL2sp reserved f my) s = .next (s.gives (read .l2sp)))
    ∧ ∀ f : BitVec 30, exec (.relDram reserved f my) s = .next (s.gives (.decoded
        ⟨some .dram, .relative, BitVec.ofNat 64 f.toNat, some my.pxn, some my.pod, some my.core⟩
        (decide (reserved.toNat = 0))))

/-- The model's choice (log entry 1): presenting an address word is the `AM.DEC` request for that word, in every state. -/
def Obligations.AddressWordIsADecodeRequest : Prop :=
  ∀ (s : State) (raw : Word) (my : Requester),
    exec (decodeAddress (my.core ++ my.pod ++ my.pxn ++ raw)) s = exec (.amDec raw my) s

/-! ### The range partitioner -/

/-- `RB.BANKS` (R161). -/
def Obligations.BanksAnswersStepOverSize : Prop :=
  ∀ (n t : Word) (s : State), s.Running →
    (n.toNat = 0 → exec (.rbBanks n t) s = .next (s.gives (.banks 1)))
    ∧ (0 < n.toNat → n.toNat ∣ t.toNat → 0 < t.toNat →
        exec (.rbBanks n t) s = .next (s.gives (.banks (BitVec.ofNat 64 (t.toNat / n.toNat)))))
    ∧ (0 < n.toNat → (¬ n.toNat ∣ t.toNat ∨ t.toNat = 0) →
        exec (.rbBanks n t) s = .next (s.haltsWith .configurationError 1))

/-- `RB.TOTAL`: the exact product, below 2^128 (R162). -/
def Obligations.TotalIsTheExactProduct : Prop :=
  ∀ (m n t : Word) (s : State), s.Running →
    (StepLegal n.toNat t.toNat →
      exec (.rbTotal m n t) s = .next (s.gives (.total (m.toNat * bankNumber n.toNat t.toNat)))
      ∧ m.toNat * bankNumber n.toNat t.toNat < 2 ^ 128)
    ∧ (¬ StepLegal n.toNat t.toNat → exec (.rbTotal m n t) s = .next (s.haltsWith .configurationError 1))

/-- `RB.RANGE`: the envelope of an existing bank, of one length for all banks of the region, and `ConfigurationError` for every parameter the checks turn away
(R163, R164). -/
def Obligations.RangeAnswersTheEnvelope : Prop :=
  ∀ (m n t b : Word) (s : State), s.Running →
    (RangeAccepts m.toNat n.toNat t.toNat b.toNat →
      ∃ first last : Word, exec (.rbRange m n t b) s = .next (s.gives (.range first last))
        ∧ first.toNat = b.toNat * n.toNat
        ∧ last.toNat = lastOffset m.toNat n.toNat t.toNat b.toNat
        ∧ first.toNat ≤ last.toNat
        ∧ last.toNat - first.toNat + 1
          = m.toNat * bankNumber n.toNat t.toNat - (bankNumber n.toNat t.toNat - 1) * n.toNat)
    ∧ (¬ RangeAccepts m.toNat n.toNat t.toNat b.toNat →
        exec (.rbRange m n t b) s = .next (s.haltsWith .configurationError 1))

/-- `RB.L1SP`: the window of one core's scratchpad, never interleaved (R166). -/
def Obligations.L1spWindowOfOneCore : Prop :=
  ∀ (m : Word) (x y z : CoordId) (s : State),
    (s.Unconfigured → exec (.rbL1sp m x y z) s = .next (s.haltsWith .notConfigured 7)) ∧
    (s.Ready →
    let p := s.pxnBits.toNat
    let o := s.podBits.toNat
    let c := s.coreBits.toNat
    let fits := x.toNat < 2 ^ p ∧ y.toNat < 2 ^ o ∧ z.toNat < 2 ^ c ∧ m.toNat ≤ 2 ^ 29
    let base := 0x8000000000000000 + x.toNat * 2 ^ (61 - p) + y.toNat * 2 ^ (61 - p - o)
      + z.toNat * 2 ^ (61 - p - o - c)
    let masked := 0x8000000000000000 + x.toNat % 2 ^ p * 2 ^ (61 - p) + y.toNat % 2 ^ o * 2 ^ (61 - p - o)
      + z.toNat % 2 ^ c * 2 ^ (61 - p - o - c)
    (0 < m.toNat → fits → exec (.rbL1sp m x y z) s = .next (s.gives (.descriptor
      (BitVec.ofNat 64 base) (BitVec.ofNat 64 (base + (m.toNat - 1))) 0 0)))
    ∧ (0 < m.toNat → ¬ fits → exec (.rbL1sp m x y z) s = .next (s.overflows (.descriptor
      (BitVec.ofNat 64 masked) (BitVec.ofNat 64 (masked + (m.toNat - 1) % 2 ^ 29)) 0 0)))
    ∧ (m.toNat = 0 → exec (.rbL1sp m x y z) s = .next (s.haltsWith .configurationError 1)))

/-- `RB.L2SP`: a bank's envelope in its pod's region, the interleave operands passed through (R167). -/
def Obligations.L2spBankEnvelope : Prop :=
  ∀ (m n t b : Word) (x y : CoordId) (s : State),
    (s.Unconfigured → exec (.rbL2sp m n t x y b) s = .next (s.haltsWith .notConfigured 7)) ∧
    (s.Ready →
    let p := s.pxnBits.toNat
    let o := s.podBits.toNat
    let accepted := RangeAccepts m.toNat n.toNat t.toNat b.toNat
    let first := b.toNat * n.toNat
    let last := lastOffset m.toNat n.toNat t.toNat b.toNat
    let size := 2 ^ (61 - p - o)
    let fits := x.toNat < 2 ^ p ∧ y.toNat < 2 ^ o ∧ last < size
    let base := 0xA000000000000000 + x.toNat * 2 ^ (61 - p) + y.toNat * size
    let masked := 0xA000000000000000 + x.toNat % 2 ^ p * 2 ^ (61 - p) + y.toNat % 2 ^ o * size
    (accepted → fits → exec (.rbL2sp m n t x y b) s = .next (s.gives (.descriptor
      (BitVec.ofNat 64 (base + first)) (BitVec.ofNat 64 (base + last)) n t)))
    ∧ (accepted → ¬ fits → exec (.rbL2sp m n t x y b) s = .next (s.overflows (.descriptor
      (BitVec.ofNat 64 (masked + first % size)) (BitVec.ofNat 64 (masked + last % size)) n t)))
    ∧ (¬ accepted → exec (.rbL2sp m n t x y b) s = .next (s.haltsWith .configurationError 1)))

/-- `RB.DRAM`: a bank's envelope in its pxn's region, the interleave operands passed through (R168). -/
def Obligations.DramBankEnvelope : Prop :=
  ∀ (m n t b : Word) (x : CoordId) (s : State),
    (s.Unconfigured → exec (.rbDram m n t x b) s = .next (s.haltsWith .notConfigured 7)) ∧
    (s.Ready →
    let p := s.pxnBits.toNat
    let accepted := RangeAccepts m.toNat n.toNat t.toNat b.toNat
    let first := b.toNat * n.toNat
    let last := lastOffset m.toNat n.toNat t.toNat b.toNat
    let size := 2 ^ (61 - p)
    let fits := x.toNat < 2 ^ p ∧ last < size
    let base := 0xC000000000000000 + x.toNat * size
    let masked := 0xC000000000000000 + x.toNat % 2 ^ p * size
    (accepted → fits → exec (.rbDram m n t x b) s = .next (s.gives (.descriptor
      (BitVec.ofNat 64 (base + first)) (BitVec.ofNat 64 (base + last)) n t)))
    ∧ (accepted → ¬ fits → exec (.rbDram m n t x b) s = .next (s.overflows (.descriptor
      (BitVec.ofNat 64 (masked + first % size)) (BitVec.ofNat 64 (masked + last % size)) n t)))
    ∧ (¬ accepted → exec (.rbDram m n t x b) s = .next (s.haltsWith .configurationError 1)))

/-- Coverage: the envelopes that `RB.RANGE` answers for the banks of a region together cover exactly its offsets. -/
def Obligations.EnvelopesCoverTheRegion : Prop :=
  ∀ (m n t : Word) (s : State), s.Running → StepLegal n.toNat t.toNat → 0 < m.toNat → n.toNat ≤ m.toNat →
    m.toNat * bankNumber n.toNat t.toNat ≤ 2 ^ 64 →
    ∀ a : Nat, a < m.toNat * bankNumber n.toNat t.toNat ↔
      ∃ b first last : Word, exec (.rbRange m n t b) s = .next (s.gives (.range first last))
        ∧ first.toNat ≤ a ∧ a ≤ last.toNat

/-- Ownership: where the bank size is a whole number of chunks, a descriptor that `RB.RANGE` answers for a bank `b`
owns an offset of the region exactly when `b` is the offset's chunk number modulo the number of banks. Nothing is said
of a bank whose range is refused: `EveryOffsetHasOneAnsweredOwner` says where every bank is answered. -/
def Obligations.OwnerIsTheChunkNumberModuloBanks : Prop :=
  ∀ (m n t b first last : Word) (s : State), s.Running → 0 < n.toNat → n.toNat ∣ m.toNat →
    exec (.rbRange m n t b) s = .next (s.gives (.range first last)) →
    ∀ a : Nat, a < m.toNat * bankNumber n.toNat t.toNat →
      (owns first.toNat last.toNat n.toNat t.toNat a = true
        ↔ b.toNat = a / n.toNat % bankNumber n.toNat t.toNat)

/-- Every bank owns exactly `per_bank_memsize` offsets: with the bank size a whole number of chunks, or with no
interleaving at all. -/
def Obligations.EveryBankOwnsItsMemsize : Prop :=
  ∀ (m n t b first last : Word) (s : State), s.Running → n.toNat ∣ m.toNat ∨ n.toNat = 0 →
    exec (.rbRange m n t b) s = .next (s.gives (.range first last)) →
    ((List.range (m.toNat * bankNumber n.toNat t.toNat)).filter
      (fun a => owns first.toNat last.toNat n.toNat t.toNat a)).length = m.toNat

/-- The scratchpad windows of two different cores are disjoint, have the size asked for, and report no interleaving. -/
def Obligations.L1spWindowsOfTwoCoresAreDisjoint : Prop :=
  ∀ (m : Word) (x y z x' y' z' : CoordId) (s : State), s.Ready → 0 < m.toNat → m.toNat ≤ 2 ^ 29 →
    x.toNat < 2 ^ s.pxnBits.toNat → y.toNat < 2 ^ s.podBits.toNat → z.toNat < 2 ^ s.coreBits.toNat →
    x'.toNat < 2 ^ s.pxnBits.toNat → y'.toNat < 2 ^ s.podBits.toNat → z'.toNat < 2 ^ s.coreBits.toNat →
    ¬ (x = x' ∧ y = y' ∧ z = z') →
    ∃ first last first' last' : Word,
      exec (.rbL1sp m x y z) s = .next (s.gives (.descriptor first last 0 0))
      ∧ exec (.rbL1sp m x' y' z') s = .next (s.gives (.descriptor first' last' 0 0))
      ∧ last.toNat - first.toNat + 1 = m.toNat ∧ last'.toNat - first'.toNat + 1 = m.toNat
      ∧ (last.toNat < first'.toNat ∨ last'.toNat < first.toNat)

/-! ### The record functions -/

/-- Each factory function is the chain of setters on any fresh record, whatever its drawn mode and offset, and its
record is `strict` (R119). -/
def Obligations.FactoriesAreSetterChains : Prop :=
  ∀ (n : Nat) (x y z : CoordId) (f : Word),
    (setOffset f (setCore z (setPod y (setPxn x (setL1sp (setAbsolute (freshInfo n)))))) = absL1spInfo x y z f
      ∧ strictInfo (absL1spInfo x y z f) = true)
    ∧ (setOffset f (setCore z (setPod y (setPxn x (setCoreCtrl (setAbsolute (freshInfo n)))))) = absCtrlInfo x y z f
      ∧ strictInfo (absCtrlInfo x y z f) = true)
    ∧ (setOffset f (setPod y (setPxn x (setL2sp (setAbsolute (freshInfo n))))) = absL2spInfo x y f
      ∧ strictInfo (absL2spInfo x y f) = true)
    ∧ (setOffset f (setPxn x (setDram (setAbsolute (freshInfo n)))) = absDramInfo x f
      ∧ strictInfo (absDramInfo x f) = true)
    ∧ (setOffset f (setL1sp (setRelative (freshInfo n))) = relL1spInfo f ∧ strictInfo (relL1spInfo f) = true)
    ∧ (setOffset f (setL2sp (setRelative (freshInfo n))) = relL2spInfo f ∧ strictInfo (relL2spInfo f) = true)
    ∧ (setOffset f (setDram (setRelative (freshInfo n))) = relDramInfo f ∧ strictInfo (relDramInfo f) = true)

/-- Two records whose carried coordinates are populated render to the same text exactly when they are the same
address. -/
def Obligations.RenderingTellsAddressesApart : Prop :=
  ∀ a b : AddressInfo, (∀ k ∈ carried a, (coordOf a k).isSome = true) → (∀ k ∈ carried b, (coordOf b k).isSome = true) →
    (renderInfo a = renderInfo b ↔ sameAddress a b = true)

/-! ### The partition of a region -/

/-- Partition: in a region within 2^64 whose bank size is a whole number of chunks, or without interleaving, every
offset is owned by a descriptor that `RB.RANGE` answers for one bank, and by those of no other bank. -/
def Obligations.EveryOffsetHasOneAnsweredOwner : Prop :=
  ∀ (m n t : Word) (s : State), s.Running → StepLegal n.toNat t.toNat → 0 < m.toNat →
    n.toNat = 0 ∨ n.toNat ∣ m.toNat → m.toNat * bankNumber n.toNat t.toNat ≤ 2 ^ 64 →
    ∀ a : Nat, a < m.toNat * bankNumber n.toNat t.toNat →
      ∃ b first last : Word, exec (.rbRange m n t b) s = .next (s.gives (.range first last))
        ∧ owns first.toNat last.toNat n.toNat t.toNat a = true
        ∧ ∀ b' first' last' : Word, exec (.rbRange m n t b') s = .next (s.gives (.range first' last')) →
            owns first'.toNat last'.toNat n.toNat t.toNat a = true → b' = b
end

