-- ==== Sys2Proof/Laws/State.lean ====
section
/-! SUPPORT. Laws/State.lean: for every update of the state, what each field is after it. -/

namespace Sys2Proof.Machine

/-! ### `State.respond`: a request that ends `OK` -/

@[simp] theorem State.respond_configured (s : State) (r : Result) : (s.respond r).configured = s.configured := rfl
@[simp] theorem State.respond_fault (s : State) (r : Result) : (s.respond r).fault = s.fault := rfl
@[simp] theorem State.respond_cause (s : State) (r : Result) : (s.respond r).cause = s.cause := rfl
@[simp] theorem State.respond_cfgP (s : State) (r : Result) : (s.respond r).cfgP = s.cfgP := rfl
@[simp] theorem State.respond_cfgO (s : State) (r : Result) : (s.respond r).cfgO = s.cfgO := rfl
@[simp] theorem State.respond_cfgC (s : State) (r : Result) : (s.respond r).cfgC = s.cfgC := rfl
@[simp] theorem State.respond_pxnBits (s : State) (r : Result) : (s.respond r).pxnBits = s.pxnBits := rfl
@[simp] theorem State.respond_podBits (s : State) (r : Result) : (s.respond r).podBits = s.podBits := rfl
@[simp] theorem State.respond_coreBits (s : State) (r : Result) : (s.respond r).coreBits = s.coreBits := rfl
@[simp] theorem State.respond_response (s : State) (r : Result) : (s.respond r).response = some (.ok r) := rfl
@[simp] theorem State.respond_pending (s : State) (r : Result) : (s.respond r).pending = s.pending := rfl

/-! ### `State.fail`: a request that ends with an error -/

@[simp] theorem State.fail_configured (s : State) (e : Error) : (s.fail e).configured = s.configured := rfl
@[simp] theorem State.fail_fault (s : State) (e : Error) : (s.fail e).fault = (s.fault || e.setsFault) := rfl
@[simp] theorem State.fail_cause (s : State) (e : Error) : (s.fail e).cause = if e.setsFault then e.code else s.cause := rfl
@[simp] theorem State.fail_cfgP (s : State) (e : Error) : (s.fail e).cfgP = s.cfgP := rfl
@[simp] theorem State.fail_cfgO (s : State) (e : Error) : (s.fail e).cfgO = s.cfgO := rfl
@[simp] theorem State.fail_cfgC (s : State) (e : Error) : (s.fail e).cfgC = s.cfgC := rfl
@[simp] theorem State.fail_pxnBits (s : State) (e : Error) : (s.fail e).pxnBits = s.pxnBits := rfl
@[simp] theorem State.fail_podBits (s : State) (e : Error) : (s.fail e).podBits = s.podBits := rfl
@[simp] theorem State.fail_coreBits (s : State) (e : Error) : (s.fail e).coreBits = s.coreBits := rfl
@[simp] theorem State.fail_response (s : State) (e : Error) : (s.fail e).response = some (.error e) := rfl
@[simp] theorem State.fail_pending (s : State) (e : Error) : (s.fail e).pending = s.pending := rfl

/-! ### `State.configure`: a successful `AM.CFG` -/

@[simp] theorem State.configure_configured (s : State) (p o c : Nat) : (s.configure p o c).configured = true := rfl
@[simp] theorem State.configure_fault (s : State) (p o c : Nat) : (s.configure p o c).fault = s.fault := rfl
@[simp] theorem State.configure_cause (s : State) (p o c : Nat) : (s.configure p o c).cause = s.cause := rfl
@[simp] theorem State.configure_cfgP (s : State) (p o c : Nat) : (s.configure p o c).cfgP = p := rfl
@[simp] theorem State.configure_cfgO (s : State) (p o c : Nat) : (s.configure p o c).cfgO = o := rfl
@[simp] theorem State.configure_cfgC (s : State) (p o c : Nat) : (s.configure p o c).cfgC = c := rfl
@[simp] theorem State.configure_pxnBits (s : State) (p o c : Nat) : (s.configure p o c).pxnBits = BitVec.ofNat 5 (bitlength (p - 1)) := rfl
@[simp] theorem State.configure_podBits (s : State) (p o c : Nat) : (s.configure p o c).podBits = BitVec.ofNat 5 (bitlength (o - 1)) := rfl
@[simp] theorem State.configure_coreBits (s : State) (p o c : Nat) : (s.configure p o c).coreBits = BitVec.ofNat 5 (bitlength (c - 1)) := rfl
@[simp] theorem State.configure_response (s : State) (p o c : Nat) : (s.configure p o c).response = s.response := rfl
@[simp] theorem State.configure_pending (s : State) (p o c : Nat) : (s.configure p o c).pending = s.pending := rfl

/-! ### `State.applyReset` -/

@[simp] theorem State.applyReset_configured (s : State) : (s.applyReset).configured = false := rfl
@[simp] theorem State.applyReset_fault (s : State) : (s.applyReset).fault = false := rfl
@[simp] theorem State.applyReset_cause (s : State) : (s.applyReset).cause = 0 := rfl
@[simp] theorem State.applyReset_cfgP (s : State) : (s.applyReset).cfgP = 0 := rfl
@[simp] theorem State.applyReset_cfgO (s : State) : (s.applyReset).cfgO = 0 := rfl
@[simp] theorem State.applyReset_cfgC (s : State) : (s.applyReset).cfgC = 0 := rfl
@[simp] theorem State.applyReset_pxnBits (s : State) : (s.applyReset).pxnBits = 0 := rfl
@[simp] theorem State.applyReset_podBits (s : State) : (s.applyReset).podBits = 0 := rfl
@[simp] theorem State.applyReset_coreBits (s : State) : (s.applyReset).coreBits = 0 := rfl
@[simp] theorem State.applyReset_response (s : State) : (s.applyReset).response = none := rfl
@[simp] theorem State.applyReset_pending (s : State) : (s.applyReset).pending = s.pending := rfl

/-! ### The statements' own updates -/

@[simp] theorem State.gives_configured (s : State) (r : Result) : (s.gives r).configured = s.configured := rfl
@[simp] theorem State.gives_fault (s : State) (r : Result) : (s.gives r).fault = s.fault := rfl
@[simp] theorem State.gives_cause (s : State) (r : Result) : (s.gives r).cause = s.cause := rfl
@[simp] theorem State.gives_cfgP (s : State) (r : Result) : (s.gives r).cfgP = s.cfgP := rfl
@[simp] theorem State.gives_cfgO (s : State) (r : Result) : (s.gives r).cfgO = s.cfgO := rfl
@[simp] theorem State.gives_cfgC (s : State) (r : Result) : (s.gives r).cfgC = s.cfgC := rfl
@[simp] theorem State.gives_pxnBits (s : State) (r : Result) : (s.gives r).pxnBits = s.pxnBits := rfl
@[simp] theorem State.gives_podBits (s : State) (r : Result) : (s.gives r).podBits = s.podBits := rfl
@[simp] theorem State.gives_coreBits (s : State) (r : Result) : (s.gives r).coreBits = s.coreBits := rfl
@[simp] theorem State.gives_response (s : State) (r : Result) : (s.gives r).response = some (.ok r) := rfl
@[simp] theorem State.gives_pending (s : State) (r : Result) : (s.gives r).pending = s.pending := rfl
@[simp] theorem State.haltsWith_configured (s : State) (e : Error) (k : BitVec 4) : (s.haltsWith e k).configured = s.configured := rfl
@[simp] theorem State.haltsWith_fault (s : State) (e : Error) (k : BitVec 4) : (s.haltsWith e k).fault = true := rfl
@[simp] theorem State.haltsWith_cause (s : State) (e : Error) (k : BitVec 4) : (s.haltsWith e k).cause = k := rfl
@[simp] theorem State.haltsWith_cfgP (s : State) (e : Error) (k : BitVec 4) : (s.haltsWith e k).cfgP = s.cfgP := rfl
@[simp] theorem State.haltsWith_cfgO (s : State) (e : Error) (k : BitVec 4) : (s.haltsWith e k).cfgO = s.cfgO := rfl
@[simp] theorem State.haltsWith_cfgC (s : State) (e : Error) (k : BitVec 4) : (s.haltsWith e k).cfgC = s.cfgC := rfl
@[simp] theorem State.haltsWith_pxnBits (s : State) (e : Error) (k : BitVec 4) : (s.haltsWith e k).pxnBits = s.pxnBits := rfl
@[simp] theorem State.haltsWith_podBits (s : State) (e : Error) (k : BitVec 4) : (s.haltsWith e k).podBits = s.podBits := rfl
@[simp] theorem State.haltsWith_coreBits (s : State) (e : Error) (k : BitVec 4) : (s.haltsWith e k).coreBits = s.coreBits := rfl
@[simp] theorem State.haltsWith_response (s : State) (e : Error) (k : BitVec 4) : (s.haltsWith e k).response = some (.error e) := rfl
@[simp] theorem State.haltsWith_pending (s : State) (e : Error) (k : BitVec 4) : (s.haltsWith e k).pending = s.pending := rfl

/-! ### The layout reads the width registers only -/

@[simp] theorem State.layout_respond (s : State) (r : Result) : (s.respond r).layout = s.layout := rfl
@[simp] theorem State.layout_fail (s : State) (e : Error) : (s.fail e).layout = s.layout := rfl
@[simp] theorem State.layout_gives (s : State) (r : Result) : (s.gives r).layout = s.layout := rfl
@[simp] theorem State.layout_pxnBits (s : State) : s.layout.pxnBits = s.pxnBits.toNat := rfl
@[simp] theorem State.layout_podBits (s : State) : s.layout.podBits = s.podBits.toNat := rfl
@[simp] theorem State.layout_coreBits (s : State) : s.layout.coreBits = s.coreBits.toNat := rfl

/-! ### The machine's endings in the statements' terms -/

theorem State.respond_eq_gives (s : State) (r : Result) : s.respond r = s.gives r := rfl

/-- For a status of codes 1 to 8, the ending is fault entry. -/
theorem State.fail_eq_haltsWith (s : State) (e : Error) (h : e.setsFault = true) : s.fail e = s.haltsWith e e.code := by
  simp [State.fail, State.haltsWith, h]

/-- `Faulted` changes no register of a halted codec. -/
theorem State.fail_faulted (s : State) : s.fail .faulted = { s with response := some (.error .faulted) } := by
  simp [State.fail, Error.setsFault]

theorem Error.setsFault_iff (e : Error) : e.setsFault = true ↔ e ≠ .faulted := by
  cases e <;> simp [Error.setsFault]

/-- The codes that set `cfg.FAULT` are 1 to 8. -/
theorem Error.code_range (e : Error) (h : e.setsFault = true) : 1 ≤ e.code.toNat ∧ e.code.toNat ≤ 8 := by
  cases e <;> simp_all [Error.setsFault, Error.code]

end Sys2Proof.Machine
end

