-- ==== Sys2Proof/Laws/Ops.lean ====
section
/-! SUPPORT. Laws/Ops.lean: everything the shared endings of a request can do, said once. -/

namespace Sys2Proof.Machine

theorem attempt_halted (s : State) (r : Except Error (State × Result)) (h : s.fault = true) :
    attempt s r = .next (s.fail .faulted) := by simp [attempt, h]

theorem attempt_ok (s t : State) (v : Result) (h : s.fault = false) :
    attempt s (.ok (t, v)) = .next (t.respond v) := by simp [attempt, h]

theorem attempt_error (s : State) (e : Error) (h : s.fault = false) :
    attempt s (.error e) = .next (s.fail e) := by simp [attempt, h]

/-- All that `attempt` can answer. -/
theorem attempt_next_cases {s t : State} {r : Except Error (State × Result)} (h : attempt s r = .next t) :
    (s.fault = true ∧ t = s.fail .faulted)
      ∨ (s.fault = false ∧ ∃ u v, r = .ok (u, v) ∧ t = u.respond v)
      ∨ (s.fault = false ∧ ∃ e, r = .error e ∧ t = s.fail e) := by
  unfold attempt at h
  split at h
  · cases h; simp_all
  · split at h <;> cases h <;> simp_all

theorem attempt_answers_next (s : State) (r : Except Error (State × Result)) : ∃ t, attempt s r = .next t := by
  unfold attempt
  split
  · exact ⟨_, rfl⟩
  · split <;> exact ⟨_, rfl⟩

theorem answer_halted (s : State) (r : Except Error Result) (h : s.fault = true) :
    answer s r = .next (s.fail .faulted) := attempt_halted s _ h

theorem answer_ok (s : State) (v : Result) (h : s.fault = false) : answer s (.ok v) = .next (s.gives v) :=
  attempt_ok s s v h

theorem answer_error (s : State) (e : Error) (h : s.fault = false) : answer s (.error e) = .next (s.fail e) :=
  attempt_error s e h

/-- All that `answer` can answer. -/
theorem answer_next_cases {s t : State} {r : Except Error Result} (h : answer s r = .next t) :
    (s.fault = true ∧ t = s.fail .faulted)
      ∨ (s.fault = false ∧ ∃ v, r = .ok v ∧ t = s.gives v)
      ∨ (s.fault = false ∧ ∃ e, r = .error e ∧ t = s.fail e) := by
  cases hf : s.fault with
  | true => rw [answer_halted s r hf] at h; cases h; simp
  | false =>
    cases r with
    | ok v => rw [answer_ok s v hf] at h; cases h; simp
    | error e => rw [answer_error s e hf] at h; cases h; simp

theorem withMap_configured {α : Type} (s : State) (k : Layout → Except Error α) (h : s.configured = true) :
    withMap s k = k s.layout := by simp [withMap, h]

theorem withMap_unconfigured {α : Type} (s : State) (k : Layout → Except Error α) (h : s.configured = false) :
    withMap s k = .error .notConfigured := by simp [withMap, h]

theorem checkBounds_ok {hi lo : BitVec 6} (h : lo.toNat ≤ hi.toNat) : checkBounds hi lo = .ok () := by
  simp [checkBounds, Nat.not_lt.mpr h]

theorem checkBounds_error {hi lo : BitVec 6} (h : hi.toNat < lo.toNat) : checkBounds hi lo = .error .badOperand := by
  simp [checkBounds, h]

end Sys2Proof.Machine
end

