-- ==== Sys2Proof/Laws/Bitfield.lean ====
section
/-! SUPPORT. Laws/Bitfield.lean: the bitfield unit and the layout's fields bit by bit. -/

namespace Sys2Proof.Machine

theorem fieldMask_toNat {hi lo : Nat} (h : hi ≤ 63) : (fieldMask hi lo).toNat = 2 ^ fieldWidth hi lo - 1 := by
  have hw : fieldWidth hi lo ≤ 64 := by unfold fieldWidth; omega
  have hp : 2 ^ fieldWidth hi lo ≤ 2 ^ 64 := Nat.pow_le_pow_right (by decide) hw
  have h0 : 0 < 2 ^ fieldWidth hi lo := Nat.two_pow_pos _
  rw [fieldMask, BitVec.toNat_ofNat, Nat.mod_eq_of_lt]
  omega

theorem fieldMask_getLsbD {hi lo : Nat} (h : hi ≤ 63) (j : Nat) :
    (fieldMask hi lo).getLsbD j = decide (j ≤ hi - lo) := by
  rw [BitVec.getLsbD, fieldMask_toNat h, Nat.testBit_two_pow_sub_one]
  simp [fieldWidth]

/-- The bits of a field's content. -/
theorem fieldGet_getLsbD {hi lo : Nat} (h : hi ≤ 63) (w : Word) (j : Nat) :
    (fieldGet hi lo w).getLsbD j = (decide (j ≤ hi - lo) && w.getLsbD (lo + j)) := by
  rw [fieldGet, BitVec.getLsbD_and, fieldMask_getLsbD h, BitVec.getLsbD_ushiftRight, Bool.and_comm]

/-- The bits of the word after an insert. -/
theorem fieldSet_getLsbD {hi lo : Nat} (hl : lo ≤ hi) (h : hi ≤ 63) (w v : Word) (j : Nat) (hj : j < 64) :
    (fieldSet hi lo w v).getLsbD j = if lo ≤ j ∧ j ≤ hi then v.getLsbD (j - lo) else w.getLsbD j := by
  simp only [fieldSet, BitVec.getLsbD_or, BitVec.getLsbD_and, BitVec.getLsbD_not, BitVec.getLsbD_shiftLeft,
    fieldMask_getLsbD h, hj, decide_true, Bool.true_and]
  by_cases h1 : j < lo
  · have h2 : ¬ (lo ≤ j ∧ j ≤ hi) := by omega
    simp [h1, h2]
  · by_cases h2 : j ≤ hi
    · have h3 : j - lo ≤ hi - lo := by omega
      have h4 : lo ≤ j ∧ j ≤ hi := by omega
      simp [h1, h3, h4]
    · have h3 : ¬ j - lo ≤ hi - lo := by omega
      have h4 : ¬ (lo ≤ j ∧ j ≤ hi) := by omega
      simp [h1, h3, h4]

/-- A field's content as a number. -/
theorem fieldGet_toNat {hi lo : Nat} (h : hi ≤ 63) (w : Word) :
    (fieldGet hi lo w).toNat = w.toNat / 2 ^ lo % 2 ^ fieldWidth hi lo := by
  rw [fieldGet, BitVec.toNat_and, fieldMask_toNat h, BitVec.toNat_ushiftRight, Nat.shiftRight_eq_div_pow,
    Nat.and_two_pow_sub_one_eq_mod]

/-! ### The layout's fields, empty ones included -/

theorem FieldPos.get_getLsbD (F : FieldPos) (h : F.hi ≤ 63) (w : Word) (j : Nat) :
    (F.get w).getLsbD j = (decide (F.lo + j ≤ F.hi) && w.getLsbD (F.lo + j)) := by
  unfold FieldPos.get FieldPos.width
  split
  · have : ¬ F.lo + j ≤ F.hi := by omega
    simp [this]
  · rw [fieldGet_getLsbD h]
    have : (j ≤ F.hi - F.lo) ↔ (F.lo + j ≤ F.hi) := by omega
    simp [this]

theorem FieldPos.set_getLsbD (F : FieldPos) (h : F.hi ≤ 63) (w v : Word) (j : Nat) (hj : j < 64) :
    (F.set w v).getLsbD j = if F.lo ≤ j ∧ j ≤ F.hi then v.getLsbD (j - F.lo) else w.getLsbD j := by
  unfold FieldPos.set FieldPos.width
  split
  · have : ¬ (F.lo ≤ j ∧ j ≤ F.hi) := by omega
    simp [this]
  · exact fieldSet_getLsbD (by omega) h w v j hj

/-- A field's content as a number; an empty field (`lo = hi + 1`) reads as 0. -/
theorem FieldPos.get_toNat (F : FieldPos) (h : F.hi ≤ 63) (hl : F.lo ≤ F.hi + 1) (w : Word) :
    (F.get w).toNat = w.toNat / 2 ^ F.lo % 2 ^ F.width := by
  unfold FieldPos.get
  split
  · next h0 => simp [h0, Nat.mod_one]
  · next h0 =>
    rw [fieldGet_toNat h]
    have : fieldWidth F.hi F.lo = F.width := by unfold fieldWidth FieldPos.width at *; omega
    rw [this]

/-- Every entry of a layout lies in the word. -/
theorem fieldPos_hi_le (L : Layout) (n : FieldName) : (fieldPos L n).hi ≤ 63 := by
  cases n <;> simp only [fieldPos] <;> omega

/-- Every entry of a legal layout has its low bit at most one above its high bit. -/
theorem fieldPos_lo_le (L : Layout) (h : L.pxnBits + L.podBits + L.coreBits ≤ 31) (n : FieldName) :
    (fieldPos L n).lo ≤ (fieldPos L n).hi + 1 := by
  cases n <;> simp only [fieldPos] <;> omega

end Sys2Proof.Machine
end

