-- ==== Sys2Proof/Laws/Exec.lean ====
section
/-! SUPPORT. Laws/Exec.lean: what any instruction can do. All but `AM.CFG` and `AM.STATUS` end through `answer`, with
results that depend on the operands and the map only, and with an error that sets `cfg.FAULT`. -/

namespace Sys2Proof.Machine

/-- The map as the operations see it: the layout once configured (R13, R16). -/
def State.seenMap (s : State) : Option Layout := if s.configured then some s.layout else none

/-- `withMap` as a function of the map seen. -/
def onMap {α : Type} (m : Option Layout) (k : Layout → Except Error α) : Except Error α :=
  match m with
  | none => .error .notConfigured
  | some L => k L

theorem withMap_eq_onMap {α : Type} (s : State) (k : Layout → Except Error α) : withMap s k = onMap s.seenMap k := by
  unfold withMap onMap State.seenMap
  split <;> rfl

/-! ### The errors each operation can end with -/

theorem encodeInfo_error {policy : OverflowPolicy} {L : Layout} {i : AddressInfo} {e : Error}
    (h : encodeInfo policy L i = .error e) : e = .invalidAddressKind ∨ e = .fieldOverflow := by
  unfold encodeInfo at h
  split at h
  · cases h; exact .inl rfl
  · split at h
    · split at h
      · cases h
      · split at h <;> cases h
        exact .inr rfl
    · cases h; exact .inl rfl

theorem bankCount_error {s t : Nat} {e : Error} (h : bankCount s t = .error e) : e = .configurationError := by
  unfold bankCount at h
  split at h
  · cases h
  · split at h
    · cases h; rfl
    · split at h <;> cases h
      rfl

theorem checkRange_error {m s n b : Nat} {e : Error} (h : checkRange m s n b = .error e) :
    e = .configurationError := by
  unfold checkRange at h
  split at h
  · cases h; rfl
  · split at h
    · cases h; rfl
    · split at h <;> cases h
      rfl

theorem bankRange_error {m s t b : Nat} {e : Error} (h : bankRange m s t b = .error e) : e = .configurationError := by
  unfold bankRange at h
  split at h
  · next hb => cases h; exact bankCount_error hb
  · split at h
    · next hc => cases h; exact checkRange_error hc
    · split at h <;> cases h
      rfl

theorem encodeRange_error {policy : OverflowPolicy} {L : Layout} {tag : Word → AddressInfo} {a b : Nat} {e : Error}
    (h : encodeRange policy L tag a b = .error e) : e = .invalidAddressKind ∨ e = .fieldOverflow := by
  unfold encodeRange at h
  split at h
  · next he => cases h; exact encodeInfo_error he
  · split at h
    · next he => cases h; exact encodeInfo_error he
    · cases h

/-- Every status but `Faulted`. -/
theorem setsFault_of_cases {e : Error}
    (h : e = .configurationError ∨ e = .invalidAddressKind ∨ e = .fieldOverflow ∨ e = .badOperand
      ∨ e = .unknownField ∨ e = .notConfigured) : e.setsFault = true := by
  rcases h with rfl | rfl | rfl | rfl | rfl | rfl <;> rfl

/-- The instruction ends through `answer`, as a function of the map seen. -/
def EndsThroughAnswer (i : Instr) : Prop :=
  ∃ k : Option Layout → Except Error Result,
    (∀ m e, k m = .error e → e.setsFault = true) ∧ ∀ s, exec i s = answer s (k s.seenMap)

theorem endsThroughAnswer_bounds (hi lo : BitVec 6) (v : Result) (i : Instr)
    (h : ∀ s, exec i s = answer s ((checkBounds hi lo).map fun _ => v)) : EndsThroughAnswer i := by
  refine ⟨fun _ => (checkBounds hi lo).map fun _ => v, ?_, h⟩
  intro _ e he
  unfold checkBounds at he
  split at he <;> cases he
  rfl

theorem endsThroughAnswer_map (i : Instr) (k : Layout → Except Error Result)
    (hk : ∀ L e, k L = .error e → e.setsFault = true)
    (h : ∀ s, exec i s = answer s (withMap s k)) : EndsThroughAnswer i := by
  refine ⟨fun m => onMap m k, ?_, fun s => by rw [h s, withMap_eq_onMap]⟩
  intro m e he
  cases m with
  | none => cases he; rfl
  | some L => exact hk L e he

theorem withMap_map {α β : Type} (s : State) (k : Layout → Except Error α) (f : α → β) :
    (withMap s k).map f = withMap s fun L => (k L).map f := by
  unfold withMap
  split <;> rfl

theorem map_error {α β : Type} {r : Except Error α} {f : α → β} {e : Error} (h : r.map f = .error e) :
    r = .error e := by
  cases r with
  | ok v => cases h
  | error e' => cases h; rfl

theorem endsThroughAnswer_presentWord (i : Instr) (f : Format) (w : Word) (my : Requester)
    (h : ∀ s, exec i s = presentWord f w my s) : EndsThroughAnswer i :=
  endsThroughAnswer_map i (fun L => .ok (decodeAs L f w my)) (fun _ _ he => by cases he) h

/-- Every instruction but `AM.CFG` and `AM.STATUS` ends through `answer`. -/
theorem exec_endsThroughAnswer (i : Instr) (hs : i ≠ .amStatus) (hc : ∀ p o c, i ≠ .amCfg p o c) :
    EndsThroughAnswer i := by
  cases i with
  | bfBits hi lo => exact endsThroughAnswer_bounds hi lo _ _ fun _ => rfl
  | bfMask hi lo => exact endsThroughAnswer_bounds hi lo _ _ fun _ => rfl
  | bfGet hi lo word => exact endsThroughAnswer_bounds hi lo _ _ fun _ => rfl
  | bfSet hi lo word value => exact endsThroughAnswer_bounds hi lo _ _ fun _ => rfl
  | amCfg p o c => exact absurd rfl (hc p o c)
  | amEnc info =>
    refine endsThroughAnswer_map _ (fun L => (encodeBundle Config.overflowPolicy L info).map .word) ?_
      fun s => by rw [← withMap_map]; rfl
    intro L e he
    have he := map_error he
    unfold encodeBundle at he
    split at he
    · cases he; rfl
    · rcases encodeInfo_error he with rfl | rfl <;> rfl
  | amDec raw my => exact endsThroughAnswer_map _ _ (fun _ _ he => by cases he) fun _ => rfl
  | amField n =>
    refine endsThroughAnswer_map _ _ ?_ fun _ => rfl
    intro L e he
    split at he <;> cases he
    rfl
  | amStatus => exact absurd rfl hs
  | rbBanks n t =>
    refine ⟨fun _ => _, fun _ e he => ?_, fun _ => rfl⟩
    rw [bankCount_error (map_error he)]; rfl
  | rbTotal m n t =>
    refine ⟨fun _ => _, fun _ e he => ?_, fun _ => rfl⟩
    rw [bankCount_error (map_error (map_error he))]; rfl
  | rbRange m n t b =>
    refine ⟨fun _ => _, fun _ e he => ?_, fun _ => rfl⟩
    rw [bankRange_error (map_error he)]; rfl
  | rbL1sp m x y z =>
    refine endsThroughAnswer_map _ (fun L => (l1spRange Config.overflowPolicy L m.toNat x y z).map fun r =>
      .descriptor r.1 r.2 0 0) ?_ fun s => by rw [← withMap_map]; rfl
    intro L e he
    have he := map_error he
    unfold l1spRange at he
    split at he
    · next hr => cases he; rw [checkRange_error hr]; rfl
    · rcases encodeRange_error he with rfl | rfl <;> rfl
  | rbL2sp m n t x y b =>
    refine endsThroughAnswer_map _ (fun L => (taggedRange Config.overflowPolicy L (absL2spInfo x y)
      m.toNat n.toNat t.toNat b.toNat).map fun r => .descriptor r.1 r.2 n t) ?_ fun s => by rw [← withMap_map]; rfl
    intro L e he
    have he := map_error he
    unfold taggedRange at he
    split at he
    · next hr => cases he; rw [bankRange_error hr]; rfl
    · rcases encodeRange_error he with rfl | rfl <;> rfl
  | rbDram m n t x b =>
    refine endsThroughAnswer_map _ (fun L => (taggedRange Config.overflowPolicy L (absDramInfo x)
      m.toNat n.toNat t.toNat b.toNat).map fun r => .descriptor r.1 r.2 n t) ?_ fun s => by rw [← withMap_map]; rfl
    intro L e he
    have he := map_error he
    unfold taggedRange at he
    split at he
    · next hr => cases he; rw [bankRange_error hr]; rfl
    · rcases encodeRange_error he with rfl | rfl <;> rfl
  | absDram low my => exact endsThroughAnswer_presentWord _ _ _ _ fun _ => rfl
  | absL2sp low my => exact endsThroughAnswer_presentWord _ _ _ _ fun _ => rfl
  | absL1sp ids offset my => exact endsThroughAnswer_presentWord _ _ _ _ fun _ => rfl
  | absCtrl ids offset my => exact endsThroughAnswer_presentWord _ _ _ _ fun _ => rfl
  | relL1sp reserved offset my => exact endsThroughAnswer_presentWord _ _ _ _ fun _ => rfl
  | relL2sp reserved offset my => exact endsThroughAnswer_presentWord _ _ _ _ fun _ => rfl
  | relDram reserved offset my => exact endsThroughAnswer_presentWord _ _ _ _ fun _ => rfl

/-- What `AM.CFG` can do when the codec runs: build the map over an unconfigured state, or end with one of two errors. -/
theorem buildMap_cases (s : State) (p o c : Nat) :
    (s.configured = true ∧ buildMap s p o c = .error .alreadyConfigured)
      ∨ (s.configured = false ∧ (p = 0 ∨ o = 0 ∨ c = 0 ∨ 31 < idBits p o c)
          ∧ buildMap s p o c = .error .configurationError)
      ∨ (s.configured = false ∧ 1 ≤ p ∧ 1 ≤ o ∧ 1 ≤ c ∧ idBits p o c ≤ 31
          ∧ buildMap s p o c = .ok (s.configure p o c, .done)) := by
  unfold buildMap
  split
  · simp_all
  · split
    · right; left; simp_all; omega
    · split
      · right; left; simp_all
      · right; right; simp_all; omega

end Sys2Proof.Machine
end

