-- ==== Sys2Proof/Laws/AddressMap.lean ====
section
/-! SUPPORT. Laws/AddressMap.lean: reading and inserting through the layout, and all that encoding a record can
answer. -/

namespace Sys2Proof.Machine

/-- What an entry of a legal layout reads, as a number. -/
theorem readField_toNat (L : Layout) (h : L.pxnBits + L.podBits + L.coreBits ≤ 31) (n : FieldName) (w : Word) :
    (readField L n w).toNat = w.toNat / 2 ^ (fieldPos L n).lo % 2 ^ (fieldPos L n).width :=
  FieldPos.get_toNat _ (fieldPos_hi_le L n) (fieldPos_lo_le L h n) w

/-- The bits an entry reads. -/
theorem readField_getLsbD (L : Layout) (n : FieldName) (w : Word) (j : Nat) :
    (readField L n w).getLsbD j
      = (decide ((fieldPos L n).lo + j ≤ (fieldPos L n).hi) && w.getLsbD ((fieldPos L n).lo + j)) :=
  FieldPos.get_getLsbD _ (fieldPos_hi_le L n) w j

/-- The bits of a word after an insert through an entry. -/
theorem insertField_getLsbD (L : Layout) (n : FieldName) (v w : Word) (j : Nat) (hj : j < 64) :
    (insertField L n v w).getLsbD j
      = if (fieldPos L n).lo ≤ j ∧ j ≤ (fieldPos L n).hi then v.getLsbD (j - (fieldPos L n).lo) else w.getLsbD j :=
  FieldPos.set_getLsbD _ (fieldPos_hi_le L n) w v j hj

/-- The bits of a word after a coordinate is inserted. -/
theorem packCoord_getLsbD (L : Layout) (n : FieldName) (v : Option CoordId) (w : Word) (j : Nat) (hj : j < 64) :
    (packCoord L n v w).getLsbD j
      = if (fieldPos L n).lo ≤ j ∧ j ≤ (fieldPos L n).hi then (v.getD 0).getLsbD (j - (fieldPos L n).lo)
        else w.getLsbD j := by
  rw [packCoord, insertCoord, insertField_getLsbD L n _ w j hj]
  have : j - (fieldPos L n).lo < 64 := by omega
  simp [this]

/-- All that encoding a record can answer: the word of its format, or one of two errors. -/
theorem encodeInfo_cases (policy : OverflowPolicy) (L : Layout) (i : AddressInfo) :
    (validInfo i = false ∧ encodeInfo policy L i = .error .invalidAddressKind)
      ∨ (validInfo i = true ∧ fitsInfo L i = false ∧ policy = .reject
          ∧ encodeInfo policy L i = .error .fieldOverflow)
      ∨ (validInfo i = true ∧ (fitsInfo L i = true ∨ policy = .mask)
          ∧ ∃ f, infoFormat i = some f ∧ encodeInfo policy L i = .ok (packInfo L f i)) := by
  unfold encodeInfo validInfo fitsInfo carried
  cases hf : infoFormat i with
  | none => exact .inl ⟨rfl, rfl⟩
  | some f =>
    dsimp only
    cases hc : (formatCoords f).all (fun k => (coordOf i k).isSome) with
    | false => exact .inl ⟨by simp, by simp⟩
    | true =>
      cases hv : fitsFormat L f i with
      | true => exact .inr (.inr ⟨by simp, .inl rfl, f, rfl, by simp⟩)
      | false =>
        cases policy with
        | reject => exact .inr (.inl ⟨by simp, rfl, rfl, by simp⟩)
        | mask => exact .inr (.inr ⟨by simp, .inr rfl, f, rfl, by simp⟩)

/-- A reserved type signal is an error, and any other bundle is encoded as its record. -/
theorem encodeBundle_cases (policy : OverflowPolicy) (L : Layout) (b : InfoBundle) :
    (infoOf b = none ∧ encodeBundle policy L b = .error .badOperand)
      ∨ ∃ i, infoOf b = some i ∧ encodeBundle policy L b = encodeInfo policy L i := by
  unfold encodeBundle
  cases h : infoOf b with
  | none => exact .inl ⟨rfl, rfl⟩
  | some i => exact .inr ⟨i, rfl, rfl⟩

/-- A record put on the port and taken from it is the record. -/
theorem infoOf_bundleOf (i : AddressInfo) : infoOf (bundleOf i) = some i := by
  obtain ⟨t, m, f, x, y, z⟩ := i
  rcases t with _ | t
  · cases m <;> cases x <;> cases y <;> cases z <;> rfl
  · cases t <;> cases m <;> cases x <;> cases y <;> cases z <;> rfl

/-- The record of a word is of the word's format. -/
theorem infoFormat_readInfo (L : Layout) (f : Format) (raw : Word) (my : Requester) :
    infoFormat (readInfo L f raw my) = some f := by cases f <;> rfl

/-- The record of a word is valid. -/
theorem validInfo_readInfo (L : Layout) (f : Format) (raw : Word) (my : Requester) :
    validInfo (readInfo L f raw my) = true := by cases f <;> rfl

end Sys2Proof.Machine
end

