-- ==== Sys2Proof/Laws/Decode.lean ====
section
/-! SUPPORT. Laws/Decode.lean: what the decoder finds where the encoder has put it. -/

namespace Sys2Proof

/-- A slice that begins above the low part of an append is a slice of the high part. -/
theorem slice_append_high {m n : Nat} (a : BitVec m) (b : BitVec n) (lo w : Nat) (h : n ≤ lo) :
    slice (a ++ b) lo w = slice a (lo - n) w := by
  ext j hj
  simp only [slice, BitVec.getElem_extractLsb', BitVec.getLsbD_append]
  rw [if_neg (by omega), show lo + j - n = lo - n + j by omega]

/-- A slice that ends inside the low part of an append is a slice of the low part. -/
theorem slice_append_low {m n : Nat} (a : BitVec m) (b : BitVec n) (lo w : Nat) (h : lo + w ≤ n) :
    slice (a ++ b) lo w = slice b lo w := by
  ext j hj
  simp only [slice, BitVec.getElem_extractLsb', BitVec.getLsbD_append]
  have : lo + j < n := by omega
  simp [this]

/-- The whole of a vector as a slice. -/
theorem slice_all {n : Nat} (a : BitVec n) : slice a 0 n = a := by
  ext j hj
  simp [slice]

/-- Widening does not change a slice inside the original width. -/
theorem slice_setWidth {n m : Nat} (a : BitVec n) (lo w : Nat) (h : lo + w ≤ m) :
    slice (a.setWidth m) lo w = slice a lo w := by
  ext j hj
  simp only [slice, BitVec.getElem_extractLsb', BitVec.getLsbD_setWidth]
  have : lo + j < m := by omega
  simp [this]

/-- The op code of a bundle stands in its five low bits (R72). -/
theorem slice_bundle_op {n : Nat} (op : BitVec 5) (x : BitVec n) :
    slice ((x ++ op).setWidth 325) 0 5 = op := by
  rw [slice_setWidth _ _ _ (by decide), slice_append_low _ _ _ _ (by decide), slice_all]

/-- An operand of a bundle stands five bits above its place among the operands. -/
theorem slice_bundle_operand {n : Nat} (op : BitVec 5) (x : BitVec n) (lo w : Nat) (h : 5 ≤ lo) (h' : lo + w ≤ 325) :
    slice ((x ++ op).setWidth 325) lo w = slice x (lo - 5) w := by
  rw [slice_setWidth _ _ _ h', slice_append_high _ _ _ _ h]

/-- The word of an address input stands in its 64 low bits. -/
theorem slice_address_word (w : Word) (my : Requester) : slice (my.core ++ my.pod ++ my.pxn ++ w) 0 64 = w := by
  rw [slice_append_low _ _ _ _ (by decide), slice_all]

/-! ### The words of the formats classify as their formats (R50, R62) -/

theorem classify_absDramWord (low : BitVec 62) : classify (absDramWord low) = .absDram := by
  simp only [classify, absDramWord, BitVec.getLsbD_append]
  simp

theorem classify_absL2spWord (low : BitVec 61) : classify (absL2spWord low) = .absL2sp := by
  simp only [classify, absL2spWord, BitVec.getLsbD_append]
  simp

theorem classify_absL1spWord (ids : BitVec 31) (f : BitVec 29) : classify (absL1spWord ids f) = .absL1sp := by
  simp only [classify, absL1spWord, BitVec.getLsbD_append]
  simp

theorem classify_absCtrlWord (ids : BitVec 31) (f : BitVec 29) : classify (absCtrlWord ids f) = .absCtrl := by
  simp only [classify, absCtrlWord, BitVec.getLsbD_append]
  simp

theorem classify_relL1spWord (r : BitVec 32) (f : BitVec 29) : classify (relL1spWord r f) = .relL1sp := by
  simp only [classify, relL1spWord, BitVec.getLsbD_append]
  simp

theorem classify_relL2spWord (r : BitVec 32) (f : BitVec 29) : classify (relL2spWord r f) = .relL2sp := by
  simp only [classify, relL2spWord, BitVec.getLsbD_append]
  simp

theorem classify_relDramWord (r : BitVec 32) (f : BitVec 30) : classify (relDramWord r f) = .relDram := by
  simp only [classify, relDramWord, BitVec.getLsbD_append]
  simp

end Sys2Proof
end

