-- ==== Sys2Proof/Laws/PerInstr.lean ====
section
/-! SUPPORT. Laws/PerInstr.lean: the statements made per instruction, one lemma for each constructor of `Instr`. -/

namespace Sys2Proof.Laws.CarriesItsRow

/-- The row of spec/opcode_table.json that the constructor stands for: the op code of a request, or the format of an
address word. -/
def rowOf : Instr → BitVec 5 ⊕ Format
  | .bfBits _ _ => .inl 0x00
  | .bfMask _ _ => .inl 0x01
  | .bfGet _ _ _ => .inl 0x02
  | .bfSet _ _ _ _ => .inl 0x03
  | .amCfg _ _ _ => .inl 0x08
  | .amEnc _ => .inl 0x09
  | .amDec _ _ => .inl 0x0A
  | .amField _ => .inl 0x0B
  | .amStatus => .inl 0x0C
  | .rbBanks _ _ => .inl 0x10
  | .rbTotal _ _ _ => .inl 0x11
  | .rbRange _ _ _ _ => .inl 0x12
  | .rbL1sp _ _ _ _ => .inl 0x13
  | .rbL2sp _ _ _ _ _ _ => .inl 0x14
  | .rbDram _ _ _ _ _ => .inl 0x15
  | .absDram _ _ => .inr .absDram
  | .absL2sp _ _ => .inr .absL2sp
  | .absL1sp _ _ _ => .inr .absL1sp
  | .absCtrl _ _ _ => .inr .absCtrl
  | .relL1sp _ _ _ => .inr .relL1sp
  | .relL2sp _ _ _ => .inr .relL2sp
  | .relDram _ _ _ => .inr .relDram

/-- The bits of the instruction carry its row: the op code in bits 4 to 0 of a request, the format's selector bits in
an address word (R62, R72). -/
def Statement (i : Instr) : Prop :=
  match rowOf i, encode i with
  | .inl op, .request b => slice b 0 5 = op
  | .inr f, .address b => classify (slice b 0 64) = f
  | _, _ => False

theorem bfBits (hi lo : BitVec 6) : Statement (.bfBits hi lo) := slice_bundle_op _ _
theorem bfMask (hi lo : BitVec 6) : Statement (.bfMask hi lo) := slice_bundle_op _ _
theorem bfGet (hi lo : BitVec 6) (w : Word) : Statement (.bfGet hi lo w) := slice_bundle_op _ _
theorem bfSet (hi lo : BitVec 6) (w v : Word) : Statement (.bfSet hi lo w v) := slice_bundle_op _ _
theorem amCfg (p o c : Nat) : Statement (.amCfg p o c) := slice_bundle_op _ _
theorem amEnc (info : InfoBundle) : Statement (.amEnc info) := slice_bundle_op _ _
theorem amDec (raw : Word) (my : Requester) : Statement (.amDec raw my) := slice_bundle_op _ _
theorem amField (n : BitVec 4) : Statement (.amField n) := slice_bundle_op _ _
theorem amStatus : Statement .amStatus := slice_bundle_op _ _
theorem rbBanks (s t : Word) : Statement (.rbBanks s t) := slice_bundle_op _ _
theorem rbTotal (m s t : Word) : Statement (.rbTotal m s t) := slice_bundle_op _ _
theorem rbRange (m s t b : Word) : Statement (.rbRange m s t b) := slice_bundle_op _ _
theorem rbL1sp (m : Word) (x y z : CoordId) : Statement (.rbL1sp m x y z) := slice_bundle_op _ _
theorem rbL2sp (m s t : Word) (x y : CoordId) (b : Word) : Statement (.rbL2sp m s t x y b) := slice_bundle_op _ _
theorem rbDram (m s t : Word) (x : CoordId) (b : Word) : Statement (.rbDram m s t x b) := slice_bundle_op _ _

theorem absDram (low : BitVec 62) (my : Requester) : Statement (.absDram low my) :=
  (congrArg classify (slice_address_word _ my)).trans (classify_absDramWord low)
theorem absL2sp (low : BitVec 61) (my : Requester) : Statement (.absL2sp low my) :=
  (congrArg classify (slice_address_word _ my)).trans (classify_absL2spWord low)
theorem absL1sp (ids : BitVec 31) (f : BitVec 29) (my : Requester) : Statement (.absL1sp ids f my) :=
  (congrArg classify (slice_address_word _ my)).trans (classify_absL1spWord ids f)
theorem absCtrl (ids : BitVec 31) (f : BitVec 29) (my : Requester) : Statement (.absCtrl ids f my) :=
  (congrArg classify (slice_address_word _ my)).trans (classify_absCtrlWord ids f)
theorem relL1sp (r : BitVec 32) (f : BitVec 29) (my : Requester) : Statement (.relL1sp r f my) :=
  (congrArg classify (slice_address_word _ my)).trans (classify_relL1spWord r f)
theorem relL2sp (r : BitVec 32) (f : BitVec 29) (my : Requester) : Statement (.relL2sp r f my) :=
  (congrArg classify (slice_address_word _ my)).trans (classify_relL2spWord r f)
theorem relDram (r : BitVec 32) (f : BitVec 30) (my : Requester) : Statement (.relDram r f my) :=
  (congrArg classify (slice_address_word _ my)).trans (classify_relDramWord r f)

end Sys2Proof.Laws.CarriesItsRow
end

