-- ==== Sys2Proof/Laws/RangeBuilder.lean ====
section
/-! SUPPORT. Laws/RangeBuilder.lean: all that each step of the range computation can answer. -/

namespace Sys2Proof.Machine

/-- All that `bankCount` can answer. -/
theorem bankCount_cases (s t : Nat) :
    (StepLegal s t ∧ bankCount s t = .ok (bankNumber s t))
      ∨ (¬ StepLegal s t ∧ bankCount s t = .error .configurationError) := by
  unfold bankCount bankNumber StepLegal
  by_cases h0 : s = 0
  · simp [h0]
  · by_cases h1 : t % s = 0
    · have hd : s ∣ t := Nat.dvd_of_mod_eq_zero h1
      by_cases h2 : t = 0
      · simp [h0, h2]
      · have h3 : 0 < t := Nat.pos_of_ne_zero h2
        simp [h0, h1, h2, hd, h3]
    · have hd : ¬ s ∣ t := fun h => h1 (Nat.mod_eq_zero_of_dvd h)
      simp [h0, h1, hd]

/-- All that `checkRange` can answer. -/
theorem checkRange_cases (m s n b : Nat) :
    ((0 < m ∧ s ≤ m ∧ b < n) ∧ checkRange m s n b = .ok ())
      ∨ (¬ (0 < m ∧ s ≤ m ∧ b < n) ∧ checkRange m s n b = .error .configurationError) := by
  unfold checkRange
  by_cases h0 : m = 0
  · simp [h0]
  · by_cases h1 : m < s
    · simp [h0, h1, Nat.not_le.mpr h1]
    · by_cases h2 : n ≤ b
      · simp [h0, h1, h2, Nat.not_lt.mpr h2]
      · simp [h0, h1, h2, Nat.pos_of_ne_zero h0, Nat.not_lt.mp h1, Nat.not_le.mp h2]

/-- All that `bankRange` can answer. -/
theorem bankRange_cases (m s t b : Nat) :
    (RangeAccepts m s t b ∧ bankRange m s t b = .ok (b * s, lastOffset m s t b))
      ∨ (¬ RangeAccepts m s t b ∧ bankRange m s t b = .error .configurationError) := by
  unfold bankRange
  rcases bankCount_cases s t with ⟨hs, hb⟩ | ⟨hs, hb⟩
  · rcases checkRange_cases m s (bankNumber s t) b with ⟨hc, hr⟩ | ⟨hc, hr⟩
    · by_cases he : 2 ^ 64 ≤ lastOffset m s t b
      · refine .inr ⟨fun h => absurd h.2.2.2.2 (Nat.not_lt.mpr he), ?_⟩
        simp only [hb, hr]
        exact if_pos he
      · refine .inl ⟨⟨hs, hc.1, hc.2.1, hc.2.2, Nat.not_le.mp he⟩, ?_⟩
        simp only [hb, hr]
        exact if_neg he
    · exact .inr ⟨fun h => hc ⟨h.2.1, h.2.2.1, h.2.2.2.1⟩, by simp only [hb, hr]⟩
  · exact .inr ⟨fun h => hs h.1, by simp only [hb]⟩

/-- The end of an accepted envelope, counted from its start. -/
theorem lastOffset_eq {m s t b : Nat} (h : RangeAccepts m s t b) :
    lastOffset m s t b + 1 + (bankNumber s t - 1) * s = m * bankNumber s t + b * s := by
  obtain ⟨_, h0, h1, h2, _⟩ := h
  obtain ⟨d, hd⟩ : ∃ d, bankNumber s t = b + 1 + d := ⟨bankNumber s t - b - 1, by omega⟩
  have hm : s * (b + 1 + d) ≤ m * (b + 1 + d) := Nat.mul_le_mul_right _ h1
  have hs : d * s + 1 ≤ m * (b + 1 + d) := by
    rcases Nat.eq_zero_or_pos s with hz | hz
    · subst hz
      have : 0 < m * (b + 1 + d) := Nat.mul_pos h0 (by omega)
      omega
    · have : s * (b + 1 + d) = d * s + s + b * s := by ring
      omega
  unfold lastOffset
  rw [hd, show b + 1 + d - b - 1 = d by omega, show b + 1 + d - 1 = b + d by omega, Nat.add_mul]
  omega

/-- All that `encodeRange` can answer. -/
theorem encodeRange_cases (policy : OverflowPolicy) (L : Layout) (tag : Word → AddressInfo) (first last : Nat) :
    (∃ a b, encodeInfo policy L (tag (BitVec.ofNat 64 first)) = .ok a
        ∧ encodeInfo policy L (tag (BitVec.ofNat 64 last)) = .ok b
        ∧ encodeRange policy L tag first last = .ok (a, b))
      ∨ (∃ e, encodeInfo policy L (tag (BitVec.ofNat 64 first)) = .error e
        ∧ encodeRange policy L tag first last = .error e)
      ∨ (∃ a e, encodeInfo policy L (tag (BitVec.ofNat 64 first)) = .ok a
        ∧ encodeInfo policy L (tag (BitVec.ofNat 64 last)) = .error e
        ∧ encodeRange policy L tag first last = .error e) := by
  unfold encodeRange
  cases ha : encodeInfo policy L (tag (BitVec.ofNat 64 first)) with
  | error e => exact .inr (.inl ⟨e, rfl, rfl⟩)
  | ok a =>
    cases hb : encodeInfo policy L (tag (BitVec.ofNat 64 last)) with
    | error e => exact .inr (.inr ⟨a, e, rfl, rfl, rfl⟩)
    | ok b => exact .inl ⟨a, b, rfl, rfl, rfl⟩

end Sys2Proof.Machine
end

