-- ==== Sys2Proof/Laws/Step.lean ====
section
/-! SUPPORT. Laws/Step.lean: what an instruction and a step can do, said once: the cases every frame and every
invariant is read from. -/

namespace Sys2Proof.Machine

/-- All that an instruction can do to a state. -/
theorem exec_next_cases {i : Instr} {s t : State} (h : exec i s = .next t) :
    (i = .amStatus ∧ t = s.gives (.status (statusReport s)))
      ∨ (i ≠ .amStatus ∧ s.fault = true ∧ t = s.fail .faulted)
      ∨ (s.fault = false ∧ ∃ p o c, i = .amCfg p o c ∧ s.configured = false ∧ 1 ≤ p ∧ 1 ≤ o ∧ 1 ≤ c
          ∧ idBits p o c ≤ 31 ∧ t = (s.configure p o c).gives .done)
      ∨ (s.fault = false ∧ (∀ p o c, i ≠ .amCfg p o c) ∧ ∃ r, t = s.gives r)
      ∨ (s.fault = false ∧ ∃ e : Error, e.setsFault = true ∧ t = s.fail e) := by
  by_cases hs : i = .amStatus
  · subst hs
    cases h
    exact .inl ⟨rfl, rfl⟩
  by_cases hc : ∃ p o c, i = .amCfg p o c
  · obtain ⟨p, o, c, rfl⟩ := hc
    have h : attempt s (buildMap s p o c) = .next t := h
    rcases attempt_next_cases h with ⟨hf, rfl⟩ | ⟨hf, u, v, hr, rfl⟩ | ⟨hf, e, hr, rfl⟩
    · exact .inr (.inl ⟨hs, hf, rfl⟩)
    · rcases buildMap_cases s p o c with ⟨_, hb⟩ | ⟨_, _, hb⟩ | ⟨hu, hp, ho, hcc, hw, hb⟩
      · rw [hb] at hr; cases hr
      · rw [hb] at hr; cases hr
      · rw [hb] at hr; cases hr
        exact .inr (.inr (.inl ⟨hf, p, o, c, rfl, hu, hp, ho, hcc, hw, rfl⟩))
    · refine .inr (.inr (.inr (.inr ⟨hf, e, ?_, rfl⟩)))
      rcases buildMap_cases s p o c with ⟨_, hb⟩ | ⟨_, _, hb⟩ | ⟨_, _, _, _, _, hb⟩
      · rw [hb] at hr; cases hr; rfl
      · rw [hb] at hr; cases hr; rfl
      · rw [hb] at hr; cases hr
  · have hc : ∀ p o c, i ≠ .amCfg p o c := fun p o c hi => hc ⟨p, o, c, hi⟩
    obtain ⟨k, hk, he⟩ := exec_endsThroughAnswer i hs hc
    rw [he s] at h
    rcases answer_next_cases h with ⟨hf, rfl⟩ | ⟨hf, v, _, rfl⟩ | ⟨hf, e, hr, rfl⟩
    · exact .inr (.inl ⟨hs, hf, rfl⟩)
    · exact .inr (.inr (.inr (.inl ⟨hf, hc, v, rfl⟩)))
    · exact .inr (.inr (.inr (.inr ⟨hf, e, hk _ _ hr, rfl⟩)))

theorem step_idle (s : State) (h : s.pending = []) : step s = .next s := by simp [step, h]

theorem step_reset (s : State) (rest : List Event) (h : s.pending = .reset :: rest) :
    step s = .next { s with pending := rest }.applyReset := by simp [step, h]

theorem step_wire (s : State) (w : Wire) (rest : List Event) (i : Instr) (h : s.pending = .wire w :: rest)
    (hd : decode w = .ok i) : step s = exec i { s with pending := rest } := by simp [step, h, hd]

theorem step_unknownOp (s : State) (w : Wire) (rest : List Event) (e : DecodeError) (h : s.pending = .wire w :: rest)
    (hd : decode w = .error e) : step s = refuseUnknownOp { s with pending := rest } := by
  cases e; simp [step, h, hd]

/-- All that a step can be. -/
theorem step_cases (s : State) :
    (s.pending = [] ∧ step s = .next s)
      ∨ (∃ rest, s.pending = .reset :: rest ∧ step s = .next { s with pending := rest }.applyReset)
      ∨ (∃ w rest i, s.pending = .wire w :: rest ∧ decode w = .ok i ∧ step s = exec i { s with pending := rest })
      ∨ (∃ w rest e, s.pending = .wire w :: rest ∧ decode w = .error e
          ∧ step s = refuseUnknownOp { s with pending := rest }) := by
  cases hp : s.pending with
  | nil => exact .inl ⟨rfl, step_idle s hp⟩
  | cons e rest =>
    cases e with
    | reset => exact .inr (.inl ⟨rest, rfl, step_reset s rest hp⟩)
    | wire w =>
      cases hd : decode w with
      | ok i => exact .inr (.inr (.inl ⟨w, rest, i, rfl, hd, step_wire s w rest i hp hd⟩))
      | error e => exact .inr (.inr (.inr ⟨w, rest, e, rfl, hd, step_unknownOp s w rest e hp hd⟩))

/-! ### Runs through the host's interface, step by step -/

theorem core_run_zero (s : State) : Host.Core.run Sys2Proof.core 0 s = .next s := rfl

/-- A run of any machine goes on from the state its first step answers. -/
theorem run_succ_of (M : Host.Core) (k : Nat) {s t : M.State} (h : M.step s = .next t) :
    M.run (k + 1) s = M.run k t := by
  simp only [Host.Core.run, h]

theorem core_run_succ (k : Nat) {s t : State} (h : step s = .next t) :
    Host.Core.run Sys2Proof.core (k + 1) s = Host.Core.run Sys2Proof.core k t :=
  run_succ_of Sys2Proof.core k h

theorem trace_zero (s : State) : State.trace 0 s = [] := rfl

theorem trace_succ (k : Nat) {s t : State} (h : step s = .next t) :
    State.trace (k + 1) s = t.response :: State.trace k t := by
  simp [State.trace, h]

end Sys2Proof.Machine
end

