-- ==== Sys2Proof/Machine/Text.lean ====
section
/-! DEFINITION. Machine/Text.lean: the spec's request syntax (R81): a request and its response as one line of text.
No operation of the codec reads or writes text. Numbers are decimal, but for the offset inside a record (R118); the
choices R81 leaves are log entry 11. -/

namespace Sys2Proof.Machine

/-- One entry of a line, its name (empty where the spec writes the bare value) and its value. -/
structure TextItem where
  name : String
  value : List Char
deriving DecidableEq, Repr

/-- A number in decimal under its name. -/
def numberItem (name : String) (n : Nat) : TextItem := ⟨name, decimal n⟩

/-- A bit as 0 or 1 under its name. -/
def bitItem (name : String) (b : Bool) : TextItem := ⟨name, if b then "1".toList else "0".toList⟩

/-- `name=value`, or the value alone. -/
def itemText (i : TextItem) : List Char :=
  if i.name = "" then i.value else i.name.toList ++ "=".toList ++ i.value

/-- Entries separated by commas. -/
def itemsText : List TextItem → List Char
  | [] => []
  | [i] => itemText i
  | i :: j :: rest => itemText i ++ ", ".toList ++ itemsText (j :: rest)

/-- The operand of `AM.ENC`: the record, or the reserved type signal of a bundle that stands for none (R73). -/
def bundleText (b : InfoBundle) : List Char :=
  match infoOf b with
  | some i => renderInfo i
  | none => "info with type signal = ".toList ++ decimal b.typeSig.toNat

/-- The identity operands under their names in R72. -/
def requesterItems (my : Requester) : List TextItem :=
  [numberItem "my_pxn" my.pxn.toNat, numberItem "my_pod" my.pod.toNat, numberItem "my_core" my.core.toNat]

/-- An address word under its operand name, with the identity. -/
def wordItems (w : Word) (my : Requester) : List TextItem := numberItem "raw" w.toNat :: requesterItems my

/-- The mnemonic of an instruction (R72) or of an address word's format (R62). -/
def mnemonicText : Instr → String
  | .bfBits _ _ => "BF.BITS"
  | .bfMask _ _ => "BF.MASK"
  | .bfGet _ _ _ => "BF.GET"
  | .bfSet _ _ _ _ => "BF.SET"
  | .amCfg _ _ _ => "AM.CFG"
  | .amEnc _ => "AM.ENC"
  | .amDec _ _ => "AM.DEC"
  | .amField _ => "AM.FIELD"
  | .amStatus => "AM.STATUS"
  | .rbBanks _ _ => "RB.BANKS"
  | .rbTotal _ _ _ => "RB.TOTAL"
  | .rbRange _ _ _ _ => "RB.RANGE"
  | .rbL1sp _ _ _ _ => "RB.L1SP"
  | .rbL2sp _ _ _ _ _ _ => "RB.L2SP"
  | .rbDram _ _ _ _ _ => "RB.DRAM"
  | .absDram _ _ => "ABS_DRAM"
  | .absL2sp _ _ => "ABS_L2SP"
  | .absL1sp _ _ _ => "ABS_L1SP"
  | .absCtrl _ _ _ => "ABS_CTRL"
  | .relL1sp _ _ _ => "REL_L1SP"
  | .relL2sp _ _ _ => "REL_L2SP"
  | .relDram _ _ _ => "REL_DRAM"

/-- The operands of an instruction under their names in R72. -/
def operandItems : Instr → List TextItem
  | .bfBits hi lo => [numberItem "hi" hi.toNat, numberItem "lo" lo.toNat]
  | .bfMask hi lo => [numberItem "hi" hi.toNat, numberItem "lo" lo.toNat]
  | .bfGet hi lo word => [numberItem "hi" hi.toNat, numberItem "lo" lo.toNat, numberItem "word" word.toNat]
  | .bfSet hi lo word value =>
      [numberItem "hi" hi.toNat, numberItem "lo" lo.toNat, numberItem "word" word.toNat,
        numberItem "value" value.toNat]
  | .amCfg p o c => [numberItem "P" p, numberItem "O" o, numberItem "C" c]
  | .amEnc info => [⟨"", bundleText info⟩]
  | .amDec raw my => wordItems raw my
  | .amField fieldId => [numberItem "field_id" fieldId.toNat]
  | .amStatus => []
  | .rbBanks size step => [numberItem "interleave_size" size.toNat, numberItem "interleave_step" step.toNat]
  | .rbTotal memsize size step =>
      [numberItem "per_bank_memsize" memsize.toNat, numberItem "interleave_size" size.toNat,
        numberItem "interleave_step" step.toNat]
  | .rbRange memsize size step bank =>
      [numberItem "per_bank_memsize" memsize.toNat, numberItem "interleave_size" size.toNat,
        numberItem "interleave_step" step.toNat, numberItem "bank_index" bank.toNat]
  | .rbL1sp memsize pxn pod core =>
      [numberItem "per_bank_memsize" memsize.toNat, numberItem "pxn" pxn.toNat, numberItem "pod" pod.toNat,
        numberItem "core" core.toNat]
  | .rbL2sp memsize size step pxn pod bank =>
      [numberItem "per_bank_memsize" memsize.toNat, numberItem "interleave_size" size.toNat,
        numberItem "interleave_step" step.toNat, numberItem "pxn" pxn.toNat, numberItem "pod" pod.toNat,
        numberItem "bank" bank.toNat]
  | .rbDram memsize size step pxn bank =>
      [numberItem "per_bank_memsize" memsize.toNat, numberItem "interleave_size" size.toNat,
        numberItem "interleave_step" step.toNat, numberItem "pxn" pxn.toNat, numberItem "bank" bank.toNat]
  | .absDram low my => wordItems (absDramWord low) my
  | .absL2sp low my => wordItems (absL2spWord low) my
  | .absL1sp ids offset my => wordItems (absL1spWord ids offset) my
  | .absCtrl ids offset my => wordItems (absCtrlWord ids offset) my
  | .relL1sp reserved offset my => wordItems (relL1spWord reserved offset) my
  | .relL2sp reserved offset my => wordItems (relL2spWord reserved offset) my
  | .relDram reserved offset my => wordItems (relDramWord reserved offset) my

/-- The name of a status (R195). -/
def Error.text : Error → String
  | .configurationError => "ConfigurationError"
  | .invalidAddressKind => "InvalidAddressKind"
  | .fieldOverflow => "FieldOverflow"
  | .badOperand => "BadOperand"
  | .unknownOp => "UnknownOp"
  | .unknownField => "UnknownField"
  | .notConfigured => "NotConfigured"
  | .alreadyConfigured => "AlreadyConfigured"
  | .faulted => "Faulted"

/-- The results of a request that ends `OK`, under their names in R72. -/
def resultItems : Result → List TextItem
  | .done => [⟨"", "OK".toList⟩]
  | .bits n => [numberItem "bits" n.toNat]
  | .mask m => [numberItem "mask" m.toNat]
  | .value v => [numberItem "value" v.toNat]
  | .newWord w => [numberItem "word'" w.toNat]
  | .word w => [numberItem "word" w.toNat]
  | .decoded info canonical => [⟨"info", renderInfo info⟩, bitItem "canonical" canonical]
  | .fieldAbsent => [numberItem "present" 0]
  | .fieldAt hi lo => [numberItem "present" 1, numberItem "hi" hi.toNat, numberItem "lo" lo.toNat]
  | .status r =>
      [bitItem "configured" r.configured, bitItem "fault" r.fault, numberItem "cause" r.cause.toNat,
        numberItem "P" r.cfgP, numberItem "O" r.cfgO, numberItem "C" r.cfgC,
        numberItem "pxn_bits" r.pxnBits.toNat, numberItem "pod_bits" r.podBits.toNat,
        numberItem "core_bits" r.coreBits.toNat]
  | .banks n => [numberItem "banks" n.toNat]
  | .total n => [numberItem "total_size" n]
  | .range first last => [numberItem "start" first.toNat, numberItem "end" last.toNat]
  | .descriptor first last size step =>
      [numberItem "start" first.toNat, numberItem "end" last.toNat, numberItem "interleave_size" size.toNat,
        numberItem "interleave_step" step.toNat]

/-- What follows the arrow: the results, or `!` and the status. -/
def responseText : Response → List Char
  | .ok r => itemsText (resultItems r)
  | .error e => "!".toList ++ e.text.toList

/-- A request and its response as one line (R81). -/
def requestLine (i : Instr) (r : Response) : List Char :=
  (mnemonicText i).toList
    ++ (match operandItems i with
        | [] => []
        | items => " ".toList ++ itemsText items)
    ++ " -> ".toList ++ responseText r

end Sys2Proof.Machine
end

