-- ==== Sys2Proof/Tests/Slice0.lean ====
section
/-! SUPPORT. Tests/Slice0.lean: the model's own tests. Expected values are the spec's: the layouts of R55 to R61 and R72
written out bit by bit, and the vectors of spec/95_test_vectors.md. The last part shows, for every statement with
hypotheses, states and operands that meet them. -/

namespace Sys2Proof.Tests

open Sys2Proof.Machine

/-! ### Helpers -/

/-- What a run of one instruction shows on the response port. -/
def responseOf (o : Outcome) : Option Response :=
  match o with
  | .next t => t.response
  | .fault _ => none
  | .refused _ => none

/-- `cfg.FAULT` and `cfg.CAUSE` after one instruction. -/
def faultOf (o : Outcome) : Option (Bool × BitVec 4) :=
  match o with
  | .next t => some (t.fault, t.cause)
  | .fault _ => none
  | .refused _ => none

/-- The seven registers of the map after one instruction. -/
def mapOf (o : Outcome) : Option (Bool × List Nat) :=
  match o with
  | .next t => some (t.configured, [t.cfgP, t.cfgO, t.cfgC, t.pxnBits.toNat, t.podBits.toNat, t.coreBits.toNat])
  | .fault _ => none
  | .refused _ => none

/-- A codec that has just executed `AM.CFG p,o,c` (R130). -/
def mapped (p o c : Nat) : State := State.reset.configure p o c

/-- A halted codec. -/
def halted : State := { State.reset with fault := true, cause := 7 }

/-- A state whose host has these events left. -/
def queued (s : State) (es : List Event) : State := { s with pending := es }

/-- The bits of a request, written as a number below 2^256. -/
def requestBits (n : Nat) : Wire := .request ((BitVec.ofNat 256 n).setWidth 325)

/-- The bits of an address word and its requester's identity, written as numbers. -/
def addressInput (w x y z : Nat) : Wire := .address (BitVec.ofNat 160 (w + x * 2 ^ 64 + y * 2 ^ 96 + z * 2 ^ 128))

/-! ### Well-formedness: each check refuses an ill-formed term -/

theorem test_wf_count_p : WellFormed (.amCfg (2 ^ 32) 1 1) = false := by decide
theorem test_wf_count_o : WellFormed (.amCfg 1 (2 ^ 32) 1) = false := by decide
theorem test_wf_count_c : WellFormed (.amCfg 1 1 (2 ^ 32)) = false := by decide
theorem test_wf_largest_counts : WellFormed (.amCfg (2 ^ 32 - 1) (2 ^ 32 - 1) (2 ^ 32 - 1)) = true := by decide

/-! ### Decoding: one word written out for every constructor (R72, R73, R55 to R61; log entry 2) -/

theorem test_decode_bfBits : decode (requestBits (0x00 + 28 * 2 ^ 5 + 1 * 2 ^ 11)) = .ok (.bfBits 28 1) := rfl
theorem test_decode_bfMask : decode (requestBits (0x01 + 59 * 2 ^ 5 + 58 * 2 ^ 11)) = .ok (.bfMask 59 58) := rfl
theorem test_decode_bfGet : decode (requestBits (0x02 + 31 * 2 ^ 5 + 16 * 2 ^ 11 + 0x0123456789ABCDEF * 2 ^ 17))
    = .ok (.bfGet 31 16 0x0123456789ABCDEF) := rfl
theorem test_decode_bfSet :
    decode (requestBits (0x03 + 31 * 2 ^ 5 + 16 * 2 ^ 11 + 0x0123456789ABCDEF * 2 ^ 17 + 0x1BEEF * 2 ^ 81))
    = .ok (.bfSet 31 16 0x0123456789ABCDEF 0x1BEEF) := rfl
theorem test_decode_amCfg : decode (requestBits (0x08 + 2 * 2 ^ 5 + 4 * 2 ^ 37 + 8 * 2 ^ 69)) = .ok (.amCfg 2 4 8) := rfl
theorem test_decode_amEnc :
    decode (requestBits (0x09 + 1 * 2 ^ 5 + 1 * 2 ^ 8 + 0x100 * 2 ^ 9 + 1 * 2 ^ 73 + 0 * 2 ^ 74 + 1 * 2 ^ 75
      + 1 * 2 ^ 76 + 2 * 2 ^ 108 + 5 * 2 ^ 140))
    = .ok (.amEnc ⟨1, true, 0x100, true, false, true, 1, 2, 5⟩) := rfl
theorem test_decode_amDec :
    decode (requestBits (0x0A + 0x9A80000000000100 * 2 ^ 5 + 1 * 2 ^ 69 + 2 * 2 ^ 101 + 5 * 2 ^ 133))
    = .ok (.amDec 0x9A80000000000100 ⟨1, 2, 5⟩) := rfl
theorem test_decode_amField : decode (requestBits (0x0B + 6 * 2 ^ 5)) = .ok (.amField 6) := rfl
theorem test_decode_amStatus : decode (requestBits 0x0C) = .ok .amStatus := rfl
theorem test_decode_rbBanks : decode (requestBits (0x10 + 4096 * 2 ^ 5 + 16384 * 2 ^ 69)) = .ok (.rbBanks 4096 16384) :=
  rfl
theorem test_decode_rbTotal : decode (requestBits (0x11 + 256 * 2 ^ 5 + 64 * 2 ^ 69 + 512 * 2 ^ 133))
    = .ok (.rbTotal 256 64 512) := rfl
theorem test_decode_rbRange : decode (requestBits (0x12 + 256 * 2 ^ 5 + 64 * 2 ^ 69 + 512 * 2 ^ 133 + 3 * 2 ^ 197))
    = .ok (.rbRange 256 64 512 3) := rfl
theorem test_decode_rbL1sp : decode (requestBits (0x13 + 131072 * 2 ^ 5 + 1 * 2 ^ 69 + 2 * 2 ^ 101 + 5 * 2 ^ 133))
    = .ok (.rbL1sp 131072 1 2 5) := rfl
theorem test_decode_rbL2sp :
    decode (.request ((BitVec.ofNat 69 (3 * 2 ^ 5)
      ++ BitVec.ofNat 256 (0x14 + 262144 * 2 ^ 5 + 64 * 2 ^ 69 + 256 * 2 ^ 133 + 1 * 2 ^ 197 + 2 * 2 ^ 229)).setWidth 325))
    = .ok (.rbL2sp 262144 64 256 1 2 3) := rfl
theorem test_decode_rbDram :
    decode (requestBits (0x15 + 536870912 * 2 ^ 5 + 64 * 2 ^ 69 + 256 * 2 ^ 133 + 1 * 2 ^ 197 + 3 * 2 ^ 229))
    = .ok (.rbDram 536870912 64 256 1 3) := rfl
theorem test_decode_unused_code : decode (requestBits 0x16) = .error (.unknownOp 0x16) := rfl

theorem test_decode_absDram : decode (addressInput 0xD000000020000040 1 2 5)
    = .ok (.absDram 0x1000000020000040 ⟨1, 2, 5⟩) := rfl
theorem test_decode_absDram_bit61 : decode (addressInput 0xE000000000000000 1 2 5)
    = .ok (.absDram 0x2000000000000000 ⟨1, 2, 5⟩) := rfl
theorem test_decode_absL2sp : decode (addressInput 0xBC00000000012345 1 2 5)
    = .ok (.absL2sp 0x1C00000000012345 ⟨1, 2, 5⟩) := rfl
theorem test_decode_absL1sp : decode (addressInput 0x9A80000000000100 1 2 5)
    = .ok (.absL1sp 0x6A000000 0x100 ⟨1, 2, 5⟩) := rfl
theorem test_decode_absCtrl : decode (addressInput 0x9A80000020000100 1 2 5)
    = .ok (.absCtrl 0x6A000000 0x100 ⟨1, 2, 5⟩) := rfl
theorem test_decode_relL1sp : decode (addressInput 0x000000001FFFFFFF 1 2 5)
    = .ok (.relL1sp 0 0x1FFFFFFF ⟨1, 2, 5⟩) := rfl
theorem test_decode_relL2sp : decode (addressInput 0x0000000120000040 1 2 5)
    = .ok (.relL2sp 2 0x40 ⟨1, 2, 5⟩) := rfl
theorem test_decode_relDram : decode (addressInput 0x0000000060000000 1 2 5)
    = .ok (.relDram 0 0x20000000 ⟨1, 2, 5⟩) := rfl

/-! ### The instructions, on the vectors of spec/95_test_vectors.md -/

theorem test_bfBits : responseOf (exec (.bfBits 28 0) State.reset) = some (.ok (.bits 29)) := by decide
theorem test_bfBits_refused : faultOf (exec (.bfBits 3 4) State.reset) = some (true, 4) := by decide
theorem test_bfMask_whole_word : responseOf (exec (.bfMask 63 0) State.reset) = some (.ok (.mask 0xFFFFFFFFFFFFFFFF)) := by
  decide
theorem test_bfGet : responseOf (exec (.bfGet 31 16 0x0123456789ABCDEF) State.reset) = some (.ok (.value 0x89AB)) := by
  decide
theorem test_bfSet_drops_high_bits : responseOf (exec (.bfSet 31 16 0x0123456789ABCDEF 0x1BEEF) State.reset)
    = some (.ok (.newWord 0x01234567BEEFCDEF)) := by decide
theorem test_bfSet_whole_word : responseOf (exec (.bfSet 63 0 0x1234 0xDEADBEEFCAFEF00D) State.reset)
    = some (.ok (.newWord 0xDEADBEEFCAFEF00D)) := by decide

theorem test_amCfg_widths : mapOf (exec (.amCfg 1025 1024 1024) State.reset)
    = some (true, [1025, 1024, 1024, 11, 10, 10]) := by decide
theorem test_amCfg_over_budget : (faultOf (exec (.amCfg (2 ^ 31 + 1) 1 1) State.reset),
    mapOf (exec (.amCfg (2 ^ 31 + 1) 1 1) State.reset)) = (some (true, 1), some (false, [0, 0, 0, 0, 0, 0])) := by decide
theorem test_amEnc : responseOf (exec (.amEnc (bundleOf (absL1spInfo 1 2 5 0x100))) (mapped 2 4 8))
    = some (.ok (.word 0x9A80000000000100)) := by decide
/-- The source's error scenario S5: the outcome does not depend on the draws of the fresh record. -/
theorem test_amEnc_relative_ctrl (n : Nat) :
    exec (.amEnc (bundleOf (setCoreCtrl (setRelative (freshInfo n))))) (mapped 2 4 8)
      = .next ((mapped 2 4 8).haltsWith .invalidAddressKind 2) := rfl
theorem test_overflow_reject : encodeInfo .reject (mapped 2 4 8).layout (absL1spInfo 1 2 5 0x20000100)
    = .error .fieldOverflow := by rfl
theorem test_overflow_mask : encodeInfo .mask (mapped 2 4 8).layout (absL1spInfo 1 2 5 0x20000100)
    = .ok 0x9A80000000000100 := by rfl
theorem test_amDec_relative : responseOf (exec (.amDec 0x60000000 ⟨9, 2, 5⟩) (mapped 2 4 8))
    = some (.ok (.decoded ⟨some .dram, .relative, 0x20000000, some 9, some 2, some 5⟩ true)) := by decide
theorem test_amDec_not_canonical : responseOf (exec (.amDec 0x9AFFFFFFC0000100 ⟨1, 2, 5⟩) (mapped 2 4 8))
    = some (.ok (.decoded ⟨some .l1sp, .absolute, 0x100, some 1, some 2, some 5⟩ false)) := by decide
theorem test_amField : responseOf (exec (.amField 6) (mapped 2 4 8)) = some (.ok (.fieldAt 57 55)) := by decide
theorem test_amField_absent : responseOf (exec (.amField 4) (mapped 1 1 1)) = some (.ok .fieldAbsent) := by decide
theorem test_amStatus_after_reset : responseOf (exec .amStatus State.reset)
    = some (.ok (.status ⟨false, false, 0, 0, 0, 0, 0, 0, 0⟩)) := by decide
theorem test_amStatus_halted : responseOf (exec .amStatus ((mapped 2 4 8).haltsWith .unknownField 6))
    = some (.ok (.status ⟨true, true, 6, 2, 4, 8, 1, 2, 3⟩)) := by decide

theorem test_rbBanks : responseOf (exec (.rbBanks 4096 16384) State.reset) = some (.ok (.banks 4)) := by decide
theorem test_rbBanks_zero_step : faultOf (exec (.rbBanks 64 0) State.reset) = some (true, 1) := by decide
theorem test_rbTotal : responseOf (exec (.rbTotal 1048576 4096 16384) State.reset) = some (.ok (.total 4194304)) := by
  decide
theorem test_rbRange_first : responseOf (exec (.rbRange 256 64 256 0) State.reset) = some (.ok (.range 0 831)) := by decide
theorem test_rbRange_last : responseOf (exec (.rbRange 256 64 256 3) State.reset) = some (.ok (.range 192 1023)) := by
  decide
theorem test_rbL1sp : responseOf (exec (.rbL1sp 131072 0 0 5) (mapped 1 1 8))
    = some (.ok (.descriptor 0x9400000000000000 0x940000000001FFFF 0 0)) := by decide
theorem test_rbL2sp : responseOf (exec (.rbL2sp 262144 64 256 1 2 3) (mapped 2 4 8))
    = some (.ok (.descriptor 0xB8000000000000C0 0xB8000000000FFFFF 64 256)) := by decide
theorem test_rbDram : responseOf (exec (.rbDram 536870912 64 256 1 2) (mapped 2 4 8))
    = some (.ok (.descriptor 0xD000000000000080 0xD00000007FFFFFBF 64 256)) := by decide
theorem test_rbDram_not_configured : faultOf (exec (.rbDram 0 64 100 0 9) State.reset) = some (true, 7) := by decide

theorem test_absDram : responseOf (exec (.absDram 0x3000000000000040 ⟨1, 2, 5⟩) (mapped 2 4 8))
    = some (.ok (.decoded ⟨some .dram, .absolute, 0x40, some 1, none, none⟩ false)) := by decide
theorem test_absL2sp : responseOf (exec (.absL2sp 0x1C00000000012345 ⟨0, 0, 7⟩) (mapped 3 5 7))
    = some (.ok (.decoded ⟨some .l2sp, .absolute, 0x12345, some 3, some 4, none⟩ true)) := by decide
theorem test_absL1sp : responseOf (exec (.absL1sp 0x6A000000 0x100 ⟨0, 0, 0⟩) (mapped 3 5 7))
    = some (.ok (.decoded ⟨some .l1sp, .absolute, 0x100, some 3, some 2, some 4⟩ true)) := by decide
theorem test_absCtrl : responseOf (exec (.absCtrl 0x6A000001 0x100 ⟨0, 0, 0⟩) (mapped 2 4 8))
    = some (.ok (.decoded ⟨some .ctrl, .absolute, 0x100, some 1, some 2, some 5⟩ false)) := by decide
theorem test_relL1sp : responseOf (exec (.relL1sp 1 0x10 ⟨1, 3, 7⟩) (mapped 2 4 8))
    = some (.ok (.decoded ⟨some .l1sp, .relative, 0x10, some 1, some 3, some 7⟩ false)) := by decide
theorem test_relL2sp : responseOf (exec (.relL2sp 0 0x40 ⟨1, 3, 7⟩) (mapped 2 4 8))
    = some (.ok (.decoded ⟨some .l2sp, .relative, 0x40, some 1, some 3, some 7⟩ true)) := by decide
theorem test_relDram : responseOf (exec (.relDram 0 0x20000000 ⟨1, 2, 5⟩) (mapped 2 4 8))
    = some (.ok (.decoded ⟨some .dram, .relative, 0x20000000, some 1, some 2, some 5⟩ true)) := by decide

/-! ### Steps, the record functions and the text -/

theorem test_step_idles : step State.reset = .next State.reset := rfl
theorem test_fetched_word_runs : responseOf (step (State.reset.withFetchWord 8 0x00)) = some (.ok (.bits 1)) := by decide
theorem test_reset_unhalts : faultOf (step { halted with pending := [.reset] }) = some (false, 0) := by decide
theorem test_setters_overwrite_the_tier (n : Nat) :
    (isL1sp (setL1sp (setDram (freshInfo n))), isDram (setL1sp (setDram (freshInfo n)))) = (true, false) := rfl
theorem test_fresh_record_has_no_tier (n : Nat) :
    (isL1sp (freshInfo n) || isL2sp (freshInfo n) || isDram (freshInfo n) || isCoreCtrl (freshInfo n)) = false := rfl
theorem test_decoded_relative_record_is_not_strict :
    strictInfo (readInfo ⟨1, 2, 3⟩ .relDram 0x60000000 ⟨1, 2, 5⟩) = false := by decide
theorem test_rendering : renderInfo (absL1spInfo 1 2 5 0x100)
    = [Char.ofNat 123] ++ "abs L1SP pxn=1 pod=2 core=5 offset=0x100".toList ++ [Char.ofNat 125] := by decide
theorem test_request_line : requestLine (.bfBits 3 4) (.error .badOperand) = "BF.BITS hi=3, lo=4 -> !BadOperand".toList := by
  decide
theorem test_ownership_repeats_every_step :
    (owns 0 831 64 256 256, owns 0 831 64 256 320, owns 64 895 64 256 320) = (true, false, true) := by decide

/-! ### Witnesses: for every statement with hypotheses, values that meet all of them

`mapped 2 4 8` has widths 1, 2, 3; `mapped 1 1 1` has only empty fields; `mapped 1024 1024 2048` uses all 31 bits. -/

theorem witness_wellFormed : WellFormed (.amCfg (2 ^ 32 - 1) 0 1) = true := by decide

/-- `Ready` at an ordinary, at the smallest and at the largest layout. -/
theorem witness_ready : (mapped 2 4 8).Ready ∧ (mapped 1 1 1).Ready ∧ (mapped 1024 1024 2048).Ready
    ∧ (mapped (2 ^ 31) 1 1).Ready := ⟨by decide, by decide, by decide, by decide⟩
theorem witness_running : State.reset.Running ∧ (mapped 2 4 8).Running := by decide
theorem witness_unconfigured : State.reset.Unconfigured := by decide
theorem witness_halted : halted.fault = true := rfl

/-- A request with the lowest and one with the highest reserved code (`ReservedCodesAreUnknownOp`,
`HaltedCodecAnswersFaulted`). -/
theorem witness_reserved_code (s : State) :
    (queued s [.wire (requestBits 0x04), .reset]).pending = .wire (requestBits 0x04) :: [.reset]
    ∧ (∀ i, decode (requestBits 0x04) ≠ .ok i) ∧ (∀ i, decode (requestBits 0x1F) ≠ .ok i)
    ∧ ∃ i, decode (requestBits 0x15) = .ok i := by
  have h1 : decode (requestBits 0x04) = .error (.unknownOp 0x04) := rfl
  have h2 : decode (requestBits 0x1F) = .error (.unknownOp 0x1F) := rfl
  exact ⟨rfl, fun i h => by simp [h1] at h, fun i h => by simp [h2] at h, _, rfl⟩

/-- `StepRunsTheDecodedInstruction`. -/
theorem witness_step : (queued State.reset [.wire (requestBits 0x0C)]).pending = .wire (requestBits 0x0C) :: []
    ∧ decode (requestBits 0x0C) = .ok .amStatus ∧ decodeTableWord 8 0x0C = some .amStatus
    ∧ decodeTableWord 64 0xC000000000000000 = some (.absDram 0 ⟨0, 0, 0⟩) := ⟨rfl, rfl, rfl, rfl⟩

/-- `ResetEventUnconfigures`: a halted and configured codec with a later request. -/
theorem witness_reset_event : (queued ((mapped 2 4 8).haltsWith .fieldOverflow 3)
      [.reset, .wire (requestBits 0x0C)]).pending = .reset :: [.wire (requestBits 0x0C)] := rfl

/-- `StepKeepsInv`: from reset, through the configuring step. -/
theorem witness_step_keeps_inv : (queued State.reset [.wire (encode (.amCfg 2 4 8))]).Inv
    ∧ step (queued State.reset [.wire (encode (.amCfg 2 4 8))]) = .next ((mapped 2 4 8).gives .done) :=
  ⟨by decide, rfl⟩

/-- `FaultEntryWritesFaultAndCauseOnly`. -/
theorem witness_fault_entry : State.reset.fault = false
    ∧ exec (.amField 0) State.reset = .next (State.reset.haltsWith .notConfigured 7)
    ∧ (State.reset.haltsWith .notConfigured 7).response = some (.error .notConfigured) := ⟨rfl, rfl, rfl⟩

/-- `SuccessWritesNoRegister`. -/
theorem witness_success : (∀ p o c, (Instr.bfBits 28 0) ≠ .amCfg p o c)
    ∧ exec (.bfBits 28 0) State.reset = .next (State.reset.gives (.bits 29))
    ∧ (State.reset.gives (.bits 29)).lastFailed = false := ⟨fun _ _ _ h => (nomatch h), rfl, rfl⟩

/-- `MapIsImmutableUntilReset`. -/
theorem witness_immutable : (mapped 2 4 8).configured = true ∧ (mapped 2 4 8).Running
    ∧ (∀ rest, (queued (mapped 2 4 8) [.wire (encode (.amCfg 2 4 8))]).pending ≠ .reset :: rest)
    ∧ step (queued (mapped 2 4 8) [.wire (encode (.amCfg 2 4 8))])
      = .next ((mapped 2 4 8).haltsWith .alreadyConfigured 8) :=
  ⟨rfl, rfl, fun rest h => by simp [queued] at h, rfl⟩

/-- `FaultPersistsUntilReset`: a run of one request, the reset after it not yet reached. -/
theorem witness_fault_persists : halted.fault = true
    ∧ (∀ e ∈ (queued halted [.wire (requestBits 0x08), .reset]).pending.take 1, e ≠ .reset)
    ∧ Host.Core.run Sys2Proof.core 1 (queued halted [.wire (requestBits 0x08), .reset])
      = .next ((queued halted [.reset]).fail .faulted) :=
  ⟨rfl, by decide, rfl⟩

/-- `UnconfiguredRegistersAreUnobservable`: two states that differ in a register nothing can read. -/
theorem witness_unobservable : State.reset.LooksLike { State.reset with cfgP := 7, pxnBits := 3 }
    ∧ State.reset ≠ { State.reset with cfgP := 7, pxnBits := 3 } ∧ step State.reset = .next State.reset :=
  ⟨by decide, by decide, rfl⟩

/-- `ResponsesDoNotDependOnOrder`: two requests of different units. -/
theorem witness_order : (mapped 2 4 8).Running ∧ (mapped 2 4 8).configured = true
    ∧ ∀ e ∈ [Event.wire (encode (.amField 6)), .wire (encode (.bfBits 28 0))],
      ∃ r, State.trace 1 (queued (mapped 2 4 8) [e]) = [some (.ok r)] := by
  refine ⟨rfl, rfl, ?_⟩
  intro e he
  rcases List.mem_cons.mp he with rfl | he
  · exact ⟨.fieldAt 57 55, rfl⟩
  · rcases List.mem_cons.mp he with rfl | he
    · exact ⟨.bits 29, rfl⟩
    · cases he

/-- The bounds of the bitfield operations, and two disjoint fields that touch (`BitfieldLaws`). -/
theorem witness_bounds : (0#6).toNat ≤ (63#6).toNat ∧ (63#6).toNat ≤ (63#6).toNat ∧ (62#6).toNat < (63#6).toNat
    ∧ (0 ≤ 28 ∧ 28 ≤ 63 ∧ 29 ≤ 63 ∧ 63 ≤ 63 ∧ (28 < 29 ∨ 63 < 0)) := by decide

/-- `BitlengthIsTheLeastWidth` and `CfgBuildsTheMapOrFails`: budgets of 31 bits and of 32. -/
theorem witness_budget : Nat.clog 2 1024 + Nat.clog 2 1024 + Nat.clog 2 2048 ≤ 31
    ∧ 31 < Nat.clog 2 2048 + Nat.clog 2 1024 + Nat.clog 2 2048 ∧ Nat.clog 2 (2 ^ 31) + Nat.clog 2 1 + Nat.clog 2 1 ≤ 31 := by
  rw [show (1024 : Nat) = 2 ^ 10 by decide, show (2048 : Nat) = 2 ^ 11 by decide, Nat.clog_pow 2 10 (by decide),
    Nat.clog_pow 2 11 (by decide), Nat.clog_pow 2 31 (by decide), Nat.clog_one_right]
  decide

/-- The encode statements: values that fit their fields exactly, and values one too wide, at an ordinary layout and
at one whose fields are empty. -/
theorem witness_fits : ((1#32).toNat < 2 ^ (mapped 2 4 8).pxnBits.toNat ∧ ¬ (2#32).toNat < 2 ^ (mapped 2 4 8).pxnBits.toNat)
    ∧ ((0#32).toNat < 2 ^ (mapped 1 1 1).pxnBits.toNat ∧ ¬ (1#32).toNat < 2 ^ (mapped 1 1 1).pxnBits.toNat)
    ∧ ((3#32).toNat < 2 ^ (mapped 2 4 8).podBits.toNat ∧ ¬ (4#32).toNat < 2 ^ (mapped 2 4 8).podBits.toNat)
    ∧ ((7#32).toNat < 2 ^ (mapped 2 4 8).coreBits.toNat ∧ ¬ (8#32).toNat < 2 ^ (mapped 2 4 8).coreBits.toNat)
    ∧ ((0xFFFFFFFFFFFFFFF#64).toNat < 2 ^ (61 - (mapped 2 4 8).pxnBits.toNat)
      ∧ ¬ (0x1000000000000000#64).toNat < 2 ^ (61 - (mapped 2 4 8).pxnBits.toNat))
    ∧ ((0x3FFFFFFFFFFFFFF#64).toNat < 2 ^ (61 - (mapped 2 4 8).pxnBits.toNat - (mapped 2 4 8).podBits.toNat)
      ∧ ¬ (0x400000000000000#64).toNat < 2 ^ (61 - (mapped 2 4 8).pxnBits.toNat - (mapped 2 4 8).podBits.toNat))
    ∧ ((0x1FFFFFFF#64).toNat < 2 ^ 29 ∧ 2 ^ 29 ≤ (0x20000000#64).toNat)
    ∧ ((0x3FFFFFFF#64).toNat < 2 ^ 30 ∧ 2 ^ 30 ≤ (0x40000000#64).toNat) := by decide

/-- `InvalidAddressKindCauses`: a bundle for each cause; the first also serves a layout without any id field. -/
theorem witness_invalid_kinds :
    (∃ i, infoOf ⟨0, true, 0, true, true, true, 0, 0, 0⟩ = some i ∧ i.tier = none)
    ∧ (∃ i, infoOf ⟨4, false, 0, true, true, true, 0, 0, 0⟩ = some i ∧ i.mode = .relative ∧ i.tier = some .ctrl)
    ∧ (∃ i, infoOf ⟨3, true, 0, false, true, true, 0, 0, 0⟩ = some i ∧ i.mode = .absolute ∧ i.pxn = none)
    ∧ (∃ i, infoOf ⟨2, true, 0, true, false, true, 0, 0, 0⟩ = some i ∧ i.mode = .absolute ∧ i.tier ≠ some .dram
        ∧ i.pod = none)
    ∧ (∃ i, infoOf ⟨4, true, 0, true, true, false, 0, 0, 0⟩ = some i ∧ i.mode = .absolute ∧ i.tier = some .ctrl
        ∧ i.core = none)
    ∧ responseOf (exec (.amEnc ⟨0, true, 0, true, true, true, 0, 0, 0⟩) (mapped 1 1 1))
      = some (.error .invalidAddressKind) :=
  ⟨⟨_, rfl, rfl⟩, ⟨_, rfl, rfl, rfl⟩, ⟨_, rfl, rfl, rfl⟩, ⟨_, rfl, rfl, by decide, rfl⟩, ⟨_, rfl, rfl, rfl, rfl⟩,
    by decide⟩

/-- `ReservedTypeSignalIsBadOperand`: the lowest and the highest reserved code. -/
theorem witness_reserved_type : 5 ≤ (⟨5, true, 0, true, true, true, 0, 0, 0⟩ : InfoBundle).typeSig.toNat
    ∧ 5 ≤ (⟨7, false, 0, false, false, false, 0, 0, 0⟩ : InfoBundle).typeSig.toNat := by decide

/-- `EncodedWordHasItsFormat` and `EncodeIsInjectiveOnFittingRecords`: a masked record, two records that fit and encode
to one word, and a reserved bit of that word. -/
theorem witness_encoded : (1 + 2 + 3 ≤ 31)
    ∧ encodeInfo .mask ⟨1, 2, 3⟩ (absL1spInfo 3 6 13 0x20000100) = .ok 0x9A80000000000100
    ∧ encodeInfo .reject ⟨1, 2, 3⟩ (absL1spInfo 1 2 5 0x100) = .ok 0x9A80000000000100
    ∧ encodeInfo .reject ⟨1, 2, 3⟩ (relDramInfo 0x40) = .ok 0x40000040
    ∧ encodeInfo .reject ⟨1, 2, 3⟩ (setPxn 9 (relDramInfo 0x40)) = .ok 0x40000040
    ∧ fitsInfo ⟨1, 2, 3⟩ (relDramInfo 0x40) = true ∧ fitsInfo ⟨1, 2, 3⟩ (setPxn 9 (relDramInfo 0x40)) = true
    ∧ relDramInfo 0x40 ≠ setPxn 9 (relDramInfo 0x40)
    ∧ reservedAt 1 2 3 (classify 0x9A80000000000100) 30 = true ∧ reservedAt 1 2 3 (classify 0x9A80000000000100) 54 = true :=
  ⟨by decide, rfl, rfl, rfl, rfl, by decide, by decide, by decide, by decide, by decide⟩

/-- The decode statements: a word for each branch. -/
theorem witness_selectors :
    ((0xE000000000000000#64).getLsbD 63 = true ∧ (0xE000000000000000#64).getLsbD 62 = true)
    ∧ ((0xA000000000000000#64).getLsbD 63 = true ∧ (0xA000000000000000#64).getLsbD 62 = false
      ∧ (0xA000000000000000#64).getLsbD 61 = true)
    ∧ ((0x8000000020000000#64).getLsbD 63 = true ∧ (0x8000000020000000#64).getLsbD 62 = false
      ∧ (0x8000000020000000#64).getLsbD 61 = false)
    ∧ ((0x60000000#64).getLsbD 63 = false ∧ (0x60000000#64).getLsbD 30 = true)
    ∧ ((0x20000000#64).getLsbD 63 = false ∧ (0x20000000#64).getLsbD 30 = false) := by decide

/-- `DecodeOfEncodeIsTheRecord`. -/
theorem witness_round_trip : infoOf (bundleOf (absCtrlInfo 1 3 7 0x1FFFFFFF)) = some (absCtrlInfo 1 3 7 0x1FFFFFFF)
    ∧ validInfo (absCtrlInfo 1 3 7 0x1FFFFFFF) = true
    ∧ fitsInfo (mapped 2 4 8).layout (absCtrlInfo 1 3 7 0x1FFFFFFF) = true := by decide

/-- The region parameters: no interleaving, an ordinary region with its last bank, a bank size that is no whole number
of chunks, and the largest end; then what the checks turn away, each at its boundary. -/
theorem witness_ranges_accepted : RangeAccepts 1 0 7 0 ∧ RangeAccepts 256 64 256 3 ∧ RangeAccepts 100 64 128 1
    ∧ RangeAccepts (2 ^ 64 - 1) 0 0 0 := ⟨by decide, by decide, by decide, by decide⟩
theorem witness_ranges_refused : ¬ RangeAccepts 256 64 256 4 ∧ ¬ RangeAccepts 0 0 0 0 ∧ ¬ RangeAccepts 63 64 256 0
    ∧ ¬ RangeAccepts 256 64 0 0 ∧ ¬ RangeAccepts 256 64 100 0 ∧ ¬ RangeAccepts (2 ^ 63 + 1) 1 2 1 :=
  ⟨by decide, by decide, by decide, by decide, by decide, by decide⟩
theorem witness_steps : StepLegal 0 7 ∧ StepLegal 64 64 ∧ ¬ StepLegal 64 0 ∧ ¬ StepLegal 64 100 := by decide

/-- The specialisations: a last offset that fits its window exactly and one that does not. -/
theorem witness_window_ends : RangeAccepts (2 ^ 60) 0 0 0 ∧ lastOffset (2 ^ 60) 0 0 0 < 2 ^ (61 - (mapped 2 4 8).pxnBits.toNat)
    ∧ RangeAccepts (2 ^ 60 + 1) 0 0 0
    ∧ ¬ lastOffset (2 ^ 60 + 1) 0 0 0 < 2 ^ (61 - (mapped 2 4 8).pxnBits.toNat)
    ∧ (0 < (0x20000000#64).toNat ∧ (0x20000000#64).toNat ≤ 2 ^ 29 ∧ ¬ (0x20000001#64).toNat ≤ 2 ^ 29) := by decide

/-- `EnvelopesCoverTheRegion`: a region of 1024 offsets and one that fills the 64-bit space. -/
theorem witness_coverage : StepLegal 64 256 ∧ 0 < 256 ∧ 64 ≤ 256 ∧ 256 * bankNumber 64 256 ≤ 2 ^ 64
    ∧ StepLegal (2 ^ 62) (2 ^ 63) ∧ 2 ^ 62 ≤ 2 ^ 63 ∧ 2 ^ 63 * bankNumber (2 ^ 62) (2 ^ 63) ≤ 2 ^ 64 := by decide

/-- `OwnerIsTheChunkNumberModuloBanks` and `EveryBankOwnsItsMemsize`. -/
theorem witness_descriptor : 0 < 64 ∧ 64 ∣ 256
    ∧ exec (.rbRange 256 64 256 3) State.reset = .next (State.reset.gives (.range 192 1023))
    ∧ exec (.rbRange 5 0 0 0) State.reset = .next (State.reset.gives (.range 0 4)) := ⟨by decide, by decide, rfl, rfl⟩

/-- `EveryOffsetHasOneAnsweredOwner`: an interleaved region with its last offset, one that fills the 64-bit space, and
one without interleaving. -/
theorem witness_partition :
    (StepLegal 64 256 ∧ 64 ∣ 256 ∧ 256 * bankNumber 64 256 ≤ 2 ^ 64 ∧ 1023 < 256 * bankNumber 64 256)
    ∧ (StepLegal (2 ^ 62) (2 ^ 63) ∧ 2 ^ 62 ∣ 2 ^ 63 ∧ 2 ^ 63 * bankNumber (2 ^ 62) (2 ^ 63) ≤ 2 ^ 64
      ∧ 2 ^ 64 - 1 < 2 ^ 63 * bankNumber (2 ^ 62) (2 ^ 63))
    ∧ (StepLegal 0 7 ∧ 0 < 5 ∧ 5 * bankNumber 0 7 ≤ 2 ^ 64 ∧ 4 < 5 * bankNumber 0 7) :=
  ⟨by decide, by decide, by decide⟩

/-- The unset coordinate of a record that is not valid: it fits, and two records that lack it are the same address
(log entries 16 and 17); encoding refuses both. -/
theorem test_unset_coordinate : fitsInfo ⟨1, 2, 3⟩ (setDram (setAbsolute (relDramInfo 0x40))) = true
    ∧ sameAddress (setDram (setAbsolute (relDramInfo 0x40))) (setDram (setAbsolute (relDramInfo 0x40))) = true
    ∧ encodeInfo .reject ⟨1, 2, 3⟩ (setDram (setAbsolute (relDramInfo 0x40))) = .error .invalidAddressKind :=
  ⟨by decide, by decide, rfl⟩

/-- `L1spWindowsOfTwoCoresAreDisjoint`: cores 5 and 6 of scenario S3, and the largest window. -/
theorem witness_two_cores : (mapped 1 1 8).Ready ∧ 0 < (131072#64).toNat ∧ (2 ^ 29 : Nat) ≤ 2 ^ 29
    ∧ (0#32).toNat < 2 ^ (mapped 1 1 8).pxnBits.toNat ∧ (0#32).toNat < 2 ^ (mapped 1 1 8).podBits.toNat
    ∧ (5#32).toNat < 2 ^ (mapped 1 1 8).coreBits.toNat ∧ (6#32).toNat < 2 ^ (mapped 1 1 8).coreBits.toNat
    ∧ ¬ ((0#32) = 0#32 ∧ (0#32) = 0#32 ∧ (5#32) = 6#32) := by decide

/-- `RenderingTellsAddressesApart`: two records that render alike and one that does not. -/
theorem witness_rendering : (∀ k ∈ carried (absDramInfo 1 0x40), (coordOf (absDramInfo 1 0x40) k).isSome = true)
    ∧ (∀ k ∈ carried (setPod 3 (absDramInfo 1 0x40)), (coordOf (setPod 3 (absDramInfo 1 0x40)) k).isSome = true)
    ∧ (∀ k ∈ carried (relL2spInfo 0x40), (coordOf (relL2spInfo 0x40) k).isSome = true) := by decide

end Sys2Proof.Tests
end

section
/-! The width of an id field (R8): `bitlength` by its two cases, then as the least width that holds a number. -/

namespace Sys2Proof.Machine

@[simp] theorem bitlength_zero : bitlength 0 = 0 := rfl

theorem bitlength_of_ne_zero {m : Nat} (hm : m ≠ 0) : bitlength m = Nat.log2 m + 1 := if_neg hm

/-- `k` binary digits are enough for `m` exactly when `m` is below `2 ^ k`. -/
theorem bitlength_le_iff_lt_two_pow (m k : Nat) : bitlength m ≤ k ↔ m < 2 ^ k := by
  by_cases hm : m = 0
  · simp [hm]
  · calc bitlength m ≤ k ↔ Nat.log2 m < k := by rw [bitlength_of_ne_zero hm, Nat.add_one_le_iff]
      _ ↔ m < 2 ^ k := Nat.log2_lt hm

/-- Settles O24: the largest id of `n` is `n - 1`, and it is below `2 ^ k` exactly when `n` is at most `2 ^ k`. -/
theorem bitlengthIsTheLeastWidth : Obligations.BitlengthIsTheLeastWidth := by
  intro n k hn
  calc bitlength (n - 1) ≤ k ↔ n - 1 < 2 ^ k := bitlength_le_iff_lt_two_pow (n - 1) k
    _ ↔ n ≤ 2 ^ k := by omega

end Sys2Proof.Machine
end

section
/-! How a request ends (R71, R200, R201; R130 for `AM.CFG`) as one relation, with the invariant and the frame of the map
registers read off its four cases, and from them the statements about every step. -/

namespace Sys2Proof.Machine

/-! ### The four ways a request ends -/

theorem exec_amCfg_eq (p o c : Nat) (s : State) : exec (.amCfg p o c) s = attempt s (buildMap s p o c) := rfl

theorem exec_amStatus_eq (s : State) : exec .amStatus s = .next (s.gives (.status (statusReport s))) := rfl

/-- All that a request taken from the inputs can make of the state. -/
inductive RequestEnds (s : State) : State → Prop where
  | answered (r : Result) : RequestEnds s (s.gives r)
  | turnedAway (halted : s.fault = true) : RequestEnds s (s.fail .faulted)
  | failed (e : Error) (sets : e.setsFault = true) : RequestEnds s (s.fail e)
  | built (p o c : Nat) (fresh : s.configured = false) (hp : 1 ≤ p) (ho : 1 ≤ o) (hc : 1 ≤ c)
      (budget : idBits p o c ≤ 31) : RequestEnds s ((s.configure p o c).gives .done)

theorem requestEnds_of_exec {i : Instr} {s t : State} (h : exec i s = .next t) : RequestEnds s t := by
  rcases exec_next_cases h with ⟨_, rfl⟩ | ⟨_, hf, rfl⟩ | ⟨_, p, o, c, _, hu, hp, ho, hc, hw, rfl⟩
    | ⟨_, _, r, rfl⟩ | ⟨_, e, he, rfl⟩
  · exact .answered _
  · exact .turnedAway hf
  · exact .built p o c hu hp ho hc hw
  · exact .answered r
  · exact .failed e he

theorem requestEnds_of_refuseUnknownOp {s t : State} (h : refuseUnknownOp s = .next t) : RequestEnds s t := by
  rcases attempt_next_cases h with ⟨hf, rfl⟩ | ⟨_, _, _, hr, _⟩ | ⟨_, e, hr, rfl⟩
  · exact .turnedAway hf
  · cases hr
  · cases hr
    exact .failed .unknownOp rfl

/-- A step idles, resets, or ends the request it takes from the inputs. -/
theorem step_next_cases {s t : State} (h : step s = .next t) :
    t = s
      ∨ (∃ rest, s.pending = .reset :: rest ∧ t = { s with pending := rest }.applyReset)
      ∨ ∃ rest, RequestEnds { s with pending := rest } t := by
  rcases step_cases s with ⟨_, hs⟩ | ⟨rest, hp, hs⟩ | ⟨_, rest, _, _, _, hs⟩ | ⟨_, rest, _, _, _, hs⟩
  · rw [hs] at h; cases h
    exact .inl rfl
  · rw [hs] at h; cases h
    exact .inr (.inl ⟨rest, hp, rfl⟩)
  · exact .inr (.inr ⟨rest, requestEnds_of_exec (hs ▸ h)⟩)
  · exact .inr (.inr ⟨rest, requestEnds_of_refuseUnknownOp (hs ▸ h)⟩)

/-! ### The invariant of the registers -/

@[simp] theorem State.lastFailed_gives (s : State) (r : Result) : (s.gives r).lastFailed = false := rfl
@[simp] theorem State.lastFailed_fail (s : State) (e : Error) : (s.fail e).lastFailed = true := rfl

/-- Settles O8: no map, no fault and no response yet. -/
theorem invHoldsAtReset : Obligations.InvHoldsAtReset := by
  refine ⟨?mapLegal, ?causeLegal, ?failureHalts⟩
  case mapLegal => exact fun h => nomatch h
  case causeLegal => rfl
  case failureHalts => exact fun h => nomatch h

theorem State.Inv.gives {s : State} (h : s.Inv) (r : Result) : (s.gives r).Inv := by
  obtain ⟨hmap, hcause, _⟩ := h
  exact ⟨hmap, hcause, fun hl => nomatch hl⟩

theorem State.Inv.fail_faulted {s : State} (h : s.Inv) (hf : s.fault = true) : (s.fail .faulted).Inv := by
  obtain ⟨hmap, hcause, _⟩ := h
  rw [State.fail_faulted]
  exact ⟨hmap, hcause, fun _ => hf⟩

/-- Fault entry records a code 1 to 8, whatever the cause was before. -/
theorem State.Inv.fail {s : State} (h : s.Inv) {e : Error} (he : e.setsFault = true) : (s.fail e).Inv := by
  obtain ⟨hmap, _, _⟩ := h
  rw [State.fail_eq_haltsWith s e he]
  exact ⟨hmap, Error.code_range e he, fun _ => rfl⟩

/-- A width within the budget is stored without loss in its 5-bit register. -/
theorem toNat_ofNat_five_of_le {n : Nat} (h : n ≤ 31) : (BitVec.ofNat 5 n).toNat = n :=
  (BitVec.toNat_ofNat n 5).trans (Nat.mod_eq_of_lt (by omega))

theorem State.mapLegal_configure (s : State) {p o c : Nat} (hp : 1 ≤ p) (ho : 1 ≤ o) (hc : 1 ≤ c)
    (hw : idBits p o c ≤ 31) : (s.configure p o c).MapLegal := by
  intro _
  unfold idBits at hw
  have hpxn : (s.configure p o c).pxnBits.toNat = bitlength (p - 1) := toNat_ofNat_five_of_le (by omega)
  have hpod : (s.configure p o c).podBits.toNat = bitlength (o - 1) := toNat_ofNat_five_of_le (by omega)
  have hcore : (s.configure p o c).coreBits.toNat = bitlength (c - 1) := toNat_ofNat_five_of_le (by omega)
  exact ⟨hp, ho, hc, hpxn, hpod, hcore, by rwa [hpxn, hpod, hcore]⟩

theorem State.Inv.configure {s : State} (h : s.Inv) {p o c : Nat} (hp : 1 ≤ p) (ho : 1 ≤ o) (hc : 1 ≤ c)
    (hw : idBits p o c ≤ 31) : (s.configure p o c).Inv := by
  obtain ⟨_, hcause, hfail⟩ := h
  exact ⟨s.mapLegal_configure hp ho hc hw, hcause, hfail⟩

theorem RequestEnds.inv {s t : State} (h : RequestEnds s t) (hi : s.Inv) : t.Inv := by
  cases h with
  | answered r => exact hi.gives r
  | turnedAway halted => exact hi.fail_faulted halted
  | failed e sets => exact hi.fail sets
  | built p o c _ hp ho hc budget => exact (hi.configure hp ho hc budget).gives .done

/-- Settles O9: reset meets the invariant, and each of the four endings keeps it; what is left on the inputs is not
part of it. -/
theorem stepKeepsInv : Obligations.StepKeepsInv := by
  intro s t hi h
  rcases step_next_cases h with rfl | ⟨rest, _, rfl⟩ | ⟨rest, hends⟩
  · exact hi
  · exact invHoldsAtReset
  · exact hends.inv hi

/-! ### The frame of a request that succeeds, and of the map -/

/-- Settles O13: of the ways an instruction ends, the two that fail leave an error response and `AM.CFG` alone
configures. -/
theorem successWritesNoRegister : Obligations.SuccessWritesNoRegister := by
  intro i s t hcfg h hok
  rcases exec_next_cases h with ⟨_, rfl⟩ | ⟨_, _, rfl⟩ | ⟨_, p, o, c, hi, _⟩ | ⟨_, _, r, rfl⟩ | ⟨_, e, _, rfl⟩
  · exact ⟨_, rfl⟩
  · simp at hok
  · exact absurd hi (hcfg p o c)
  · exact ⟨r, rfl⟩
  · simp at hok

/-- `t` has the map registers of `s`. -/
def State.SameMap (s t : State) : Prop :=
  t.configured = s.configured ∧ t.cfgP = s.cfgP ∧ t.cfgO = s.cfgO ∧ t.cfgC = s.cfgC
    ∧ t.pxnBits = s.pxnBits ∧ t.podBits = s.podBits ∧ t.coreBits = s.coreBits

theorem State.sameMap_refl (s : State) : s.SameMap s := ⟨rfl, rfl, rfl, rfl, rfl, rfl, rfl⟩
theorem State.sameMap_gives (s : State) (r : Result) : s.SameMap (s.gives r) := s.sameMap_refl
theorem State.sameMap_fail (s : State) (e : Error) : s.SameMap (s.fail e) := s.sameMap_refl

theorem RequestEnds.sameMap {s t : State} (h : RequestEnds s t) (hc : s.configured = true) : s.SameMap t := by
  cases h with
  | answered r => exact s.sameMap_gives r
  | turnedAway _ => exact s.sameMap_fail .faulted
  | failed e _ => exact s.sameMap_fail e
  | built _ _ _ fresh => exact absurd hc (by simp [fresh])

theorem step_sameMap {s t : State} (hc : s.configured = true) (hr : ∀ rest, s.pending ≠ .reset :: rest)
    (h : step s = .next t) : s.SameMap t := by
  rcases step_next_cases h with rfl | ⟨rest, hp, _⟩ | ⟨rest, hends⟩
  · exact t.sameMap_refl
  · exact absurd hp (hr rest)
  · exact hends.sameMap hc

/-- A second `AM.CFG` is refused before its counts are looked at (R133). -/
theorem exec_amCfg_configured {s : State} (p o c : Nat) (hf : s.fault = false) (hc : s.configured = true) :
    exec (.amCfg p o c) s = .next (s.haltsWith .alreadyConfigured 8) :=
  calc exec (.amCfg p o c) s = attempt s (buildMap s p o c) := exec_amCfg_eq p o c s
    _ = attempt s (.error .alreadyConfigured) := by simp [buildMap, hc]
    _ = .next (s.fail .alreadyConfigured) := attempt_error s _ hf
    _ = .next (s.haltsWith .alreadyConfigured 8) := by rw [State.fail_eq_haltsWith s _ rfl]; rfl

/-- Settles O14: only the ending that builds a map writes its registers, and it starts from an unconfigured codec. -/
theorem mapIsImmutableUntilReset : Obligations.MapIsImmutableUntilReset := by
  refine ⟨?_, fun s p o c hf hc => exec_amCfg_configured p o c hf hc⟩
  intro s t hc hr h
  obtain ⟨hconf, hregs⟩ := step_sameMap hc hr h
  exact ⟨hconf.trans hc, hregs⟩

end Sys2Proof.Machine
end

section
/-! States that look alike to a requester (R22, U7): what the operations read of two such states is the same, so the
endings of a request, and then every step, lead to states that look alike. -/

namespace Sys2Proof.Machine

/-! ### What the operations read -/

theorem State.looksLike_refl (s : State) : s.LooksLike s := ⟨rfl, rfl, rfl, rfl, rfl, fun _ => rfl⟩

theorem State.LooksLike.seenMap_eq {s s' : State} (h : s.LooksLike s') : s.seenMap = s'.seenMap := by
  obtain ⟨hconf, _, _, _, _, heq⟩ := h
  cases hc : s.configured with
  | true => rw [heq hc]
  | false => simp [State.seenMap, ← hconf, hc]

/-- `AM.STATUS` shows the six registers as 0 until the map exists (R156). -/
theorem State.LooksLike.statusReport_eq {s s' : State} (h : s.LooksLike s') : statusReport s = statusReport s' := by
  obtain ⟨hconf, hfault, hcause, _, _, heq⟩ := h
  cases hc : s.configured with
  | true => rw [heq hc]
  | false => simp [statusReport, ← hconf, hc, hfault, hcause]

/-- `AM.CFG` writes all six registers, so nothing of their old values is left. -/
theorem State.LooksLike.configure_eq {s s' : State} (h : s.LooksLike s') (p o c : Nat) :
    s.configure p o c = s'.configure p o c := by
  obtain ⟨_, hfault, hcause, hresp, hpend, _⟩ := h
  simp [State.configure, hfault, hcause, hresp, hpend]

theorem State.LooksLike.buildMap_eq {s s' : State} (h : s.LooksLike s') (p o c : Nat) :
    buildMap s p o c = buildMap s' p o c := by
  obtain ⟨hconf, _⟩ := id h
  simp only [buildMap, hconf, h.configure_eq]

/-! ### What the state updates keep -/

theorem State.LooksLike.pending {s s' : State} (h : s.LooksLike s') (rest : List Event) :
    State.LooksLike { s with pending := rest } { s' with pending := rest } := by
  obtain ⟨hconf, hfault, hcause, hresp, _, heq⟩ := h
  exact ⟨hconf, hfault, hcause, hresp, rfl, fun hc => by rw [heq hc]⟩

theorem State.LooksLike.gives {s s' : State} (h : s.LooksLike s') (r : Result) :
    (s.gives r).LooksLike (s'.gives r) := by
  obtain ⟨hconf, hfault, hcause, _, hpend, heq⟩ := h
  exact ⟨hconf, hfault, hcause, rfl, hpend, fun hc => by rw [heq hc]⟩

theorem State.LooksLike.fail {s s' : State} (h : s.LooksLike s') (e : Error) :
    (s.fail e).LooksLike (s'.fail e) := by
  obtain ⟨hconf, hfault, hcause, _, hpend, heq⟩ := h
  exact ⟨hconf, by simp [hfault], by simp [hcause], rfl, hpend, fun hc => by rw [heq hc]⟩

/-! ### Outcomes that look alike -/

/-- Both outcomes are next states, and these look alike. -/
def Outcome.LooksLike (a b : Outcome) : Prop := ∃ t t', a = .next t ∧ b = .next t' ∧ t.LooksLike t'

theorem Outcome.looksLike_next {t t' : State} (h : t.LooksLike t') :
    Outcome.LooksLike (.next t) (.next t') := ⟨t, t', rfl, rfl, h⟩

/-- A request that may write registers comes to the same error, or to the same result over states that look alike. -/
inductive EndsAlike : Except Error (State × Result) → Except Error (State × Result) → Prop where
  | error (e : Error) : EndsAlike (.error e) (.error e)
  | ok (v : Result) {u u' : State} (look : u.LooksLike u') : EndsAlike (.ok (u, v)) (.ok (u', v))

theorem endsAlike_refl (r : Except Error (State × Result)) : EndsAlike r r := by
  cases r with
  | error e => exact .error e
  | ok x => exact .ok x.2 x.1.looksLike_refl

theorem attempt_looksLike {s s' : State} {r r' : Except Error (State × Result)} (h : s.LooksLike s')
    (hr : EndsAlike r r') : Outcome.LooksLike (attempt s r) (attempt s' r') := by
  obtain ⟨_, hfault, _⟩ := id h
  cases hf : s.fault with
  | true =>
    rw [attempt_halted s r hf, attempt_halted s' r' (hfault ▸ hf)]
    exact Outcome.looksLike_next (h.fail .faulted)
  | false =>
    cases hr with
    | error e =>
      rw [attempt_error s e hf, attempt_error s' e (hfault ▸ hf)]
      exact Outcome.looksLike_next (h.fail e)
    | @ok v u u' look =>
      rw [attempt_ok s u v hf, attempt_ok s' u' v (hfault ▸ hf)]
      exact Outcome.looksLike_next (look.gives v)

theorem answer_looksLike {s s' : State} (h : s.LooksLike s') (r : Except Error Result) :
    Outcome.LooksLike (answer s r) (answer s' r) := by
  apply attempt_looksLike h
  cases r with
  | error e => exact .error e
  | ok v => exact .ok v h

theorem exec_looksLike {s s' : State} (h : s.LooksLike s') (i : Instr) :
    Outcome.LooksLike (exec i s) (exec i s') := by
  by_cases hs : i = .amStatus
  · subst hs
    rw [exec_amStatus_eq, exec_amStatus_eq, h.statusReport_eq]
    exact Outcome.looksLike_next (h.gives _)
  by_cases hc : ∃ p o c, i = .amCfg p o c
  · obtain ⟨p, o, c, rfl⟩ := hc
    rw [exec_amCfg_eq, exec_amCfg_eq, h.buildMap_eq]
    exact attempt_looksLike h (endsAlike_refl _)
  · obtain ⟨k, _, hexec⟩ := exec_endsThroughAnswer i hs fun p o c hi => hc ⟨p, o, c, hi⟩
    rw [hexec, hexec, h.seenMap_eq]
    exact answer_looksLike h _

theorem step_looksLike {s s' : State} (h : s.LooksLike s') : Outcome.LooksLike (step s) (step s') := by
  obtain ⟨_, _, _, _, hpend, _⟩ := id h
  rcases step_cases s with ⟨hp, hs⟩ | ⟨rest, hp, hs⟩ | ⟨w, rest, i, hp, hd, hs⟩ | ⟨w, rest, e, hp, hd, hs⟩
  · rw [hs, step_idle s' (hpend ▸ hp)]
    exact Outcome.looksLike_next h
  · rw [hs, step_reset s' rest (hpend ▸ hp)]
    exact Outcome.looksLike_next (State.looksLike_refl _)
  · rw [hs, step_wire s' w rest i (hpend ▸ hp) hd]
    exact exec_looksLike (h.pending rest) i
  · rw [hs, step_unknownOp s' w rest e (hpend ▸ hp) hd]
    exact attempt_looksLike (h.pending rest) (.error .unknownOp)

/-- Settles O16, through `step_looksLike`. -/
theorem unconfiguredRegistersAreUnobservable : Obligations.UnconfiguredRegistersAreUnobservable := by
  intro s s' t h hstep
  obtain ⟨u, u', hu, hu', hlook⟩ := step_looksLike h
  obtain rfl : u = t := by rw [hu] at hstep; cases hstep; rfl
  exact ⟨u', hu', hlook⟩

end Sys2Proof.Machine
end

section
/-! Order of requests (R41, R212). An answer of a running, configured codec is fixed by the map registers alone: neither
what else stands at the port nor the response before it is read. So a sequence of requests that each end `OK` is answered
one by one as if each stood there alone. -/

namespace Sys2Proof.Machine

/-- The registers of `s`, with the events `es` to come and `last` as the response just given. -/
def State.atPort (s : State) (es : List Event) (last : Option Response) : State :=
  { s with pending := es, response := last }

theorem State.seenMap_atPort (s : State) (es : List Event) (last : Option Response) :
    (s.atPort es last).seenMap = s.seenMap := rfl

theorem State.atPort_gives (s : State) (es : List Event) (last : Option Response) (r : Result) :
    (s.atPort es last).gives r = s.atPort es (some (.ok r)) := rfl

/-- Whatever it is asked, a running, configured codec ends with an answer that is the same at every port. -/
theorem exec_atPort_eq_answer {s : State} (hf : s.fault = false) (hc : s.configured = true) (i : Instr) :
    ∃ x, ∀ es last, exec i (s.atPort es last) = answer (s.atPort es last) x := by
  by_cases hs : i = .amStatus
  · subst hs
    exact ⟨.ok (.status (statusReport s)), fun es last => (answer_ok (s.atPort es last) _ hf).symm⟩
  by_cases hcfg : ∃ p o c, i = .amCfg p o c
  · obtain ⟨p, o, c, rfl⟩ := hcfg
    refine ⟨.error .alreadyConfigured, fun es last => ?_⟩
    rw [exec_amCfg_configured (s := s.atPort es last) p o c hf hc, answer_error (s.atPort es last) _ hf,
      State.fail_eq_haltsWith _ _ rfl]
    rfl
  · obtain ⟨k, _, hexec⟩ := exec_endsThroughAnswer i hs fun p o c hi => hcfg ⟨p, o, c, hi⟩
    exact ⟨k s.seenMap, fun es last => by rw [hexec, State.seenMap_atPort]⟩

/-- The same of whatever stands on the inputs, a reserved code included. -/
theorem step_atPort_eq_answer {s : State} (hf : s.fault = false) (hc : s.configured = true) (w : Wire) :
    ∃ x, ∀ es last, step (s.atPort (.wire w :: es) last) = answer (s.atPort es last) x := by
  cases hd : decode w with
  | ok i =>
    obtain ⟨x, hx⟩ := exec_atPort_eq_answer hf hc i
    exact ⟨x, fun es last => (step_wire (s.atPort (.wire w :: es) last) w es i rfl hd).trans (hx es last)⟩
  | error e =>
    exact ⟨.error .unknownOp, fun es last => step_unknownOp (s.atPort (.wire w :: es) last) w es e rfl hd⟩

/-- The event `e` ends `OK` with the result `r` wherever it stands first, and leaves the registers as they are. -/
def State.Answers (s : State) (e : Event) (r : Result) : Prop :=
  ∀ es last, step (s.atPort (e :: es) last) = .next (s.atPort es (some (.ok r)))

theorem State.Answers.trace_cons {s : State} {e : Event} {r : Result} (h : s.Answers e r) (k : Nat) (es : List Event)
    (last : Option Response) :
    State.trace (k + 1) (s.atPort (e :: es) last) = some (.ok r) :: State.trace k (s.atPort es (some (.ok r))) :=
  trace_succ k (h es last)

/-- An event that ends `OK` alone ends so in front of any others: it is not a reset, which gives no response, and what
it is answered does not depend on the port. -/
theorem answers_of_trace_alone {s : State} (hf : s.fault = false) (hc : s.configured = true) {e : Event} {r : Result}
    {last : Option Response} (h : State.trace 1 (s.atPort [e] last) = [some (.ok r)]) : s.Answers e r := by
  cases e with
  | reset =>
    rw [trace_succ 0 (step_reset (s.atPort [.reset] last) [] rfl)] at h
    simp at h
  | wire w =>
    obtain ⟨x, hx⟩ := step_atPort_eq_answer hf hc w
    cases x with
    | error e =>
      rw [trace_succ 0 ((hx [] last).trans (answer_error (s.atPort [] last) e hf))] at h
      simp at h
    | ok v =>
      have hstep : s.Answers (.wire w) v := fun es last => (hx es last).trans (answer_ok (s.atPort es last) v hf)
      rw [hstep.trace_cons 0 [] last] at h
      obtain rfl : v = r := by simpa [trace_zero] using h
      exact hstep

/-- A sequence of answered events, from whatever response came before. -/
theorem trace_atPort_eq_flatMap {s : State} (last₀ : Option Response) (es : List Event)
    (h : ∀ e ∈ es, ∃ r, s.Answers e r) (last : Option Response) :
    State.trace es.length (s.atPort es last) = es.flatMap fun e => State.trace 1 (s.atPort [e] last₀) := by
  induction es generalizing last with
  | nil => rfl
  | cons e es ih =>
    obtain ⟨r, hr⟩ := h e List.mem_cons_self
    have htail := ih (fun e he => h e (List.mem_cons_of_mem _ he)) (some (.ok r))
    rw [List.length_cons, List.flatMap_cons, hr.trace_cons, hr.trace_cons, htail]
    rfl

/-- Settles O17: every event is answered wherever it stands, and so the run is answered event by event. -/
theorem responsesDoNotDependOnOrder : Obligations.ResponsesDoNotDependOnOrder := by
  intro s es hf hc halone
  refine trace_atPort_eq_flatMap s.response es (fun e he => ?_) s.response
  obtain ⟨r, hr⟩ := halone e he
  exact ⟨r, answers_of_trace_alone (last := s.response) hf hc hr⟩

end Sys2Proof.Machine
end

section
/-! Nested windows: a field of `w` bits cuts a window of `2 ^ (k + w)` addresses into `2 ^ w` windows of `2 ^ k`, one for
each value of the field (R34). -/

namespace Sys2Proof.Machine

/-- `n` is one of the `2 ^ k` addresses from `first` on. -/
def InWindow (n first k : Nat) : Prop := first ≤ n ∧ n < first + 2 ^ k

/-- An aligned window is the addresses whose high digits are the window's number. -/
theorem inWindow_iff_div_eq {n first a k : Nat} (haligned : first = a * 2 ^ k) :
    InWindow n first k ↔ n / 2 ^ k = a := by
  have hpos : 0 < 2 ^ k := Nat.two_pow_pos k
  rw [InWindow, Nat.div_eq_iff hpos, haligned]
  omega

/-- The window of the field's value `d` inside an aligned window. -/
theorem inWindow_add_iff {n first k w d : Nat} (haligned : 2 ^ (k + w) ∣ first) (hd : d < 2 ^ w) :
    InWindow n (first + d * 2 ^ k) k ↔ InWindow n first (k + w) ∧ n / 2 ^ k % 2 ^ w = d := by
  obtain ⟨a, rfl⟩ := haligned
  have hfirst : 2 ^ (k + w) * a + d * 2 ^ k = (d + 2 ^ w * a) * 2 ^ k := by ring
  calc InWindow n (2 ^ (k + w) * a + d * 2 ^ k) k
      ↔ d + 2 ^ w * a = n / 2 ^ k := by rw [inWindow_iff_div_eq hfirst, eq_comm]
    _ ↔ n / 2 ^ k / 2 ^ w = a ∧ n / 2 ^ k % 2 ^ w = d := by
        rw [Nat.div_mod_unique (Nat.two_pow_pos w), and_iff_left hd]
    _ ↔ InWindow n (2 ^ (k + w) * a) (k + w) ∧ n / 2 ^ k % 2 ^ w = d := by
        rw [inWindow_iff_div_eq (Nat.mul_comm _ a), Nat.div_div_eq_div_mul, ← Nat.pow_add]

/-- The window of a field's value is aligned to its own size. -/
theorem two_pow_dvd_add_mul {first k w : Nat} (haligned : 2 ^ (k + w) ∣ first) (d : Nat) :
    2 ^ k ∣ first + d * 2 ^ k :=
  Nat.dvd_add ((Nat.pow_dvd_pow 2 (Nat.le_add_right k w)).trans haligned) (Nat.dvd_mul_left _ d)

/-! ### The windows of the memories of one tier, whose words begin at `base` -/

/-- The first address of pxn `x`. -/
def pxnFirst (L : Layout) (base x : Nat) : Nat := base + x * 2 ^ (61 - L.pxnBits)

/-- The first address of pod `(x, y)`. -/
def podFirst (L : Layout) (base x y : Nat) : Nat := pxnFirst L base x + y * 2 ^ (61 - L.pxnBits - L.podBits)

/-- The first address of core `(x, y, z)`. -/
def coreFirst (L : Layout) (base x y z : Nat) : Nat :=
  podFirst L base x y + z * 2 ^ (61 - L.pxnBits - L.podBits - L.coreBits)

section
variable {L : Layout} {base : Nat} (hL : L.pxnBits + L.podBits + L.coreBits ≤ 31) (hbase : 2 ^ 61 ∣ base)
include hL hbase

theorem pxnFirst_aligned (x : Nat) : 2 ^ (61 - L.pxnBits) ∣ pxnFirst L base x := by
  refine two_pow_dvd_add_mul (w := L.pxnBits) ?_ x
  rwa [show 61 - L.pxnBits + L.pxnBits = 61 by omega]

theorem podFirst_aligned (x y : Nat) : 2 ^ (61 - L.pxnBits - L.podBits) ∣ podFirst L base x y := by
  refine two_pow_dvd_add_mul (w := L.podBits) ?_ y
  rw [show 61 - L.pxnBits - L.podBits + L.podBits = 61 - L.pxnBits by omega]
  exact pxnFirst_aligned hL hbase x

theorem coreFirst_aligned (x y z : Nat) :
    2 ^ (61 - L.pxnBits - L.podBits - L.coreBits) ∣ coreFirst L base x y z := by
  refine two_pow_dvd_add_mul (w := L.coreBits) ?_ z
  rw [show 61 - L.pxnBits - L.podBits - L.coreBits + L.coreBits = 61 - L.pxnBits - L.podBits by omega]
  exact podFirst_aligned hL hbase x y

theorem inWindow_pxnFirst_iff {n x : Nat} (hx : x < 2 ^ L.pxnBits) :
    InWindow n (pxnFirst L base x) (61 - L.pxnBits)
      ↔ InWindow n base 61 ∧ n / 2 ^ (61 - L.pxnBits) % 2 ^ L.pxnBits = x := by
  have hk : 61 - L.pxnBits + L.pxnBits = 61 := by omega
  rw [pxnFirst, inWindow_add_iff (by rwa [hk]) hx, hk]

theorem inWindow_podFirst_iff {n x y : Nat} (hy : y < 2 ^ L.podBits) :
    InWindow n (podFirst L base x y) (61 - L.pxnBits - L.podBits)
      ↔ InWindow n (pxnFirst L base x) (61 - L.pxnBits)
        ∧ n / 2 ^ (61 - L.pxnBits - L.podBits) % 2 ^ L.podBits = y := by
  have hk : 61 - L.pxnBits - L.podBits + L.podBits = 61 - L.pxnBits := by omega
  rw [podFirst, inWindow_add_iff (by rw [hk]; exact pxnFirst_aligned hL hbase x) hy, hk]

theorem inWindow_coreFirst_iff {n x y z : Nat} (hz : z < 2 ^ L.coreBits) :
    InWindow n (coreFirst L base x y z) (61 - L.pxnBits - L.podBits - L.coreBits)
      ↔ InWindow n (podFirst L base x y) (61 - L.pxnBits - L.podBits)
        ∧ n / 2 ^ (61 - L.pxnBits - L.podBits - L.coreBits) % 2 ^ L.coreBits = z := by
  have hk : 61 - L.pxnBits - L.podBits - L.coreBits + L.coreBits = 61 - L.pxnBits - L.podBits := by omega
  rw [coreFirst, inWindow_add_iff (by rw [hk]; exact podFirst_aligned hL hbase x y) hz, hk]

/-- Of a core's addresses, those with the reserved bits 0 and bit 29 equal to `b`: its `L1SP` or its `CTRL`. -/
theorem inWindow_coreFirst_add_iff {n x y z b : Nat} (hb : b < 2) :
    InWindow n (coreFirst L base x y z + b * 2 ^ 29) 29
      ↔ InWindow n (coreFirst L base x y z) (61 - L.pxnBits - L.podBits - L.coreBits)
        ∧ n / 2 ^ 30 % 2 ^ (31 - L.pxnBits - L.podBits - L.coreBits) = 0 ∧ n / 2 ^ 29 % 2 = b := by
  have hk : 30 + (31 - L.pxnBits - L.podBits - L.coreBits) = 61 - L.pxnBits - L.podBits - L.coreBits := by omega
  have haligned := hk ▸ coreFirst_aligned hL hbase x y z
  have hreserved := inWindow_add_iff (n := n) haligned (Nat.two_pow_pos _)
  have htier := inWindow_add_iff (n := n) (k := 29) (w := 1) (two_pow_dvd_add_mul haligned 0) hb
  rw [Nat.zero_mul, Nat.add_zero] at hreserved htier
  rw [htier, hreserved, hk, and_assoc, Nat.pow_one]

end

end Sys2Proof.Machine
end

section
/-! The windows of R34 as what `AM.DEC` reads: selector bits, coordinates and reserved bits are the digits of the word
at the places of the layout, and so the addresses of one memory are one window. -/

namespace Sys2Proof.Machine

/-! ### The digits of a word that decoding reads -/

theorem getLsbD_eq_decide (w : Word) (j : Nat) : w.getLsbD j = decide (w.toNat / 2 ^ j % 2 = 1) := by
  rw [← BitVec.testBit_toNat, Nat.testBit_eq_decide_div_mod_eq]

theorem slice_toNat (w : Word) (lo k : Nat) : (slice w lo k).toNat = w.toNat / 2 ^ lo % 2 ^ k := by
  rw [slice, BitVec.extractLsb'_toNat, Nat.shiftRight_eq_div_pow]

/-- What a coordinate's entry reads, as a number: nothing is lost on the port, for the field has at most 31 bits. -/
theorem readCoord_toNat {L : Layout} (hL : L.pxnBits + L.podBits + L.coreBits ≤ 31) {n : FieldName}
    (hn : (fieldPos L n).width ≤ 31) (w : Word) :
    (readCoord L n w).toNat = w.toNat / 2 ^ (fieldPos L n).lo % 2 ^ (fieldPos L n).width := by
  have hlt : w.toNat / 2 ^ (fieldPos L n).lo % 2 ^ (fieldPos L n).width < 2 ^ 32 :=
    calc _ < 2 ^ (fieldPos L n).width := Nat.mod_lt _ (Nat.two_pow_pos _)
      _ ≤ 2 ^ 32 := Nat.pow_le_pow_right (by decide) (by omega)
  rw [readCoord, BitVec.toNat_setWidth, readField_toNat L hL, Nat.mod_eq_of_lt hlt]

section
variable {L : Layout} (hL : L.pxnBits + L.podBits + L.coreBits ≤ 31) (w : Word) (v : CoordId)
include hL

theorem width_absPxn : (fieldPos L .absPxn).width = L.pxnBits := by
  simp only [FieldPos.width, fieldPos]; omega

theorem width_absPod : (fieldPos L .absPod).width = L.podBits := by
  simp only [FieldPos.width, fieldPos]; omega

theorem width_absCore : (fieldPos L .absCore).width = L.coreBits := by
  simp only [FieldPos.width, fieldPos]; omega

theorem readCoord_absPxn_eq_iff :
    readCoord L .absPxn w = v ↔ w.toNat / 2 ^ (61 - L.pxnBits) % 2 ^ L.pxnBits = v.toNat := by
  rw [← BitVec.toNat_inj, readCoord_toNat hL (by rw [width_absPxn hL]; omega), width_absPxn hL]
  rfl

theorem readCoord_absPod_eq_iff :
    readCoord L .absPod w = v ↔ w.toNat / 2 ^ (61 - L.pxnBits - L.podBits) % 2 ^ L.podBits = v.toNat := by
  rw [← BitVec.toNat_inj, readCoord_toNat hL (by rw [width_absPod hL]; omega), width_absPod hL]
  rfl

theorem readCoord_absCore_eq_iff :
    readCoord L .absCore w = v
      ↔ w.toNat / 2 ^ (61 - L.pxnBits - L.podBits - L.coreBits) % 2 ^ L.coreBits = v.toNat := by
  rw [← BitVec.toNat_inj, readCoord_toNat hL (by rw [width_absCore hL]; omega), width_absCore hL]
  rfl

end

/-- The order of tests of R50 on the digits of the word as a number. -/
theorem classify_eq_digits (w : Word) :
    classify w =
      if w.toNat / 2 ^ 63 % 2 = 1 then
        if w.toNat / 2 ^ 62 % 2 = 1 then .absDram
        else if w.toNat / 2 ^ 61 % 2 = 1 then .absL2sp
        else if w.toNat / 2 ^ 29 % 2 = 1 then .absCtrl
        else .absL1sp
      else if w.toNat / 2 ^ 30 % 2 = 1 then .relDram
      else if w.toNat / 2 ^ 29 % 2 = 1 then .relL2sp
      else .relL1sp := by
  simp only [classify, getLsbD_eq_decide, decide_eq_true_eq]

theorem classify_eq_absDram_iff (w : Word) : classify w = .absDram ↔ w.toNat / 2 ^ 62 = 3 := by
  have hw := w.isLt
  rw [classify_eq_digits]
  split_ifs <;> simp <;> omega

theorem classify_eq_absL2sp_iff (w : Word) : classify w = .absL2sp ↔ w.toNat / 2 ^ 61 = 5 := by
  have hw := w.isLt
  rw [classify_eq_digits]
  split_ifs <;> simp <;> omega

theorem classify_eq_absL1sp_iff (w : Word) :
    classify w = .absL1sp ↔ w.toNat / 2 ^ 61 = 4 ∧ w.toNat / 2 ^ 29 % 2 = 0 := by
  have hw := w.isLt
  rw [classify_eq_digits]
  split_ifs <;> simp <;> omega

theorem classify_eq_absCtrl_iff (w : Word) :
    classify w = .absCtrl ↔ w.toNat / 2 ^ 61 = 4 ∧ w.toNat / 2 ^ 29 % 2 = 1 := by
  have hw := w.isLt
  rw [classify_eq_digits]
  split_ifs <;> simp <;> omega

/-- Bit 61 is the one reserved bit of the format (R64). -/
theorem canonical_absDram_iff (L : Layout) (w : Word) :
    canonical L .absDram w = true ↔ w.toNat / 2 ^ 61 % 2 = 0 := by
  simp only [canonical, reservedBits, slice_toNat, beq_iff_eq]
  rfl

theorem canonical_absL1sp_iff {L : Layout} (hL : L.pxnBits + L.podBits + L.coreBits ≤ 31) (w : Word) :
    canonical L .absL1sp w = true ↔ w.toNat / 2 ^ 30 % 2 ^ (31 - L.pxnBits - L.podBits - L.coreBits) = 0 := by
  simp only [canonical, reservedBits, slice_toNat, beq_iff_eq]
  rw [show 60 - L.pxnBits - L.podBits - L.coreBits + 1 - 30 = 31 - L.pxnBits - L.podBits - L.coreBits by omega]

theorem canonical_absCtrl_eq (L : Layout) (w : Word) : canonical L .absCtrl w = canonical L .absL1sp w := rfl

/-! ### What `AM.DEC` answers -/

/-- `AM.DEC` of a configured, running codec (R144). -/
theorem exec_amDec_mapped {s : State} (hf : s.fault = false) (hc : s.configured = true) (raw : Word) (my : Requester) :
    exec (.amDec raw my) s = .next (s.gives (decodeAs s.layout (classify raw) raw my)) :=
  calc exec (.amDec raw my) s = answer s (withMap s fun L => .ok (decodeAs L (classify raw) raw my)) := rfl
    _ = answer s (.ok (decodeAs s.layout (classify raw) raw my)) := by rw [withMap_configured s _ hc]
    _ = _ := answer_ok s _ hf

theorem next_gives_inj {s : State} {a b : Result} :
    (Host.Outcome.next (s.gives a) : Outcome) = .next (s.gives b) ↔ a = b := by
  simp [State.gives]

theorem formatOf_formatMode_formatTier (f : Format) : formatOf (formatMode f) (formatTier f) = some f := by
  cases f <;> rfl

/-- A word is decoded canonically to a record of a format's mode and tier exactly when it is of that format, its reserved
bits are 0 and the coordinates are those the format's rule reads. -/
theorem decodeAs_eq_canonical_iff (L : Layout) (f g : Format) (raw : Word) (my : Requester) (x y z : Option CoordId) :
    (∃ v, decodeAs L g raw my = .decoded ⟨some (formatTier f), formatMode f, v, x, y, z⟩ true)
      ↔ g = f ∧ canonical L f raw = true
        ∧ (readInfo L f raw my).pxn = x ∧ (readInfo L f raw my).pod = y ∧ (readInfo L f raw my).core = z := by
  constructor
  · rintro ⟨v, h⟩
    obtain ⟨hinfo, hcanon⟩ := Result.decoded.inj h
    have hformat : some f = some g := by
      rw [← infoFormat_readInfo L g raw my, hinfo]
      exact (formatOf_formatMode_formatTier f).symm
    cases hformat
    exact ⟨rfl, hcanon, by rw [hinfo], by rw [hinfo], by rw [hinfo]⟩
  · rintro ⟨rfl, hcanon, rfl, rfl, rfl⟩
    refine ⟨(readInfo L g raw my).offset, ?_⟩
    rw [decodeAs, hcanon]
    cases g <;> rfl

/-- The same of the response to `AM.DEC`. -/
theorem exec_amDec_canonical_iff {s : State} (hf : s.fault = false) (hc : s.configured = true) (f : Format) (raw : Word)
    (my : Requester) (x y z : Option CoordId) :
    (∃ v, exec (.amDec raw my) s
        = .next (s.gives (.decoded ⟨some (formatTier f), formatMode f, v, x, y, z⟩ true)))
      ↔ classify raw = f ∧ canonical s.layout f raw = true
        ∧ (readInfo s.layout f raw my).pxn = x ∧ (readInfo s.layout f raw my).pod = y
        ∧ (readInfo s.layout f raw my).core = z := by
  simp only [exec_amDec_mapped hf hc, next_gives_inj, decodeAs_eq_canonical_iff]

/-! ### The words of one memory -/

section
variable {L : Layout} (hL : L.pxnBits + L.podBits + L.coreBits ≤ 31) {x y z : CoordId} (raw : Word) (my : Requester)
include hL

theorem dram_word_iff_inWindow (hx : x.toNat < 2 ^ L.pxnBits) :
    (classify raw = .absDram ∧ canonical L .absDram raw = true ∧ (readInfo L .absDram raw my).pxn = some x
        ∧ (readInfo L .absDram raw my).pod = none ∧ (readInfo L .absDram raw my).core = none)
      ↔ InWindow raw.toNat (pxnFirst L 0xC000000000000000 x.toNat) (61 - L.pxnBits) := by
  have htop : raw.toNat / 2 ^ 61 = 6 ↔ raw.toNat / 2 ^ 62 = 3 ∧ raw.toNat / 2 ^ 61 % 2 = 0 := by omega
  rw [inWindow_pxnFirst_iff hL (by decide) hx, inWindow_iff_div_eq (a := 6) (by decide), htop, and_assoc,
    classify_eq_absDram_iff, canonical_absDram_iff, ← readCoord_absPxn_eq_iff hL]
  simp [readInfo]

theorem l2sp_word_iff_inWindow (hx : x.toNat < 2 ^ L.pxnBits) (hy : y.toNat < 2 ^ L.podBits) :
    (classify raw = .absL2sp ∧ canonical L .absL2sp raw = true ∧ (readInfo L .absL2sp raw my).pxn = some x
        ∧ (readInfo L .absL2sp raw my).pod = some y ∧ (readInfo L .absL2sp raw my).core = none)
      ↔ InWindow raw.toNat (podFirst L 0xA000000000000000 x.toNat y.toNat) (61 - L.pxnBits - L.podBits) := by
  rw [inWindow_podFirst_iff hL (by decide) hy, inWindow_pxnFirst_iff hL (by decide) hx,
    inWindow_iff_div_eq (a := 5) (by decide), classify_eq_absL2sp_iff, ← readCoord_absPxn_eq_iff hL,
    ← readCoord_absPod_eq_iff hL]
  simp [readInfo, canonical, reservedBits, and_assoc]

/-- The words of a core, its scratchpad's with `b = 0` and its register window's with `b = 1`, but for the format. -/
theorem core_word_iff_inWindow {b : Nat} (hb : b < 2) (hx : x.toNat < 2 ^ L.pxnBits) (hy : y.toNat < 2 ^ L.podBits)
    (hz : z.toNat < 2 ^ L.coreBits) :
    ((raw.toNat / 2 ^ 61 = 4 ∧ raw.toNat / 2 ^ 29 % 2 = b) ∧ canonical L .absL1sp raw = true
        ∧ readCoord L .absPxn raw = x ∧ readCoord L .absPod raw = y ∧ readCoord L .absCore raw = z)
      ↔ InWindow raw.toNat (coreFirst L 0x8000000000000000 x.toNat y.toNat z.toNat + b * 2 ^ 29) 29 := by
  have hbase : 2 ^ 61 ∣ 0x8000000000000000 := by decide
  rw [inWindow_coreFirst_add_iff hL hbase hb, inWindow_coreFirst_iff hL hbase hz, inWindow_podFirst_iff hL hbase hy,
    inWindow_pxnFirst_iff hL hbase hx, inWindow_iff_div_eq (a := 4) (by decide), ← readCoord_absPxn_eq_iff hL,
    ← readCoord_absPod_eq_iff hL, ← readCoord_absCore_eq_iff hL, canonical_absL1sp_iff hL]
  tauto

theorem l1sp_word_iff_inWindow (hx : x.toNat < 2 ^ L.pxnBits) (hy : y.toNat < 2 ^ L.podBits)
    (hz : z.toNat < 2 ^ L.coreBits) :
    (classify raw = .absL1sp ∧ canonical L .absL1sp raw = true ∧ (readInfo L .absL1sp raw my).pxn = some x
        ∧ (readInfo L .absL1sp raw my).pod = some y ∧ (readInfo L .absL1sp raw my).core = some z)
      ↔ InWindow raw.toNat (coreFirst L 0x8000000000000000 x.toNat y.toNat z.toNat) 29 := by
  have hword := core_word_iff_inWindow hL raw (b := 0) (by decide) hx hy hz
  rw [Nat.zero_mul, Nat.add_zero] at hword
  rw [← hword, classify_eq_absL1sp_iff]
  simp [readInfo]

theorem ctrl_word_iff_inWindow (hx : x.toNat < 2 ^ L.pxnBits) (hy : y.toNat < 2 ^ L.podBits)
    (hz : z.toNat < 2 ^ L.coreBits) :
    (classify raw = .absCtrl ∧ canonical L .absCtrl raw = true ∧ (readInfo L .absCtrl raw my).pxn = some x
        ∧ (readInfo L .absCtrl raw my).pod = some y ∧ (readInfo L .absCtrl raw my).core = some z)
      ↔ InWindow raw.toNat (coreFirst L 0x8000000000000000 x.toNat y.toNat z.toNat + 2 ^ 29) 29 := by
  have hword := core_word_iff_inWindow hL raw (b := 1) (by decide) hx hy hz
  rw [Nat.one_mul] at hword
  rw [← hword, classify_eq_absCtrl_iff, canonical_absCtrl_eq]
  simp [readInfo]

end

/-- Settles O39: what `AM.DEC` reads are the digits that place the word in the window of its memory. -/
theorem instanceAddressesAreOneWindow : Obligations.InstanceAddressesAreOneWindow := by
  intro s x y z raw my ⟨hf, hc, hmap⟩ p o c hx hy hz
  obtain ⟨_, _, _, _, _, _, hL⟩ := hmap hc
  have hdecodes := fun f px py pz => exec_amDec_canonical_iff hf hc f raw my px py pz
  refine ⟨?dram, ?l2sp, ?l1sp, ?ctrl⟩
  case dram => exact (hdecodes .absDram (some x) none none).trans (dram_word_iff_inWindow hL raw my hx)
  case l2sp => exact (hdecodes .absL2sp (some x) (some y) none).trans (l2sp_word_iff_inWindow hL raw my hx hy)
  case l1sp => exact (hdecodes .absL1sp (some x) (some y) (some z)).trans (l1sp_word_iff_inWindow hL raw my hx hy hz)
  case ctrl => exact (hdecodes .absCtrl (some x) (some y) (some z)).trans (ctrl_word_iff_inWindow hL raw my hx hy hz)

end Sys2Proof.Machine
end

section
/-! Encoding (R62, R72): the rows of the decoder, one equation for each op code and each format, and from them the two
round trips between instructions and the bits on the inputs. -/

namespace Sys2Proof

/-! ### Slices -/

/-- Two slices that touch are one slice. -/
theorem slice_append_slice {n : Nat} (b : BitVec n) (lo v w : Nat) :
    slice b (lo + w) v ++ slice b lo w = slice b lo (v + w) := by
  ext j hj
  simp only [slice, BitVec.getElem_append, BitVec.getElem_extractLsb']
  split
  · rfl
  · rw [show lo + w + (j - w) = lo + j by omega]

theorem slice_one {n : Nat} (b : BitVec n) (lo : Nat) : slice b lo 1 = BitVec.ofBool (b.getLsbD lo) := by
  ext j hj
  simp [slice, show j = 0 by omega]

theorem slice_two {n : Nat} (b : BitVec n) (lo : Nat) :
    slice b lo 2 = BitVec.ofBool (b.getLsbD (lo + 1)) ++ BitVec.ofBool (b.getLsbD lo) := by
  rw [← slice_one, ← slice_one, slice_append_slice]

theorem slice_three {n : Nat} (b : BitVec n) (lo : Nat) :
    slice b lo 3 = BitVec.ofBool (b.getLsbD (lo + 1 + 1)) ++ BitVec.ofBool (b.getLsbD (lo + 1))
      ++ BitVec.ofBool (b.getLsbD lo) := by
  rw [← slice_two, ← slice_one b lo]
  exact (slice_append_slice b lo 2 1).symm

/-- The low part of an append. -/
theorem slice_append_lowest {m n : Nat} (a : BitVec m) (d : BitVec n) : slice (a ++ d) 0 n = d := by
  rw [slice_append_low a d 0 n (by omega), slice_all]

/-- The part of an append that lies above its two lowest. -/
theorem slice_append_third {k l m n : Nat} (a : BitVec k) (b : BitVec l) (c : BitVec m) (d : BitVec n) :
    slice (a ++ b ++ c ++ d) (m + n) l = b := by
  rw [slice_append_high _ d _ l (by omega), slice_append_high _ c _ l (by omega), Nat.add_sub_cancel, Nat.sub_self,
    slice_append_lowest]

/-- A signal of one bit of a bundle stands five bits above its place among the operands. -/
theorem getLsbD_bundle_operand {n : Nat} (op : BitVec 5) (x : BitVec n) (j : Nat) (h : 5 ≤ j) (h' : j < 325) :
    ((x ++ op).setWidth 325).getLsbD j = x.getLsbD (j - 5) := by
  rw [BitVec.getLsbD_setWidth, BitVec.getLsbD_append, if_neg (by omega), decide_eq_true h', Bool.true_and]

/-! ### The rows of the request port (R72, R74) -/

section
variable {b : BitVec 325}

theorem decodeRequest_bfBits (h : slice b 0 5 = 0x00#5) :
    decodeRequest b = .ok (.bfBits (slice b 5 6) (slice b 11 6)) := by
  simp [decodeRequest, h]

theorem decodeRequest_bfMask (h : slice b 0 5 = 0x01#5) :
    decodeRequest b = .ok (.bfMask (slice b 5 6) (slice b 11 6)) := by
  simp [decodeRequest, h]

theorem decodeRequest_bfGet (h : slice b 0 5 = 0x02#5) :
    decodeRequest b = .ok (.bfGet (slice b 5 6) (slice b 11 6) (slice b 17 64)) := by
  simp [decodeRequest, h]

theorem decodeRequest_bfSet (h : slice b 0 5 = 0x03#5) :
    decodeRequest b = .ok (.bfSet (slice b 5 6) (slice b 11 6) (slice b 17 64) (slice b 81 64)) := by
  simp [decodeRequest, h]

theorem decodeRequest_amCfg (h : slice b 0 5 = 0x08#5) :
    decodeRequest b = .ok (.amCfg (slice b 5 32).toNat (slice b 37 32).toNat (slice b 69 32).toNat) := by
  simp [decodeRequest, h]

theorem decodeRequest_amEnc (h : slice b 0 5 = 0x09#5) : decodeRequest b = .ok (.amEnc (infoOfBundle b)) := by
  simp [decodeRequest, h]

theorem decodeRequest_amDec (h : slice b 0 5 = 0x0A#5) :
    decodeRequest b = .ok (.amDec (slice b 5 64) ⟨slice b 69 32, slice b 101 32, slice b 133 32⟩) := by
  simp [decodeRequest, h]

theorem decodeRequest_amField (h : slice b 0 5 = 0x0B#5) : decodeRequest b = .ok (.amField (slice b 5 4)) := by
  simp [decodeRequest, h]

theorem decodeRequest_amStatus (h : slice b 0 5 = 0x0C#5) : decodeRequest b = .ok .amStatus := by
  simp [decodeRequest, h]

theorem decodeRequest_rbBanks (h : slice b 0 5 = 0x10#5) :
    decodeRequest b = .ok (.rbBanks (slice b 5 64) (slice b 69 64)) := by
  simp [decodeRequest, h]

theorem decodeRequest_rbTotal (h : slice b 0 5 = 0x11#5) :
    decodeRequest b = .ok (.rbTotal (slice b 5 64) (slice b 69 64) (slice b 133 64)) := by
  simp [decodeRequest, h]

theorem decodeRequest_rbRange (h : slice b 0 5 = 0x12#5) :
    decodeRequest b = .ok (.rbRange (slice b 5 64) (slice b 69 64) (slice b 133 64) (slice b 197 64)) := by
  simp [decodeRequest, h]

theorem decodeRequest_rbL1sp (h : slice b 0 5 = 0x13#5) :
    decodeRequest b = .ok (.rbL1sp (slice b 5 64) (slice b 69 32) (slice b 101 32) (slice b 133 32)) := by
  simp [decodeRequest, h]

theorem decodeRequest_rbL2sp (h : slice b 0 5 = 0x14#5) :
    decodeRequest b = .ok (.rbL2sp (slice b 5 64) (slice b 69 64) (slice b 133 64) (slice b 197 32) (slice b 229 32)
      (slice b 261 64)) := by
  simp [decodeRequest, h]

theorem decodeRequest_rbDram (h : slice b 0 5 = 0x15#5) :
    decodeRequest b = .ok (.rbDram (slice b 5 64) (slice b 69 64) (slice b 133 64) (slice b 197 32)
      (slice b 229 64)) := by
  simp [decodeRequest, h]

end

/-! ### The rows of the address words (R50, R62) -/

/-- The requester's identity beside an address word (log entry 2). -/
def requesterOf (b : BitVec 160) : Requester := ⟨slice b 64 32, slice b 96 32, slice b 128 32⟩

section
variable {b : BitVec 160} {w : Word} (hw : slice b 0 64 = w)
include hw

theorem decodeAddress_absDram (h : classify w = .absDram) :
    decodeAddress b = .absDram (slice w 0 62) (requesterOf b) := by
  simp [decodeAddress, requesterOf, hw, h]

theorem decodeAddress_absL2sp (h : classify w = .absL2sp) :
    decodeAddress b = .absL2sp (slice w 0 61) (requesterOf b) := by
  simp [decodeAddress, requesterOf, hw, h]

theorem decodeAddress_absL1sp (h : classify w = .absL1sp) :
    decodeAddress b = .absL1sp (slice w 30 31) (slice w 0 29) (requesterOf b) := by
  simp [decodeAddress, requesterOf, hw, h]

theorem decodeAddress_absCtrl (h : classify w = .absCtrl) :
    decodeAddress b = .absCtrl (slice w 30 31) (slice w 0 29) (requesterOf b) := by
  simp [decodeAddress, requesterOf, hw, h]

theorem decodeAddress_relL1sp (h : classify w = .relL1sp) :
    decodeAddress b = .relL1sp (slice w 31 32) (slice w 0 29) (requesterOf b) := by
  simp [decodeAddress, requesterOf, hw, h]

theorem decodeAddress_relL2sp (h : classify w = .relL2sp) :
    decodeAddress b = .relL2sp (slice w 31 32) (slice w 0 29) (requesterOf b) := by
  simp [decodeAddress, requesterOf, hw, h]

theorem decodeAddress_relDram (h : classify w = .relDram) :
    decodeAddress b = .relDram (slice w 31 32) (slice w 0 30) (requesterOf b) := by
  simp [decodeAddress, requesterOf, hw, h]

end

/-! ### Decoding what was encoded -/

theorem decode_bundle {n : Nat} (op : BitVec 5) (x : BitVec n) :
    decode (bundle op x) = decodeRequest ((x ++ op).setWidth 325) := rfl

theorem decode_addressBits (w : Word) (my : Requester) :
    decode (addressBits w my) = .ok (decodeAddress (my.core ++ my.pod ++ my.pxn ++ w)) := rfl

/-- A count the port carries survives its 32 bits. -/
theorem toNat_ofNat_of_countOnPort {n : Nat} (h : countOnPort n = true) : (BitVec.ofNat 32 n).toNat = n :=
  (BitVec.toNat_ofNat n 32).trans (Nat.mod_eq_of_lt (of_decide_eq_true h))

/-- Every signal of an `AddressInfo` bundle is read where `infoBits` puts it (R73). -/
theorem infoOfBundle_infoBits (op : BitVec 5) (i : InfoBundle) :
    infoOfBundle ((infoBits i ++ op).setWidth 325) = i := by
  obtain ⟨t, m, f, xv, yv, zv, x, y, z⟩ := i
  simp (disch := omega) only [infoOfBundle, infoBits, slice_bundle_operand, getLsbD_bundle_operand, slice_append_high,
    slice_append_low, slice_all, BitVec.getLsbD_append, Nat.reduceSub]
  simp

theorem requesterOf_addressBits (w : Word) (my : Requester) :
    requesterOf (my.core ++ my.pod ++ my.pxn ++ w) = my := by
  obtain ⟨x, y, z⟩ := my
  simp (disch := omega) only [requesterOf, slice_append_high, slice_append_low, slice_all, Nat.reduceSub]

/-! The operands of an address word lie where the row of its format reads them. -/

theorem slice_absDramWord (low : BitVec 62) : slice (absDramWord low) 0 62 = low := slice_append_lowest _ _

theorem slice_absL2spWord (low : BitVec 61) : slice (absL2spWord low) 0 61 = low := slice_append_lowest _ _

theorem slice_absL1spWord_ids (ids : BitVec 31) (offset : BitVec 29) : slice (absL1spWord ids offset) 30 31 = ids :=
  slice_append_third _ _ _ _

theorem slice_absL1spWord_offset (ids : BitVec 31) (offset : BitVec 29) :
    slice (absL1spWord ids offset) 0 29 = offset := slice_append_lowest _ _

theorem slice_absCtrlWord_ids (ids : BitVec 31) (offset : BitVec 29) : slice (absCtrlWord ids offset) 30 31 = ids :=
  slice_append_third _ _ _ _

theorem slice_absCtrlWord_offset (ids : BitVec 31) (offset : BitVec 29) :
    slice (absCtrlWord ids offset) 0 29 = offset := slice_append_lowest _ _

theorem slice_relL1spWord_reserved (r : BitVec 32) (offset : BitVec 29) : slice (relL1spWord r offset) 31 32 = r :=
  slice_append_third _ _ _ _

theorem slice_relL1spWord_offset (r : BitVec 32) (offset : BitVec 29) : slice (relL1spWord r offset) 0 29 = offset :=
  slice_append_lowest _ _

theorem slice_relL2spWord_reserved (r : BitVec 32) (offset : BitVec 29) : slice (relL2spWord r offset) 31 32 = r :=
  slice_append_third _ _ _ _

theorem slice_relL2spWord_offset (r : BitVec 32) (offset : BitVec 29) : slice (relL2spWord r offset) 0 29 = offset :=
  slice_append_lowest _ _

theorem slice_relDramWord_reserved (r : BitVec 32) (offset : BitVec 30) : slice (relDramWord r offset) 31 32 = r :=
  slice_append_third _ _ _ _

theorem slice_relDramWord_offset (r : BitVec 32) (offset : BitVec 30) : slice (relDramWord r offset) 0 30 = offset :=
  slice_append_lowest _ _

/-- Settles O2: the op code or the format selects the instruction's own row, and each slice of the row lies on the
operand that the encoder has put there. -/
theorem encodedInstructionsDecodeBack : Obligations.EncodedInstructionsDecodeBack := by
  intro i hwf
  cases i
  case' bfBits => rw [encode, decode_bundle, decodeRequest_bfBits (slice_bundle_op _ _)]
  case' bfMask => rw [encode, decode_bundle, decodeRequest_bfMask (slice_bundle_op _ _)]
  case' bfGet => rw [encode, decode_bundle, decodeRequest_bfGet (slice_bundle_op _ _)]
  case' bfSet => rw [encode, decode_bundle, decodeRequest_bfSet (slice_bundle_op _ _)]
  case' amCfg => rw [encode, decode_bundle, decodeRequest_amCfg (slice_bundle_op _ _)]
  case amEnc => rw [encode, decode_bundle, decodeRequest_amEnc (slice_bundle_op _ _), infoOfBundle_infoBits]
  case' amDec => rw [encode, decode_bundle, decodeRequest_amDec (slice_bundle_op _ _)]
  case' amField => rw [encode, decode_bundle, decodeRequest_amField (slice_bundle_op _ _)]
  case amStatus => rw [encode, decode_bundle, decodeRequest_amStatus (slice_bundle_op _ _)]
  case' rbBanks => rw [encode, decode_bundle, decodeRequest_rbBanks (slice_bundle_op _ _)]
  case' rbTotal => rw [encode, decode_bundle, decodeRequest_rbTotal (slice_bundle_op _ _)]
  case' rbRange => rw [encode, decode_bundle, decodeRequest_rbRange (slice_bundle_op _ _)]
  case' rbL1sp => rw [encode, decode_bundle, decodeRequest_rbL1sp (slice_bundle_op _ _)]
  case' rbL2sp => rw [encode, decode_bundle, decodeRequest_rbL2sp (slice_bundle_op _ _)]
  case' rbDram => rw [encode, decode_bundle, decodeRequest_rbDram (slice_bundle_op _ _)]
  case absDram =>
    rw [encode, decode_addressBits, decodeAddress_absDram (slice_address_word _ _) (classify_absDramWord _),
      slice_absDramWord, requesterOf_addressBits]
  case absL2sp =>
    rw [encode, decode_addressBits, decodeAddress_absL2sp (slice_address_word _ _) (classify_absL2spWord _),
      slice_absL2spWord, requesterOf_addressBits]
  case absL1sp =>
    rw [encode, decode_addressBits, decodeAddress_absL1sp (slice_address_word _ _) (classify_absL1spWord _ _),
      slice_absL1spWord_ids, slice_absL1spWord_offset, requesterOf_addressBits]
  case absCtrl =>
    rw [encode, decode_addressBits, decodeAddress_absCtrl (slice_address_word _ _) (classify_absCtrlWord _ _),
      slice_absCtrlWord_ids, slice_absCtrlWord_offset, requesterOf_addressBits]
  case relL1sp =>
    rw [encode, decode_addressBits, decodeAddress_relL1sp (slice_address_word _ _) (classify_relL1spWord _ _),
      slice_relL1spWord_reserved, slice_relL1spWord_offset, requesterOf_addressBits]
  case relL2sp =>
    rw [encode, decode_addressBits, decodeAddress_relL2sp (slice_address_word _ _) (classify_relL2spWord _ _),
      slice_relL2spWord_reserved, slice_relL2spWord_offset, requesterOf_addressBits]
  case relDram =>
    rw [encode, decode_addressBits, decodeAddress_relDram (slice_address_word _ _) (classify_relDramWord _ _),
      slice_relDramWord_reserved, slice_relDramWord_offset, requesterOf_addressBits]
  -- the operands of the bundles, at their places in R72
  all_goals
    simp (disch := omega) only [slice_bundle_operand, slice_append_high, slice_append_low, slice_all, Nat.reduceSub]
  case amCfg p o c =>
    simp only [WellFormed, Bool.and_eq_true] at hwf
    obtain ⟨⟨hp, ho⟩, hc⟩ := hwf
    rw [toNat_ofNat_of_countOnPort hp, toNat_ofNat_of_countOnPort ho, toNat_ofNat_of_countOnPort hc]

end Sys2Proof
end

section
/-! The formats of an address word by their selector bits (R50, R62): classification, the masks and matches of the rows,
and the words the encoder builds are all read off one table of the bits each format fixes. -/

namespace Sys2Proof

/-! ### The selector bits -/

/-- The bits that a format fixes, each with its value (R50). -/
def selectorBits : Format → List (Nat × Bool)
  | .absDram => [(63, true), (62, true)]
  | .absL2sp => [(63, true), (62, false), (61, true)]
  | .absL1sp => [(63, true), (62, false), (61, false), (29, false)]
  | .absCtrl => [(63, true), (62, false), (61, false), (29, true)]
  | .relDram => [(63, false), (30, true)]
  | .relL2sp => [(63, false), (30, false), (29, true)]
  | .relL1sp => [(63, false), (30, false), (29, false)]

/-- A word has these values at these bits. -/
def HasBits (w : Word) (bits : List (Nat × Bool)) : Prop := ∀ p ∈ bits, w.getLsbD p.1 = p.2

@[simp] theorem hasBits_nil (w : Word) : HasBits w [] := List.forall_mem_nil _

@[simp] theorem hasBits_cons (w : Word) (j : Nat) (v : Bool) (bits : List (Nat × Bool)) :
    HasBits w ((j, v) :: bits) ↔ w.getLsbD j = v ∧ HasBits w bits := List.forall_mem_cons

/-- The tests of R50 in their order select a format exactly when the word has the format's selector bits. -/
theorem classify_eq_iff_hasBits (w : Word) (f : Format) : classify w = f ↔ HasBits w (selectorBits f) := by
  unfold classify
  cases f <;> split_ifs <;> simp_all [selectorBits]

/-! ### The masks and matches -/

namespace Machine

theorem formatMask_getLsbD (f : Format) :
    ∀ j < 64, (formatMask f).getLsbD j = (selectorBits f).any (fun p => p.1 == j) := by
  cases f <;> decide

/-- Outside the selector bits a match is 0. -/
theorem formatMatch_and_formatMask (f : Format) : formatMatch f &&& formatMask f = formatMatch f := by
  cases f <;> rfl

theorem hasBits_formatMatch (f : Format) : HasBits (formatMatch f) (selectorBits f) := by
  cases f <;> simp [selectorBits, formatMatch]

theorem selectorBits_lt (f : Format) : ∀ p ∈ selectorBits f, p.1 < 64 := by
  cases f <;> decide

/-- The row of a format accepts the words that have its selector bits. -/
theorem and_formatMask_eq_formatMatch_iff_hasBits (w : Word) (f : Format) :
    w &&& formatMask f = formatMatch f ↔ HasBits w (selectorBits f) := by
  constructor
  · intro h p hp
    have hmask : (formatMask f).getLsbD p.1 = true := by
      rw [formatMask_getLsbD f p.1 (selectorBits_lt f p hp)]
      exact List.any_eq_true.2 ⟨p, hp, beq_self_eq_true p.1⟩
    calc w.getLsbD p.1 = (w &&& formatMask f).getLsbD p.1 := by rw [BitVec.getLsbD_and, hmask, Bool.and_true]
      _ = p.2 := by rw [h, hasBits_formatMatch f p hp]
  · intro h
    rw [← formatMatch_and_formatMask f]
    refine BitVec.eq_of_getLsbD_eq fun j hj => ?_
    rw [BitVec.getLsbD_and, BitVec.getLsbD_and]
    cases hmask : (formatMask f).getLsbD j with
    | false => rw [Bool.and_false, Bool.and_false]
    | true =>
      rw [formatMask_getLsbD f j hj, List.any_eq_true] at hmask
      obtain ⟨p, hp, hpj⟩ := hmask
      rw [← eq_of_beq hpj, h p hp, hasBits_formatMatch f p hp]

/-- Settles O5: both sides say that the word has the selector bits of the format. -/
theorem everyWordMatchesExactlyItsFormat : Obligations.EveryWordMatchesExactlyItsFormat := fun w f =>
  (and_formatMask_eq_formatMatch_iff_hasBits w f).trans (classify_eq_iff_hasBits w f).symm

end Machine

/-! ### A word is its selector bits and the operands of its row -/

/-- Four slices that touch, from bit 0 upward. -/
theorem slice_append_four {N : Nat} (b : BitVec N) (k l m n : Nat) :
    slice b (n + m + l) k ++ slice b (n + m) l ++ slice b n m ++ slice b 0 n = slice b 0 (k + l + m + n) := by
  rw [slice_append_slice b (n + m), slice_append_slice b n]
  simpa only [Nat.zero_add] using slice_append_slice b 0 (k + l + m) n

section
variable {w : Word}

theorem absDramWord_slice (h : classify w = .absDram) : absDramWord (slice w 0 62) = w := by
  simp only [classify_eq_iff_hasBits, selectorBits, hasBits_cons] at h
  obtain ⟨h63, h62, -⟩ := h
  have hsel : slice w 62 2 = 0b11#2 := by rw [slice_two, h63, h62]; rfl
  calc absDramWord (slice w 0 62) = slice w 62 2 ++ slice w 0 62 := by rw [hsel]; rfl
    _ = slice w 0 64 := slice_append_slice w 0 2 62
    _ = w := slice_all w

theorem absL2spWord_slice (h : classify w = .absL2sp) : absL2spWord (slice w 0 61) = w := by
  simp only [classify_eq_iff_hasBits, selectorBits, hasBits_cons] at h
  obtain ⟨h63, h62, h61, -⟩ := h
  have hsel : slice w 61 3 = 0b101#3 := by rw [slice_three, h63, h62, h61]; rfl
  calc absL2spWord (slice w 0 61) = slice w 61 3 ++ slice w 0 61 := by rw [hsel]; rfl
    _ = slice w 0 64 := slice_append_slice w 0 3 61
    _ = w := slice_all w

theorem absL1spWord_slice (h : classify w = .absL1sp) : absL1spWord (slice w 30 31) (slice w 0 29) = w := by
  simp only [classify_eq_iff_hasBits, selectorBits, hasBits_cons] at h
  obtain ⟨h63, h62, h61, h29, -⟩ := h
  have hsel : slice w 61 3 = 0b100#3 := by rw [slice_three, h63, h62, h61]; rfl
  have hctrl : slice w 29 1 = 0b0#1 := by rw [slice_one, h29]; rfl
  calc absL1spWord (slice w 30 31) (slice w 0 29)
      = slice w 61 3 ++ slice w 30 31 ++ slice w 29 1 ++ slice w 0 29 := by rw [hsel, hctrl]; rfl
    _ = slice w 0 64 := slice_append_four w 3 31 1 29
    _ = w := slice_all w

theorem absCtrlWord_slice (h : classify w = .absCtrl) : absCtrlWord (slice w 30 31) (slice w 0 29) = w := by
  simp only [classify_eq_iff_hasBits, selectorBits, hasBits_cons] at h
  obtain ⟨h63, h62, h61, h29, -⟩ := h
  have hsel : slice w 61 3 = 0b100#3 := by rw [slice_three, h63, h62, h61]; rfl
  have hctrl : slice w 29 1 = 0b1#1 := by rw [slice_one, h29]; rfl
  calc absCtrlWord (slice w 30 31) (slice w 0 29)
      = slice w 61 3 ++ slice w 30 31 ++ slice w 29 1 ++ slice w 0 29 := by rw [hsel, hctrl]; rfl
    _ = slice w 0 64 := slice_append_four w 3 31 1 29
    _ = w := slice_all w

theorem relL1spWord_slice (h : classify w = .relL1sp) : relL1spWord (slice w 31 32) (slice w 0 29) = w := by
  simp only [classify_eq_iff_hasBits, selectorBits, hasBits_cons] at h
  obtain ⟨h63, h30, h29, -⟩ := h
  have htop : slice w 63 1 = 0b0#1 := by rw [slice_one, h63]; rfl
  have hsel : slice w 29 2 = 0b00#2 := by rw [slice_two, h30, h29]; rfl
  calc relL1spWord (slice w 31 32) (slice w 0 29)
      = slice w 63 1 ++ slice w 31 32 ++ slice w 29 2 ++ slice w 0 29 := by rw [htop, hsel]; rfl
    _ = slice w 0 64 := slice_append_four w 1 32 2 29
    _ = w := slice_all w

theorem relL2spWord_slice (h : classify w = .relL2sp) : relL2spWord (slice w 31 32) (slice w 0 29) = w := by
  simp only [classify_eq_iff_hasBits, selectorBits, hasBits_cons] at h
  obtain ⟨h63, h30, h29, -⟩ := h
  have htop : slice w 63 1 = 0b0#1 := by rw [slice_one, h63]; rfl
  have hsel : slice w 29 2 = 0b01#2 := by rw [slice_two, h30, h29]; rfl
  calc relL2spWord (slice w 31 32) (slice w 0 29)
      = slice w 63 1 ++ slice w 31 32 ++ slice w 29 2 ++ slice w 0 29 := by rw [htop, hsel]; rfl
    _ = slice w 0 64 := slice_append_four w 1 32 2 29
    _ = w := slice_all w

theorem relDramWord_slice (h : classify w = .relDram) : relDramWord (slice w 31 32) (slice w 0 30) = w := by
  simp only [classify_eq_iff_hasBits, selectorBits, hasBits_cons] at h
  obtain ⟨h63, h30, -⟩ := h
  have htop : slice w 63 1 = 0b0#1 := by rw [slice_one, h63]; rfl
  have hsel : slice w 30 1 = 0b1#1 := by rw [slice_one, h30]; rfl
  calc relDramWord (slice w 31 32) (slice w 0 30)
      = slice w 63 1 ++ slice w 31 32 ++ slice w 30 1 ++ slice w 0 30 := by rw [htop, hsel]; rfl
    _ = slice w 0 64 := slice_append_four w 1 32 1 30
    _ = w := slice_all w

end

/-- An address input is its word with the identity beside it. -/
theorem addressBits_slice_requesterOf (b : BitVec 160) : addressBits (slice b 0 64) (requesterOf b) = .address b :=
  congrArg Wire.address ((slice_append_four b 32 32 32 64).trans (slice_all b))

/-- Settles O3: the encoder puts back the selector bits that the word's format says it had. -/
theorem addressBitsReencode : Obligations.AddressBitsReencode := by
  intro b
  cases h : classify (slice b 0 64) with
  | absDram => rw [decodeAddress_absDram rfl h, encode, absDramWord_slice h, addressBits_slice_requesterOf]
  | absL2sp => rw [decodeAddress_absL2sp rfl h, encode, absL2spWord_slice h, addressBits_slice_requesterOf]
  | absL1sp => rw [decodeAddress_absL1sp rfl h, encode, absL1spWord_slice h, addressBits_slice_requesterOf]
  | absCtrl => rw [decodeAddress_absCtrl rfl h, encode, absCtrlWord_slice h, addressBits_slice_requesterOf]
  | relL1sp => rw [decodeAddress_relL1sp rfl h, encode, relL1spWord_slice h, addressBits_slice_requesterOf]
  | relL2sp => rw [decodeAddress_relL2sp rfl h, encode, relL2spWord_slice h, addressBits_slice_requesterOf]
  | relDram => rw [decodeAddress_relDram rfl h, encode, relDramWord_slice h, addressBits_slice_requesterOf]

end Sys2Proof
end

section
/-! What the encoder packs, bit by bit (R64, R65, R136 to R142): an entry of the layout changes its own bits only, so the
selector bits stand as they were set and the reserved bits as they were in the all-zero word. -/

namespace Sys2Proof.Machine

/-- Bit `j` lies off the entry `n` of the layout. -/
def OffField (L : Layout) (n : FieldName) (j : Nat) : Prop := j < (fieldPos L n).lo ∨ (fieldPos L n).hi < j

theorem insertField_getLsbD_of_offField {L : Layout} {n : FieldName} {j : Nat} (h : OffField L n j) (hj : j < 64)
    (v w : Word) : (insertField L n v w).getLsbD j = w.getLsbD j := by
  unfold OffField at h
  rw [insertField_getLsbD L n v w j hj, if_neg (by omega)]

theorem packCoord_getLsbD_of_offField {L : Layout} {n : FieldName} {j : Nat} (h : OffField L n j) (hj : j < 64)
    (v : Option CoordId) (w : Word) : (packCoord L n v w).getLsbD j = w.getLsbD j :=
  insertField_getLsbD_of_offField h hj _ w

/-- The entries that the packing of a format writes (R136 to R142). -/
def packedFields : Format → List FieldName
  | .absDram => [.isAbsolute, .absIsDram, .absPxn, .absDramOffset]
  | .absL2sp => [.isAbsolute, .absIsL2sp, .absPxn, .absPod, .absL2spOffset]
  | .absL1sp => [.isAbsolute, .absPxn, .absPod, .absCore, .absL1spOffset]
  | .absCtrl => [.isAbsolute, .absIsCtrl, .absPxn, .absPod, .absCore, .absL1spOffset]
  | .relL1sp => [.relL1spOffset]
  | .relL2sp => [.relIsL2sp, .relL2spOffset]
  | .relDram => [.relIsDram, .relDramOffset]

/-- A bit off every entry that the packing writes is 0. -/
theorem packInfo_getLsbD_of_offFields {L : Layout} {f : Format} {j : Nat} (i : AddressInfo) (hj : j < 64)
    (h : ∀ n ∈ packedFields f, OffField L n j) : (packInfo L f i).getLsbD j = false := by
  cases f
  all_goals
    simp only [packedFields, List.forall_mem_cons] at h
    simp only [packInfo, packOver, insertField_getLsbD_of_offField, packCoord_getLsbD_of_offField, h, hj,
      BitVec.ofNat_eq_ofNat, BitVec.getLsbD_zero]

section
variable {L : Layout} (hL : L.pxnBits + L.podBits + L.coreBits ≤ 31)
include hL

theorem offField_of_reservedAt {f : Format} {j : Nat}
    (h : reservedAt L.pxnBits L.podBits L.coreBits f j = true) : ∀ n ∈ packedFields f, OffField L n j := by
  cases f
  case absL2sp => exact absurd h Bool.false_ne_true
  all_goals
    simp only [reservedAt, beq_iff_eq, decide_eq_true_eq] at h
    simp only [packedFields, List.forall_mem_cons, List.not_mem_nil, IsEmpty.forall_iff, implies_true,
      and_true, OffField, fieldPos]
    omega

/-- The packing sets the selector bits of its format, and no entry written after them covers one. -/
theorem hasBits_packInfo (f : Format) (i : AddressInfo) : HasBits (packInfo L f i) (selectorBits f) := by
  cases f
  all_goals
    simp (disch := omega) only [packInfo, packOver, selectorBits, hasBits_cons, insertField_getLsbD, packCoord_getLsbD,
      fieldPos, if_neg, if_pos]
    simp

end

/-- A word that encoding answers is the packing of its record's format (R135, R143). -/
theorem eq_packInfo_of_encodeInfo_ok {policy : OverflowPolicy} {L : Layout} {i : AddressInfo} {w : Word}
    (h : encodeInfo policy L i = .ok w) : ∃ f, infoFormat i = some f ∧ w = packInfo L f i := by
  rcases encodeInfo_cases policy L i with ⟨_, he⟩ | ⟨_, _, _, he⟩ | ⟨_, _, f, hf, he⟩
  · cases he.symm.trans h
  · cases he.symm.trans h
  · cases he.symm.trans h
    exact ⟨f, hf, rfl⟩

/-- Settles O34: the selector bits that the packing sets classify its word, and the reserved bits lie off every entry it
writes, whether or not a value was cut to its entry. -/
theorem encodedWordHasItsFormat : Obligations.EncodedWordHasItsFormat := by
  intro policy L i w hL henc
  obtain ⟨f, hf, rfl⟩ := eq_packInfo_of_encodeInfo_ok henc
  have hclass : classify (packInfo L f i) = f := (classify_eq_iff_hasBits _ f).2 (hasBits_packInfo hL f i)
  rw [hclass]
  exact ⟨hf, fun j hj hres => packInfo_getLsbD_of_offFields i hj (offField_of_reservedAt hL hres)⟩

end Sys2Proof.Machine
end

section
/-! Requests as steps (R70, R74, R193, R196, R201): the table's words, the op codes that select nothing, and the reserved
type signals. -/

namespace Sys2Proof.Machine

/-! ### The reserved op codes (R74) -/

/-- The seventeen codes that select no operation. -/
def reservedOps : List Nat :=
  [0x04, 0x05, 0x06, 0x07, 0x0D, 0x0E, 0x0F, 0x16, 0x17, 0x18, 0x19, 0x1A, 0x1B, 0x1C, 0x1D, 0x1E, 0x1F]

theorem slice_op_toNat (b : BitVec 325) : (slice b 0 5).toNat = b.toNat % 32 := by
  rw [slice, BitVec.extractLsb'_toNat, Nat.shiftRight_zero]

theorem decodeRequest_of_mem_reservedOps {b : BitVec 325} (h : (slice b 0 5).toNat ∈ reservedOps) :
    decodeRequest b = .error (.unknownOp (slice b 0 5)) := by
  unfold decodeRequest
  split
  case h_16 => rfl
  all_goals next hop => exact absurd (hop ▸ h) (by decide)

/-- An op code is reserved or one of the fifteen of R72. -/
theorem op_cases (op : BitVec 5) :
    op.toNat ∈ reservedOps ∨ op = 0x00 ∨ op = 0x01 ∨ op = 0x02 ∨ op = 0x03 ∨ op = 0x08 ∨ op = 0x09 ∨ op = 0x0A
      ∨ op = 0x0B ∨ op = 0x0C ∨ op = 0x10 ∨ op = 0x11 ∨ op = 0x12 ∨ op = 0x13 ∨ op = 0x14 ∨ op = 0x15 := by
  revert op
  decide

theorem decodeRequest_ok_of_not_reserved {b : BitVec 325} (h : (slice b 0 5).toNat ∉ reservedOps) :
    ∃ i, decodeRequest b = .ok i := by
  rcases op_cases (slice b 0 5) with hres | hop | hop | hop | hop | hop | hop | hop | hop | hop
    | hop | hop | hop | hop | hop | hop
  · exact absurd hres h
  · exact ⟨_, decodeRequest_bfBits hop⟩
  · exact ⟨_, decodeRequest_bfMask hop⟩
  · exact ⟨_, decodeRequest_bfGet hop⟩
  · exact ⟨_, decodeRequest_bfSet hop⟩
  · exact ⟨_, decodeRequest_amCfg hop⟩
  · exact ⟨_, decodeRequest_amEnc hop⟩
  · exact ⟨_, decodeRequest_amDec hop⟩
  · exact ⟨_, decodeRequest_amField hop⟩
  · exact ⟨_, decodeRequest_amStatus hop⟩
  · exact ⟨_, decodeRequest_rbBanks hop⟩
  · exact ⟨_, decodeRequest_rbTotal hop⟩
  · exact ⟨_, decodeRequest_rbRange hop⟩
  · exact ⟨_, decodeRequest_rbL1sp hop⟩
  · exact ⟨_, decodeRequest_rbL2sp hop⟩
  · exact ⟨_, decodeRequest_rbDram hop⟩

theorem mem_reservedOps_iff (b : BitVec 325) :
    b.toNat % 32 ∈ reservedOps ↔ ∀ i : Instr, decode (.request b) ≠ .ok i := by
  rw [← slice_op_toNat]
  constructor
  · intro hres i hi
    cases (decodeRequest_of_mem_reservedOps hres).symm.trans hi
  · intro hno
    by_contra hres
    obtain ⟨i, hi⟩ := decodeRequest_ok_of_not_reserved hres
    exact hno i hi

/-- How a request without an operation ends: by fault entry, or turned away by a halted codec (R74, R196, R201). -/
theorem refuseUnknownOp_eq (s : State) :
    refuseUnknownOp s = .next
      { s with
        fault := true
        cause := if s.fault then s.cause else 5
        response := some (.error (if s.fault then .faulted else .unknownOp)) } := by
  cases hf : s.fault with
  | true =>
    calc refuseUnknownOp s = .next (s.fail .faulted) := attempt_halted s _ hf
      _ = _ := by simp [State.fail_faulted, hf]
  | false =>
    calc refuseUnknownOp s = .next (s.fail .unknownOp) := attempt_error s _ hf
      _ = _ := by rw [State.fail_eq_haltsWith s _ rfl]; rfl

/-- Settles O4: the reserved codes are those that no row of the decoder answers, and a step refuses them. -/
theorem reservedCodesAreUnknownOp : Obligations.ReservedCodesAreUnknownOp := by
  refine ⟨mem_reservedOps_iff, ?step⟩
  case step =>
    intro s b rest hp hno
    cases hd : decode (.request b) with
    | ok i => exact absurd hd (hno i)
    | error e => rw [step_unknownOp s _ rest e hp hd, refuseUnknownOp_eq]

/-! ### The words of the table, and the step -/

/-- Settles O1, by evaluation of the decoder on each of the seven inputs. -/
theorem tableWordsDecode : Obligations.TableWordsDecode :=
  ⟨rfl, rfl, rfl, rfl, rfl, rfl, rfl⟩

theorem decode_tableWire_of_decodeTableWord {nbits w : Nat} {i : Instr} (h : decodeTableWord nbits w = some i) :
    decode (tableWire nbits w) = .ok i := by
  unfold decodeTableWord at h
  cases hd : decode (tableWire nbits w) with
  | ok i' =>
    rw [hd] at h
    cases h
    rfl
  | error e =>
    rw [hd] at h
    cases h

/-- Settles O6: a word the host has placed first is the first pending event. -/
theorem stepRunsTheDecodedInstruction : Obligations.StepRunsTheDecodedInstruction :=
  ⟨fun s w rest i hp hd => step_wire s w rest i hp hd,
    fun s nbits w i h =>
      step_wire (s.withFetchWord nbits w) (tableWire nbits w) s.pending i rfl (decode_tableWire_of_decodeTableWord h)⟩

/-! ### The reserved type signals (R73, R193) -/

theorem tierOfSignal_reserved {t : BitVec 3} (h : 5 ≤ t.toNat) : tierOfSignal t = none := by
  revert t
  decide

theorem infoOf_reserved {b : InfoBundle} (h : 5 ≤ b.typeSig.toNat) : infoOf b = none := by
  rw [infoOf, tierOfSignal_reserved h, Option.map_none]

/-- `AM.ENC` of a configured codec (R135). -/
theorem exec_amEnc_mapped {s : State} (hc : s.configured = true) (b : InfoBundle) :
    exec (.amEnc b) s = answer s ((encodeBundle Config.overflowPolicy s.layout b).map .word) :=
  calc exec (.amEnc b) s
      = answer s ((withMap s fun L => encodeBundle Config.overflowPolicy L b).map .word) := rfl
    _ = _ := by rw [withMap_configured s _ hc]

/-- Settles O33: the type signal is looked at before anything else of the bundle. -/
theorem reservedTypeSignalIsBadOperand : Obligations.ReservedTypeSignalIsBadOperand := by
  intro s b ⟨hf, hc, _⟩ htype
  have hbad : encodeBundle Config.overflowPolicy s.layout b = .error .badOperand := by
    rw [encodeBundle, infoOf_reserved htype]
  calc exec (.amEnc b) s = answer s (.error .badOperand) := by rw [exec_amEnc_mapped hc, hbad]; rfl
    _ = .next (s.fail .badOperand) := answer_error s _ hf
    _ = .next (s.haltsWith .badOperand 4) := congrArg _ (State.fail_eq_haltsWith s .badOperand rfl)

end Sys2Proof.Machine
end

section
/-! The bitfield unit (R90 to R96): a request on legal bounds is answered and one on bad bounds refused, said once for
the four operations; then the laws of R95, each from the bits of a set and of a get. -/

namespace Sys2Proof.Machine

/-! ### How the four operations end -/

section
variable {hi lo : BitVec 6} {s : State}

theorem answer_checkBounds_of_le (hs : s.Running) (hle : lo.toNat ≤ hi.toNat) (r : Result) :
    answer s ((checkBounds hi lo).map fun _ => r) = .next (s.gives r) := by
  rw [checkBounds_ok hle]
  exact answer_ok s r hs

theorem answer_checkBounds_of_lt (hs : s.Running) (hlt : hi.toNat < lo.toNat) (r : Result) :
    answer s ((checkBounds hi lo).map fun _ => r) = .next (s.haltsWith .badOperand 4) := by
  rw [checkBounds_error hlt]
  calc answer s (.error .badOperand) = .next (s.fail .badOperand) := answer_error s _ hs
    _ = .next (s.haltsWith .badOperand 4) := congrArg _ (State.fail_eq_haltsWith s .badOperand rfl)

end

/-- A bit position the request port can name lies in the word. -/
theorem toNat_le_63 (hi : BitVec 6) : hi.toNat ≤ 63 := Nat.le_of_lt_succ hi.isLt

theorem exec_bfBits_eq (hi lo : BitVec 6) (s : State) : exec (.bfBits hi lo) s
    = answer s ((checkBounds hi lo).map fun _ => .bits (BitVec.ofNat 7 (fieldWidth hi.toNat lo.toNat))) := rfl

theorem exec_bfMask_eq (hi lo : BitVec 6) (s : State) : exec (.bfMask hi lo) s
    = answer s ((checkBounds hi lo).map fun _ => .mask (fieldMask hi.toNat lo.toNat)) := rfl

theorem exec_bfGet_eq (hi lo : BitVec 6) (word : Word) (s : State) : exec (.bfGet hi lo word) s
    = answer s ((checkBounds hi lo).map fun _ => .value (fieldGet hi.toNat lo.toNat word)) := rfl

theorem exec_bfSet_eq (hi lo : BitVec 6) (word value : Word) (s : State) : exec (.bfSet hi lo word value) s
    = answer s ((checkBounds hi lo).map fun _ => .newWord (fieldSet hi.toNat lo.toNat word value)) := rfl

/-- Settles O19: the answer is the width of the field by its definition (R90). -/
theorem bfBitsAnswersTheWidth : Obligations.BfBitsAnswersTheWidth := by
  intro hi lo s hs
  rw [exec_bfBits_eq]
  exact ⟨fun hle => answer_checkBounds_of_le hs hle _, fun hlt => answer_checkBounds_of_lt hs hlt _⟩

/-- Settles O20: the mask is a number of the field's width, which at width 64 still fits the word. -/
theorem bfMaskAnswersAllOnes : Obligations.BfMaskAnswersAllOnes := by
  intro hi lo s hs
  rw [exec_bfMask_eq]
  exact ⟨fun hle => ⟨_, answer_checkBounds_of_le hs hle _, fieldMask_toNat (toNat_le_63 hi)⟩,
    fun hlt => answer_checkBounds_of_lt hs hlt _⟩

/-- Settles O21, by the field's content as a number. -/
theorem bfGetAnswersTheField : Obligations.BfGetAnswersTheField := by
  intro hi lo word s hs
  rw [exec_bfGet_eq]
  exact ⟨fun hle => ⟨_, answer_checkBounds_of_le hs hle _, fieldGet_toNat (toNat_le_63 hi) word⟩,
    fun hlt => answer_checkBounds_of_lt hs hlt _⟩

/-- Settles O22, by the bits of the word after a set. -/
theorem bfSetReplacesTheFieldOnly : Obligations.BfSetReplacesTheFieldOnly := by
  intro hi lo word value s hs
  rw [exec_bfSet_eq]
  exact ⟨fun hle => ⟨_, answer_checkBounds_of_le hs hle _, fieldSet_getLsbD hle (toNat_le_63 hi) word value⟩,
    fun hlt => answer_checkBounds_of_lt hs hlt _⟩

/-! ### The laws (R95) -/

/-- A bit of a set reads the word at that bit only. -/
theorem fieldSet_getLsbD_congr {w w' : Word} {j : Nat} (hw : w.getLsbD j = w'.getLsbD j) (hi lo : Nat) (v : Word) :
    (fieldSet hi lo w v).getLsbD j = (fieldSet hi lo w' v).getLsbD j := by
  simp only [fieldSet, BitVec.getLsbD_or, BitVec.getLsbD_and, hw]

section
variable {hi lo : Nat} (hl : lo ≤ hi) (h : hi ≤ 63)
include hl h

theorem fieldSet_getLsbD_inside (w v : Word) {j : Nat} (hj : j ≤ hi - lo) :
    (fieldSet hi lo w v).getLsbD (lo + j) = v.getLsbD j := by
  rw [fieldSet_getLsbD hl h w v _ (by omega), if_pos (by omega), Nat.add_sub_cancel_left]

theorem fieldSet_getLsbD_outside (w v : Word) {j : Nat} (hj : j < lo ∨ hi < j) :
    (fieldSet hi lo w v).getLsbD j = w.getLsbD j := by
  by_cases hj64 : j < 64
  · rw [fieldSet_getLsbD hl h w v j hj64, if_neg (by omega)]
  · rw [BitVec.getLsbD_of_ge _ j (by omega), BitVec.getLsbD_of_ge _ j (by omega)]

/-- A word is what a set makes of `w` once it carries the low bits of `v` in the field and agrees with
`w` outside. -/
theorem eq_fieldSet_of_bits {u w v : Word} (hin : ∀ j, j ≤ hi - lo → u.getLsbD (lo + j) = v.getLsbD j)
    (hout : ∀ j, j < lo ∨ hi < j → u.getLsbD j = w.getLsbD j) : u = fieldSet hi lo w v := by
  refine BitVec.eq_of_getLsbD_eq fun j _ => ?_
  by_cases hj : j < lo ∨ hi < j
  · rw [hout j hj, fieldSet_getLsbD_outside hl h w v hj]
  · obtain ⟨k, rfl⟩ : ∃ k, j = lo + k := ⟨j - lo, by omega⟩
    rw [hin k (by omega), fieldSet_getLsbD_inside hl h w v (by omega)]

/-- Get after set: the value, masked to the field's width. -/
theorem fieldGet_fieldSet (w v : Word) : fieldGet hi lo (fieldSet hi lo w v) = v &&& fieldMask hi lo := by
  refine BitVec.eq_of_getLsbD_eq fun j _ => ?_
  rw [fieldGet_getLsbD h, BitVec.getLsbD_and, fieldMask_getLsbD h, Bool.and_comm]
  by_cases hj : j ≤ hi - lo
  · rw [fieldSet_getLsbD_inside hl h w v hj]
  · simp [hj]

/-- Set after get. -/
theorem fieldSet_fieldGet (w : Word) : fieldSet hi lo w (fieldGet hi lo w) = w :=
  .symm <| eq_fieldSet_of_bits hl h (fun j hj => by simp [fieldGet_getLsbD h, hj]) fun _ _ => rfl

/-- The last of two sets on one field wins. -/
theorem fieldSet_fieldSet (w v v' : Word) : fieldSet hi lo (fieldSet hi lo w v) v' = fieldSet hi lo w v' :=
  eq_fieldSet_of_bits hl h (fun _ hj => fieldSet_getLsbD_inside hl h _ v' hj) fun _ hj => by
    rw [fieldSet_getLsbD_outside hl h _ v' hj, fieldSet_getLsbD_outside hl h w v hj]

variable {hi' lo' : Nat} (hl' : lo' ≤ hi') (h' : hi' ≤ 63) (hd : hi < lo' ∨ hi' < lo)
include hl' h' hd

omit h in
/-- A set on a disjoint field leaves the bits of this field. -/
theorem fieldSet_getLsbD_disjoint (w v' : Word) {j : Nat} (hj : j ≤ hi - lo) :
    (fieldSet hi' lo' w v').getLsbD (lo + j) = w.getLsbD (lo + j) :=
  fieldSet_getLsbD_outside hl' h' w v' (by omega)

/-- Sets on disjoint fields commute. -/
theorem fieldSet_comm_of_disjoint (w v v' : Word) :
    fieldSet hi' lo' (fieldSet hi lo w v) v' = fieldSet hi lo (fieldSet hi' lo' w v') v := by
  refine eq_fieldSet_of_bits hl h (fun j hj => ?inside) fun j hj => ?outside
  case inside => rw [fieldSet_getLsbD_disjoint hl hl' h' hd _ v' hj, fieldSet_getLsbD_inside hl h w v hj]
  case outside => exact fieldSet_getLsbD_congr (fieldSet_getLsbD_outside hl h w v hj) hi' lo' v'

/-- A set on a disjoint field does not disturb a get. -/
theorem fieldGet_fieldSet_of_disjoint (w v' : Word) : fieldGet hi lo (fieldSet hi' lo' w v') = fieldGet hi lo w := by
  refine BitVec.eq_of_getLsbD_eq fun j _ => ?_
  rw [fieldGet_getLsbD h, fieldGet_getLsbD h]
  by_cases hj : j ≤ hi - lo
  · rw [fieldSet_getLsbD_disjoint hl hl' h' hd w v' hj]
  · simp [hj]

end

/-- Settles O23, law by law in the order of R95. -/
theorem bitfieldLaws : Obligations.BitfieldLaws :=
  fun _ _ w v v' hl h =>
    ⟨fun _ hj => fieldSet_getLsbD_outside hl h w v hj, fieldMask_toNat h, fieldGet_fieldSet hl h w v,
      fieldSet_fieldGet hl h w, fieldSet_fieldSet hl h w v v', fun _ _ hl' h' hd =>
        ⟨fieldSet_comm_of_disjoint hl h hl' h' hd w v v', fieldGet_fieldSet_of_disjoint hl h hl' h' hd w v'⟩⟩

end Sys2Proof.Machine
end

section
/-! The record functions (R119, R117, R118): the factories as chains of setters, and the rendering as words separated by
spaces, from which the type, the mode, the offset and the carried coordinates are read back. -/

namespace Sys2Proof.Machine

/-! ### The factory functions -/

/-- Settles O56: each chain sets both components that the fresh record draws, and leaves unset what the record's format
does not carry. -/
theorem factoriesAreSetterChains : Obligations.FactoriesAreSetterChains :=
  fun _ _ _ _ _ => ⟨⟨rfl, rfl⟩, ⟨rfl, rfl⟩, ⟨rfl, rfl⟩, ⟨rfl, rfl⟩, ⟨rfl, rfl⟩, ⟨rfl, rfl⟩, ⟨rfl, rfl⟩⟩

/-! ### Digits -/

/-- The value of a digit: `digitChar` read back. -/
def digitValue (c : Char) : Nat := if c.toNat < 58 then c.toNat - 48 else c.toNat - 55

/-- The number that a text of digits stands for: `digitsIn` read back. -/
def readDigits (base : Nat) (l : List Char) : Nat := l.foldl (fun n c => base * n + digitValue c) 0

theorem digitValue_digitChar : ∀ {d : Nat}, d < 16 → digitValue (digitChar d) = d := by decide

theorem readDigits_singleton (base : Nat) (c : Char) : readDigits base [c] = digitValue c := by simp [readDigits]

theorem readDigits_append_singleton (base : Nat) (l : List Char) (c : Char) :
    readDigits base (l ++ [c]) = base * readDigits base l + digitValue c := by
  simp only [readDigits, List.foldl_append, List.foldl_cons, List.foldl_nil]

section
variable {base : Nat} (h0 : 0 < base) (h16 : base ≤ 16)
include h0 h16

theorem readDigits_digitsIn : ∀ {fuel n : Nat}, n < base ^ fuel → readDigits base (digitsIn base fuel n) = n
  | 0, n, hn => (Nat.lt_one_iff.mp hn).symm
  | fuel + 1, n, hn => by
    unfold digitsIn
    split
    · rw [readDigits_singleton, digitValue_digitChar (by omega)]
    · have hdiv : n / base < base ^ fuel := Nat.div_lt_of_lt_mul (by rwa [← Nat.pow_succ'])
      have hmod : n % base < 16 := Nat.lt_of_lt_of_le (Nat.mod_lt n h0) h16
      rw [readDigits_append_singleton, readDigits_digitsIn hdiv, digitValue_digitChar hmod, Nat.div_add_mod]

/-- A character that is no digit does not stand in the text of a number. -/
theorem notMem_digitsIn {c : Char} (hc : ∀ d < 16, c ≠ digitChar d) : ∀ fuel n : Nat, c ∉ digitsIn base fuel n
  | 0, _ => List.not_mem_nil
  | fuel + 1, n => by
    unfold digitsIn
    split
    · exact List.mem_singleton.not.mpr (hc n (by omega))
    · have hmod : n % base < 16 := Nat.lt_of_lt_of_le (Nat.mod_lt n h0) h16
      simp only [List.mem_append, List.mem_singleton, notMem_digitsIn hc fuel, hc _ hmod, or_self, not_false_eq_true]

end

theorem decimal_notMem {c : Char} (hc : ∀ d < 16, c ≠ digitChar d) (n : Nat) : c ∉ decimal n :=
  notMem_digitsIn (by decide) (by decide) hc 64 n

theorem decimal_ne_questionMark (n : Nat) : decimal n ≠ "?".toList :=
  fun h => decimal_notMem (c := '?') (by decide) n (h ▸ List.mem_singleton_self '?')

theorem decimal_toNat_injective : Function.Injective fun v : CoordId => decimal v.toNat :=
  fun v u h => BitVec.eq_of_toNat_eq <| by
    have hread (w : CoordId) : readDigits 10 (decimal w.toNat) = w.toNat :=
      readDigits_digitsIn (by decide) (by decide) (Nat.lt_trans w.isLt (by decide))
    rw [← hread v, ← hread u]
    exact congrArg _ h

theorem hexadecimal_toNat_injective : Function.Injective fun f : Word => hexadecimal f.toNat :=
  fun f g h => BitVec.eq_of_toNat_eq <| by
    have hread (w : Word) : readDigits 16 (digitsIn 16 64 w.toNat) = w.toNat :=
      readDigits_digitsIn (by decide) (by decide) (Nat.lt_trans w.isLt (by decide))
    rw [← hread f, ← hread g]
    exact congrArg _ (List.append_cancel_left h)

/-! ### The words of a rendering: none holds a space, and each is read back -/

/-- A coordinate as it stands between two spaces, `pxn=1` or `pxn=?`. -/
def coordWord (k : Coord) : Option CoordId → List Char
  | none => coordText k ++ "=".toList ++ "?".toList
  | some v => coordText k ++ "=".toList ++ decimal v.toNat

/-- The offset as it stands after the last space, `offset=0x40`. -/
def offsetWord (f : Word) : List Char := "offset=".toList ++ hexadecimal f.toNat

/-- What stands between the spaces of a rendering, the two braces left out. -/
def infoWords (i : AddressInfo) : List (List Char) :=
  modeText i.mode :: tierText i.tier :: ((carried i).map (fun k => coordWord k (coordOf i k)) ++ [offsetWord i.offset])

theorem modeText_injective : Function.Injective modeText
  | .absolute, .absolute, _ | .relative, .relative, _ => rfl

/-- All values of a record's `type`. -/
def tiers : List (Option Tier) := [some .l1sp, some .l2sp, some .dram, some .ctrl, none]

theorem mem_tiers : ∀ t : Option Tier, t ∈ tiers
  | none => by decide
  | some t => by cases t <;> decide

theorem tierText_injective : Function.Injective tierText := fun t t' =>
  have hall : ∀ t ∈ tiers, ∀ t' ∈ tiers, tierText t = tierText t' → t = t' := by decide
  hall t (mem_tiers t) t' (mem_tiers t')

theorem coordWord_injective (k : Coord) : Function.Injective (coordWord k)
  | none, none, _ => rfl
  | some _, some _, h => congrArg some (decimal_toNat_injective (List.append_cancel_left h))
  | none, some v, h => absurd (List.append_cancel_left h).symm (decimal_ne_questionMark v.toNat)
  | some v, none, h => absurd (List.append_cancel_left h) (decimal_ne_questionMark v.toNat)

theorem offsetWord_injective : Function.Injective offsetWord :=
  fun _ _ h => hexadecimal_toNat_injective (List.append_cancel_left h)

theorem space_notMem_modeText (m : Mode) : ' ' ∉ modeText m := by cases m <;> decide

theorem space_notMem_tierText (t : Option Tier) : ' ' ∉ tierText t :=
  have hall : ∀ t ∈ tiers, ' ' ∉ tierText t := by decide
  hall t (mem_tiers t)

theorem space_notMem_coordText (k : Coord) : ' ' ∉ coordText k ++ "=".toList := by cases k <;> decide

theorem space_notMem_coordWord (k : Coord) : ∀ v : Option CoordId, ' ' ∉ coordWord k v
  | none => List.not_mem_append (space_notMem_coordText k) (by decide)
  | some v => List.not_mem_append (space_notMem_coordText k) (decimal_notMem (by decide) v.toNat)

theorem space_notMem_offsetWord (f : Word) : ' ' ∉ offsetWord f :=
  List.not_mem_append (by decide) <| List.not_mem_append (by decide) <|
    notMem_digitsIn (by decide) (by decide) (by decide) 64 f.toNat

theorem space_notMem_of_mem_infoWords (i : AddressInfo) : ∀ w ∈ infoWords i, ' ' ∉ w := by
  simp only [infoWords, List.forall_mem_cons, List.forall_mem_append, List.forall_mem_map]
  exact ⟨space_notMem_modeText i.mode, space_notMem_tierText i.tier, fun k _ => space_notMem_coordWord k (coordOf i k),
    space_notMem_offsetWord i.offset, List.forall_mem_nil _⟩

/-! ### The rendering is its words, and the words are the address -/

theorem coordEntry_eq_coordWord (i : AddressInfo) (k : Coord) : coordEntry i k = ' ' :: coordWord k (coordOf i k) := by
  unfold coordEntry
  cases coordOf i k <;> rfl

theorem intercalate_space_cons (w : List Char) (ws : List (List Char)) :
    [' '].intercalate (w :: ws) = w ++ ws.flatMap (' ' :: ·) := by
  induction ws generalizing w with
  | nil => simp
  | cons v vs ih => rw [List.intercalate_cons_cons, ih]; simp

theorem renderInfo_eq_infoWords (i : AddressInfo) :
    renderInfo i = [Char.ofNat 123] ++ [' '].intercalate (infoWords i) ++ [Char.ofNat 125] := by
  have hcoords : coordEntry i = fun k => ' ' :: coordWord k (coordOf i k) := funext (coordEntry_eq_coordWord i)
  rw [renderInfo, hcoords, infoWords, intercalate_space_cons]
  simp only [List.flatMap_cons, List.flatMap_append, List.flatMap_map, List.flatMap_nil, List.append_assoc,
    List.cons_append, List.append_nil]
  rfl

/-- Two renderings are equal exactly when their words are: the words are what the spaces separate. -/
theorem renderInfo_eq_iff_infoWords_eq (a b : AddressInfo) : renderInfo a = renderInfo b ↔ infoWords a = infoWords b := by
  have hsplit (i : AddressInfo) : ([' '].intercalate (infoWords i)).splitOn ' ' = infoWords i :=
    List.splitOn_intercalate ' ' (space_notMem_of_mem_infoWords i) (List.cons_ne_nil _ _)
  rw [renderInfo_eq_infoWords, renderInfo_eq_infoWords, List.append_cancel_right_eq, List.append_cancel_left_eq]
  exact ⟨fun h => by rw [← hsplit a, h, hsplit b], fun h => by rw [h]⟩

theorem carried_congr {a b : AddressInfo} (hm : a.mode = b.mode) (ht : a.tier = b.tier) : carried a = carried b := by
  simp only [carried, infoFormat, hm, ht]

theorem sameAddress_iff (a b : AddressInfo) : sameAddress a b = true ↔ a.mode = b.mode ∧ a.tier = b.tier
    ∧ (∀ k ∈ carried a, coordOf a k = coordOf b k) ∧ a.offset = b.offset := by
  simp only [sameAddress, Bool.and_eq_true, beq_iff_eq, List.all_eq_true]
  tauto

theorem infoWords_eq_iff_sameAddress (a b : AddressInfo) : infoWords a = infoWords b ↔ sameAddress a b = true := by
  rw [sameAddress_iff, infoWords, infoWords, List.cons.injEq, List.cons.injEq, modeText_injective.eq_iff,
    tierText_injective.eq_iff]
  refine and_congr_right fun hm => and_congr_right fun ht => ?_
  rw [carried_congr hm ht, List.append_eq_append_iff_of_size_eq_left (by simp), List.map_inj_left, List.singleton_inj,
    offsetWord_injective.eq_iff]
  simp only [(coordWord_injective _).eq_iff]

/-- Settles O57: the text and the comparison both say that the words of the two records are the same. The premise that
the carried coordinates are populated is not needed, since `?` is no digit and log entry 17 compares two unset ones as
equal. -/
theorem renderingTellsAddressesApart : Obligations.RenderingTellsAddressesApart := fun a b _ _ =>
  (renderInfo_eq_iff_infoWords_eq a b).trans (infoWords_eq_iff_sameAddress a b)

end Sys2Proof.Machine
end

section
/-! The packing of a record as a list of inserts through disjoint entries of the layout (R136 to R142): no insert
reaches what another has written, so each bit is that of one value, and the word is the sum of what the inserts add. -/

namespace Sys2Proof.Machine

/-- Bit `j` lies on the entry `n` of the layout. -/
abbrev OnField (L : Layout) (n : FieldName) (j : Nat) : Prop := (fieldPos L n).lo ≤ j ∧ j ≤ (fieldPos L n).hi

/-- The first entry lies wholly above or wholly below the second. -/
def DisjointFields (L : Layout) (m n : FieldName) : Prop :=
  (fieldPos L m).hi < (fieldPos L n).lo ∨ (fieldPos L n).hi < (fieldPos L m).lo

theorem DisjointFields.symm {L : Layout} {m n : FieldName} (h : DisjointFields L m n) : DisjointFields L n m :=
  Or.symm h

theorem DisjointFields.offField {L : Layout} {m n : FieldName} (h : DisjointFields L m n) {j : Nat}
    (hj : OnField L n j) : OffField L m j := by
  unfold DisjointFields OnField OffField at *
  omega

theorem OnField.lt {L : Layout} {n : FieldName} {j : Nat} (h : OnField L n j) : j < 64 :=
  Nat.lt_succ_of_le (h.2.trans (fieldPos_hi_le L n))

/-- The amount by which an insert through an entry of zeros raises the word. -/
def insertedValue (L : Layout) (p : FieldName × Word) : Nat :=
  p.2.toNat % 2 ^ (fieldPos L p.1).width * 2 ^ (fieldPos L p.1).lo

theorem ofNat_insertedValue_getLsbD (L : Layout) (n : FieldName) (v : Word) {j : Nat} (hj : j < 64) :
    (BitVec.ofNat 64 (insertedValue L (n, v))).getLsbD j
      = (decide (OnField L n j) && v.getLsbD (j - (fieldPos L n).lo)) := by
  rw [BitVec.getLsbD_ofNat, insertedValue, Nat.testBit_mul_two_pow, Nat.testBit_mod_two_pow, BitVec.testBit_toNat]
  by_cases hlo : (fieldPos L n).lo ≤ j
  · have hwidth : j - (fieldPos L n).lo < (fieldPos L n).width ↔ j ≤ (fieldPos L n).hi := by
      unfold FieldPos.width; omega
    simp [hj, hlo, hwidth]
  · simp [hlo]

/-- Where an entry is clear, inserting is adding: no bit carries. -/
theorem insertField_eq_add_of_clear {L : Layout} {n : FieldName} {w : Word} (v : Word)
    (h : ∀ j, OnField L n j → w.getLsbD j = false) :
    insertField L n v w = w + BitVec.ofNat 64 (insertedValue L (n, v)) := by
  have hoverlap : w &&& BitVec.ofNat 64 (insertedValue L (n, v)) = 0#64 := by
    refine BitVec.eq_of_getLsbD_eq fun j hj => ?_
    rw [BitVec.getLsbD_and, ofNat_insertedValue_getLsbD L n v hj, BitVec.getLsbD_zero]
    by_cases hon : OnField L n j
    · rw [h j hon, Bool.false_and]
    · rw [decide_eq_false hon, Bool.false_and, Bool.and_false]
  rw [BitVec.add_eq_or_of_and_eq_zero _ _ hoverlap]
  refine BitVec.eq_of_getLsbD_eq fun j hj => ?_
  rw [BitVec.getLsbD_or, ofNat_insertedValue_getLsbD L n v hj, insertField_getLsbD L n v w j hj]
  by_cases hon : OnField L n j
  · rw [if_pos hon, h j hon, decide_eq_true hon, Bool.true_and, Bool.false_or]
  · rw [if_neg hon, decide_eq_false hon, Bool.false_and, Bool.or_false]

/-! ### A list of inserts -/

/-- The inserts of a list, in its order. -/
def insertAll (L : Layout) (l : List (FieldName × Word)) (w : Word) : Word :=
  l.foldl (fun w p => insertField L p.1 p.2 w) w

section
variable {L : Layout} {l : List (FieldName × Word)}

theorem insertAll_getLsbD_of_offField {j : Nat} (hj : j < 64) (h : ∀ p ∈ l, OffField L p.1 j) (w : Word) :
    (insertAll L l w).getLsbD j = w.getLsbD j := by
  induction l generalizing w with
  | nil => rfl
  | cons p l ih =>
    rw [List.forall_mem_cons] at h
    obtain ⟨hp, hl⟩ := h
    exact (ih hl _).trans (insertField_getLsbD_of_offField hp hj p.2 w)

/-- No later insert reaches what an insert has written. -/
theorem insertAll_getLsbD_of_onField (hl : l.Pairwise fun p q => DisjointFields L p.1 q.1) {p : FieldName × Word}
    (hp : p ∈ l) {j : Nat} (hj : OnField L p.1 j) (w : Word) :
    (insertAll L l w).getLsbD j = p.2.getLsbD (j - (fieldPos L p.1).lo) := by
  induction l generalizing w with
  | nil => exact absurd hp List.not_mem_nil
  | cons q l ih =>
    rw [List.pairwise_cons] at hl
    obtain ⟨hq, htail⟩ := hl
    rcases List.mem_cons.1 hp with rfl | hp
    · calc (insertAll L l (insertField L p.1 p.2 w)).getLsbD j = (insertField L p.1 p.2 w).getLsbD j :=
            insertAll_getLsbD_of_offField hj.lt (fun r hr => (hq r hr).symm.offField hj) _
        _ = p.2.getLsbD (j - (fieldPos L p.1).lo) := by rw [insertField_getLsbD L _ _ w j hj.lt]; exact if_pos hj
    · exact ih htail hp _

theorem insertAll_eq_add_of_clear (hl : l.Pairwise fun p q => DisjointFields L p.1 q.1) {w : Word}
    (h : ∀ p ∈ l, ∀ j, OnField L p.1 j → w.getLsbD j = false) :
    insertAll L l w = w + BitVec.ofNat 64 (l.map (insertedValue L)).sum := by
  induction l generalizing w with
  | nil => exact (BitVec.add_zero w).symm
  | cons p l ih =>
    rw [List.pairwise_cons] at hl
    rw [List.forall_mem_cons] at h
    obtain ⟨hp, htail⟩ := hl
    obtain ⟨hclear, hclears⟩ := h
    have hrest : ∀ q ∈ l, ∀ j, OnField L q.1 j → (insertField L p.1 p.2 w).getLsbD j = false := fun q hq j hj =>
      (insertField_getLsbD_of_offField ((hp q hq).offField hj) hj.lt _ w).trans (hclears q hq j hj)
    calc insertAll L l (insertField L p.1 p.2 w)
        = insertField L p.1 p.2 w + BitVec.ofNat 64 (l.map (insertedValue L)).sum := ih htail hrest
      _ = w + BitVec.ofNat 64 (insertedValue L p) + BitVec.ofNat 64 (l.map (insertedValue L)).sum := by
          rw [insertField_eq_add_of_clear p.2 hclear]
      _ = w + BitVec.ofNat 64 ((p :: l).map (insertedValue L)).sum := by
          rw [BitVec.add_assoc, ← BitVec.ofNat_add, List.map_cons, List.sum_cons]

end

/-! ### The inserts of a format -/

/-- The selector entries that the packing of a format sets to 1 (R136 to R142). -/
def setSelectors : Format → List FieldName
  | .absDram => [.isAbsolute, .absIsDram]
  | .absL2sp => [.isAbsolute, .absIsL2sp]
  | .absL1sp => [.isAbsolute]
  | .absCtrl => [.isAbsolute, .absIsCtrl]
  | .relDram => [.relIsDram]
  | .relL2sp => [.relIsL2sp]
  | .relL1sp => []

/-- The entry of a coordinate (R16). -/
def coordField : Coord → FieldName
  | .pxn => .absPxn
  | .pod => .absPod
  | .core => .absCore

/-- What the packing inserts for a coordinate of a record. -/
def coordValue (i : AddressInfo) (k : Coord) : Word := ((coordOf i k).getD 0).setWidth 64

/-- The inserts that pack a record: the selectors, the carried coordinates, the offset. -/
def packedInserts (f : Format) (i : AddressInfo) : List (FieldName × Word) :=
  (setSelectors f).map (fun n => (n, 1)) ++ (formatCoords f).map (fun k => (coordField k, coordValue i k))
    ++ [(offsetField f, i.offset)]

theorem packInfo_eq_insertAll (L : Layout) (f : Format) (i : AddressInfo) :
    packInfo L f i = insertAll L (packedInserts f i) 0 := by cases f <;> rfl

theorem packedInserts_map_fst (f : Format) (i : AddressInfo) : (packedInserts f i).map Prod.fst = packedFields f := by
  cases f <;> rfl

theorem offset_mem_packedInserts (f : Format) (i : AddressInfo) : (offsetField f, i.offset) ∈ packedInserts f i := by
  simp [packedInserts]

theorem coord_mem_packedInserts {f : Format} {k : Coord} (hk : k ∈ formatCoords f) (i : AddressInfo) :
    (coordField k, coordValue i k) ∈ packedInserts f i := by
  simp only [packedInserts, List.mem_append, List.mem_map]
  exact .inl (.inr ⟨k, hk, rfl⟩)

section
variable {L : Layout} (hL : L.pxnBits + L.podBits + L.coreBits ≤ 31)
include hL

theorem packedFields_disjoint (f : Format) : (packedFields f).Pairwise (DisjointFields L) := by
  cases f
  all_goals
    simp only [packedFields, List.pairwise_cons, List.forall_mem_cons, DisjointFields, fieldPos, List.Pairwise.nil,
      List.not_mem_nil, IsEmpty.forall_iff, implies_true, and_true]
    try omega

theorem packedInserts_disjoint (f : Format) (i : AddressInfo) :
    (packedInserts f i).Pairwise fun p q => DisjointFields L p.1 q.1 := by
  rw [← List.pairwise_map, packedInserts_map_fst]
  exact packedFields_disjoint hL f

/-- A bit on an entry that the packing writes is the bit of the value inserted there. -/
theorem packInfo_getLsbD_of_onField {f : Format} {i : AddressInfo} {p : FieldName × Word} (hp : p ∈ packedInserts f i)
    {j : Nat} (hj : OnField L p.1 j) :
    (packInfo L f i).getLsbD j = p.2.getLsbD (j - (fieldPos L p.1).lo) := by
  rw [packInfo_eq_insertAll]
  exact insertAll_getLsbD_of_onField (packedInserts_disjoint hL f i) hp hj 0

/-- The word of a record as a sum. -/
theorem packInfo_eq_ofNat_sum (f : Format) (i : AddressInfo) :
    packInfo L f i = BitVec.ofNat 64 ((packedInserts f i).map (insertedValue L)).sum := by
  calc packInfo L f i = insertAll L (packedInserts f i) 0 := packInfo_eq_insertAll L f i
    _ = 0 + BitVec.ofNat 64 ((packedInserts f i).map (insertedValue L)).sum :=
        insertAll_eq_add_of_clear (packedInserts_disjoint hL f i) fun _ _ _ _ => BitVec.getLsbD_zero
    _ = _ := BitVec.zero_add _

end

end Sys2Proof.Machine
end

section
/-! Encoding and decoding against each other (R152 to R154): every bit of a word lies on an entry its format carries, is
reserved, or is a selector bit that stands at 0; and an entry is read back as the value that was packed there. -/

namespace Sys2Proof.Machine

/-! ### A record of a known format -/

theorem coordFits_iff (L : Layout) (i : AddressInfo) (k : Coord) :
    coordFits L i k = true ↔ ∀ v, coordOf i k = some v → v.toNat < 2 ^ coordBits L k := by
  unfold coordFits
  cases coordOf i k <;> simp

theorem infoFormat_eq_some_iff (i : AddressInfo) (f : Format) :
    infoFormat i = some f ↔ i.tier = some (formatTier f) ∧ i.mode = formatMode f := by
  obtain ⟨t, m, _, _, _, _⟩ := i
  constructor
  · intro h
    cases t with
    | none => cases h
    | some t => cases t <;> cases m <;> cases h <;> exact ⟨rfl, rfl⟩
  · rintro ⟨rfl, rfl⟩
    exact formatOf_formatMode_formatTier f

section
variable {L : Layout} {f : Format} {i : AddressInfo} (hf : infoFormat i = some f)
include hf

theorem validInfo_iff_of_format : validInfo i = true ↔ ∀ k ∈ formatCoords f, (coordOf i k).isSome = true := by
  simp only [validInfo, carried, hf, Option.isSome_some, Bool.true_and, List.all_eq_true]

theorem fitsInfo_iff_of_format : fitsInfo L i = true ↔ i.offset.toNat < 2 ^ (fieldPos L (offsetField f)).width
    ∧ ∀ k ∈ formatCoords f, ∀ v, coordOf i k = some v → v.toNat < 2 ^ coordBits L k := by
  simp only [fitsInfo, hf, fitsFormat, Bool.and_eq_true, decide_eq_true_eq, List.all_eq_true, coordFits_iff]

theorem sameAddress_iff_of_format {j : AddressInfo} (hf' : infoFormat j = some f) :
    sameAddress i j = true ↔ (∀ k ∈ formatCoords f, coordOf i k = coordOf j k) ∧ i.offset = j.offset := by
  obtain ⟨htier, hmode⟩ := (infoFormat_eq_some_iff i f).1 hf
  obtain ⟨htier', hmode'⟩ := (infoFormat_eq_some_iff j f).1 hf'
  rw [sameAddress_iff, htier, htier', hmode, hmode', carried, hf, and_iff_right rfl, and_iff_right rfl]

theorem encodeInfo_of_valid (policy : OverflowPolicy) (hv : validInfo i = true) :
    encodeInfo policy L i = if fitsInfo L i then .ok (packInfo L f i) else
      match policy with
      | .reject => .error .fieldOverflow
      | .mask => .ok (packInfo L f i) := by
  rw [validInfo_iff_of_format hf, ← List.all_eq_true] at hv
  rw [fitsInfo, encodeInfo, hf]
  exact if_pos hv

end

theorem infoFormat_of_valid {i : AddressInfo} (h : validInfo i = true) : ∃ f, infoFormat i = some f := by
  rw [validInfo, Bool.and_eq_true] at h
  exact Option.isSome_iff_exists.1 h.1

theorem valid_of_encodeInfo_ok {policy : OverflowPolicy} {L : Layout} {i : AddressInfo} {w : Word}
    (h : encodeInfo policy L i = .ok w) : validInfo i = true ∧ ∃ f, infoFormat i = some f ∧ w = packInfo L f i := by
  refine ⟨?_, eq_packInfo_of_encodeInfo_ok h⟩
  rcases encodeInfo_cases policy L i with ⟨_, he⟩ | ⟨hv, _⟩ | ⟨hv, _⟩
  · cases he.symm.trans h
  · exact hv
  · exact hv

theorem offset_readInfo (L : Layout) (f : Format) (raw : Word) (my : Requester) :
    (readInfo L f raw my).offset = readField L (offsetField f) raw := by cases f <;> rfl

theorem coordOf_readInfo (L : Layout) {f : Format} (raw : Word) (my : Requester) :
    ∀ k ∈ formatCoords f, coordOf (readInfo L f raw my) k = some (readCoord L (coordField k) raw) := by
  cases f <;> simp only [formatCoords, List.forall_mem_cons, List.not_mem_nil, IsEmpty.forall_iff, implies_true]
  all_goals trivial

/-! ### What fits its entry -/

section
variable {L : Layout} (hL : L.pxnBits + L.podBits + L.coreBits ≤ 31)
include hL

theorem width_coordField (k : Coord) : (fieldPos L (coordField k)).width = coordBits L k := by
  cases k
  · exact width_absPxn hL
  · exact width_absPod hL
  · exact width_absCore hL

theorem coordBits_le (k : Coord) : coordBits L k ≤ 31 := by
  cases k <;> simp only [coordBits] <;> omega

theorem fitsInfo_readInfo (f : Format) (raw : Word) (my : Requester) : fitsInfo L (readInfo L f raw my) = true := by
  rw [fitsInfo_iff_of_format (infoFormat_readInfo L f raw my), offset_readInfo, readField_toNat L hL]
  refine ⟨Nat.mod_lt _ (Nat.two_pow_pos _), fun k hk v hv => ?_⟩
  have hwidth := width_coordField hL k
  obtain rfl : readCoord L (coordField k) raw = v := Option.some.inj ((coordOf_readInfo L raw my k hk).symm.trans hv)
  rw [readCoord_toNat hL (hwidth.trans_le (coordBits_le hL k)), hwidth]
  exact Nat.mod_lt _ (Nat.two_pow_pos _)

end

/-! ### Reading back what was packed -/

theorem classify_packInfo {L : Layout} (hL : L.pxnBits + L.podBits + L.coreBits ≤ 31) (f : Format) (i : AddressInfo) :
    classify (packInfo L f i) = f := (classify_eq_iff_hasBits _ f).2 (hasBits_packInfo hL f i)

/-- A value that fits an entry is read from a word that holds its bits there. -/
theorem readField_eq_of_bits {L : Layout} {n : FieldName} {w v : Word} (hv : v.toNat < 2 ^ (fieldPos L n).width)
    (h : ∀ j, OnField L n j → w.getLsbD j = v.getLsbD (j - (fieldPos L n).lo)) : readField L n w = v := by
  refine BitVec.eq_of_getLsbD_eq fun j _ => ?_
  rw [readField_getLsbD]
  by_cases hj : (fieldPos L n).lo + j ≤ (fieldPos L n).hi
  · rw [decide_eq_true hj, Bool.true_and, h _ ⟨Nat.le_add_right _ _, hj⟩, Nat.add_sub_cancel_left]
  · have hwidth : (fieldPos L n).width ≤ j := by unfold FieldPos.width; omega
    have hhigh : v.getLsbD j = false :=
      Nat.testBit_eq_false_of_lt (hv.trans_le (Nat.pow_le_pow_right (by decide) hwidth))
    rw [decide_eq_false hj, Bool.false_and, hhigh]

section
variable {L : Layout} (hL : L.pxnBits + L.podBits + L.coreBits ≤ 31) {f : Format} {i : AddressInfo}
include hL

theorem readField_packInfo {p : FieldName × Word} (hp : p ∈ packedInserts f i)
    (hv : p.2.toNat < 2 ^ (fieldPos L p.1).width) : readField L p.1 (packInfo L f i) = p.2 :=
  readField_eq_of_bits hv fun _ hj => packInfo_getLsbD_of_onField hL hp hj

theorem readCoord_packInfo {k : Coord} (hk : k ∈ formatCoords f) {v : CoordId} (hi : coordOf i k = some v)
    (hv : v.toNat < 2 ^ coordBits L k) : readCoord L (coordField k) (packInfo L f i) = v := by
  have hvalue : coordValue i k = v.setWidth 64 := by rw [coordValue, hi]; rfl
  have hread : readField L (coordField k) (packInfo L f i) = v.setWidth 64 := by
    have hfits : (v.setWidth 64).toNat < 2 ^ (fieldPos L (coordField k)).width := by
      rwa [width_coordField hL, BitVec.toNat_setWidth_of_le (by decide)]
    exact hvalue ▸ readField_packInfo hL (coord_mem_packedInserts hk i) (hvalue.symm ▸ hfits)
  rw [readCoord, hread, BitVec.setWidth_setWidth_of_le _ (by decide), BitVec.setWidth_eq]

/-- What is read back from the word of a valid record that fits. -/
theorem fields_of_packInfo (hf : infoFormat i = some f) (hvalid : validInfo i = true) (hfits : fitsInfo L i = true) :
    (∀ k ∈ formatCoords f, coordOf i k = some (readCoord L (coordField k) (packInfo L f i)))
      ∧ i.offset = readField L (offsetField f) (packInfo L f i) := by
  rw [validInfo_iff_of_format hf] at hvalid
  rw [fitsInfo_iff_of_format hf] at hfits
  obtain ⟨hoffset, hcoords⟩ := hfits
  refine ⟨fun k hk => ?coord, (readField_packInfo hL (offset_mem_packedInserts f i) hoffset).symm⟩
  case coord =>
    obtain ⟨v, hv⟩ := Option.isSome_iff_exists.1 (hvalid k hk)
    rw [hv, readCoord_packInfo hL hk hv (hcoords k hk v hv)]

/-- Decoding the word of a valid record that fits gives the record back (R153). -/
theorem sameAddress_readInfo_packInfo (hf : infoFormat i = some f) (hvalid : validInfo i = true)
    (hfits : fitsInfo L i = true) (my : Requester) :
    sameAddress (readInfo L f (packInfo L f i) my) i = true := by
  obtain ⟨hcoords, hoffset⟩ := fields_of_packInfo hL hf hvalid hfits
  rw [sameAddress_iff_of_format (infoFormat_readInfo L f _ my) hf]
  exact ⟨fun k hk => (coordOf_readInfo L _ my k hk).trans (hcoords k hk).symm,
    (offset_readInfo L f _ my).trans hoffset.symm⟩

end

/-! ### Packing what was read -/

theorem readField_getLsbD_of_onField {L : Layout} {n : FieldName} (w : Word) {j : Nat} (hj : OnField L n j) :
    (readField L n w).getLsbD (j - (fieldPos L n).lo) = w.getLsbD j := by
  obtain ⟨hlo, hhi⟩ := hj
  rw [readField_getLsbD, Nat.add_sub_cancel' hlo, decide_eq_true hhi, Bool.true_and]

/-- A selector that the packing sets is one bit, and the format fixes it at 1. -/
theorem setSelectors_at (L : Layout) {f : Format} {n : FieldName} (hn : n ∈ setSelectors f) :
    (fieldPos L n).lo = (fieldPos L n).hi ∧ ((fieldPos L n).lo, true) ∈ selectorBits f := by
  revert n
  cases f <;> simp [setSelectors, fieldPos, selectorBits]

/-- The reserved bits, by position and by the entry of `reservedBits` (R64, R65). -/
theorem reservedAt_iff (L : Layout) (f : Format) (j : Nat) :
    reservedAt L.pxnBits L.podBits L.coreBits f j = true
      ↔ ∃ F, reservedBits L f = some F ∧ F.lo ≤ j ∧ j ≤ F.hi := by
  cases f <;> simp [reservedAt, reservedBits] <;> omega

theorem slice_toNat_eq_zero_iff (w : Word) (lo hi : Nat) :
    (slice w lo (hi + 1 - lo)).toNat = 0 ↔ ∀ j, lo ≤ j → j ≤ hi → w.getLsbD j = false := by
  have hbit (k : Nat) : (slice w lo (hi + 1 - lo)).getLsbD k = (decide (k < hi + 1 - lo) && w.getLsbD (lo + k)) :=
    BitVec.getLsbD_extractLsb' ..
  constructor
  · intro h j hlo hhi
    have hj := hbit (j - lo)
    rwa [BitVec.eq_of_toNat_eq (y := 0) h, BitVec.ofNat_eq_ofNat, BitVec.getLsbD_zero, decide_eq_true (by omega),
      Bool.true_and, Nat.add_sub_cancel' hlo, eq_comm] at hj
  · intro h
    have hzero : slice w lo (hi + 1 - lo) = 0 := BitVec.eq_of_getLsbD_eq fun k hk => by
      rw [hbit, h (lo + k) (by omega) (by omega), Bool.and_false, BitVec.ofNat_eq_ofNat, BitVec.getLsbD_zero]
    rw [hzero]
    rfl

theorem lt_of_reservedAt {p o c : Nat} {f : Format} {j : Nat} (h : reservedAt p o c f j = true) : j < 64 := by
  cases f <;> simp [reservedAt] at h <;> omega

/-- A word is canonical when its reserved bits are 0 (R152). -/
theorem canonical_iff (L : Layout) (f : Format) (raw : Word) :
    canonical L f raw = true
      ↔ ∀ j, reservedAt L.pxnBits L.podBits L.coreBits f j = true → raw.getLsbD j = false := by
  simp only [reservedAt_iff, canonical]
  cases reservedBits L f with
  | none => simp
  | some F => simp only [beq_iff_eq, slice_toNat_eq_zero_iff, Option.some.injEq, exists_eq_left', and_imp]

section
variable {L : Layout} (hL : L.pxnBits + L.podBits + L.coreBits ≤ 31)
include hL

/-- Every bit of a word of a format lies on an entry the format carries, is reserved, or is a selector bit that is 0. -/
theorem bit_cases (f : Format) {j : Nat} (hj : j < 64) :
    (∃ n ∈ packedFields f, OnField L n j) ∨ reservedAt L.pxnBits L.podBits L.coreBits f j = true
      ∨ (j, false) ∈ selectorBits f := by
  cases f
  all_goals
    simp only [packedFields, selectorBits, reservedAt, List.mem_cons, List.not_mem_nil, exists_eq_or_imp,
      exists_eq_left, Prod.mk.injEq, OnField, fieldPos, or_false, and_true, and_false, Bool.false_eq_true, beq_iff_eq,
      decide_eq_true_eq]
    omega

/-- The packing of what was read from a word of the format inserts the word's own bits. -/
theorem packedInserts_readInfo_getLsbD {f : Format} {raw : Word} (hraw : HasBits raw (selectorBits f)) (my : Requester)
    {p : FieldName × Word} (hp : p ∈ packedInserts f (readInfo L f raw my)) {j : Nat} (hj : OnField L p.1 j) :
    p.2.getLsbD (j - (fieldPos L p.1).lo) = raw.getLsbD j := by
  simp only [packedInserts, List.mem_append, List.mem_map, List.mem_singleton] at hp
  rcases hp with (⟨n, hn, rfl⟩ | ⟨k, hk, rfl⟩) | rfl
  case inl.inl =>
    obtain ⟨hone, hsel⟩ := setSelectors_at L hn
    obtain rfl : j = (fieldPos L n).lo := Nat.le_antisymm (hj.2.trans_eq hone.symm) hj.1
    simp only [Nat.sub_self, hraw _ hsel]
    rfl
  case inl.inr =>
    have hwidth := width_coordField hL k
    have hle := coordBits_le hL k
    have hlow : j - (fieldPos L (coordField k)).lo < 32 := by
      dsimp only at hj
      unfold FieldPos.width at hwidth
      omega
    simp only [coordValue, coordOf_readInfo L raw my k hk, Option.getD_some, readCoord, BitVec.getLsbD_setWidth,
      decide_eq_true hlow, decide_eq_true (hlow.trans (by decide : 32 < 64)), Bool.true_and]
    exact readField_getLsbD_of_onField raw hj
  case inr =>
    rw [offset_readInfo]
    exact readField_getLsbD_of_onField raw hj

/-- Encoding what was decoded clears the reserved bits and no other (R153). -/
theorem packInfo_readInfo_getLsbD {f : Format} {raw : Word} (hraw : HasBits raw (selectorBits f)) (my : Requester)
    {j : Nat} (hj : j < 64) :
    (packInfo L f (readInfo L f raw my)).getLsbD j
      = (raw.getLsbD j && !reservedAt L.pxnBits L.podBits L.coreBits f j) := by
  cases hres : reservedAt L.pxnBits L.podBits L.coreBits f j with
  | true => rw [packInfo_getLsbD_of_offFields _ hj (offField_of_reservedAt hL hres), Bool.not_true, Bool.and_false]
  | false =>
    rw [Bool.not_false, Bool.and_true]
    rcases bit_cases hL f hj with ⟨n, hn, hon⟩ | hres' | hsel
    · rw [← packedInserts_map_fst f (readInfo L f raw my), List.mem_map] at hn
      obtain ⟨p, hp, rfl⟩ := hn
      rw [packInfo_getLsbD_of_onField hL hp hon, packedInserts_readInfo_getLsbD hL hraw my hp hon]
    · exact absurd hres' (by rw [hres]; exact Bool.false_ne_true)
    · rw [hraw _ hsel, hasBits_packInfo hL f _ _ hsel]

theorem canonical_iff_packInfo_readInfo {f : Format} {raw : Word} (hraw : HasBits raw (selectorBits f))
    (my : Requester) : canonical L f raw = true ↔ packInfo L f (readInfo L f raw my) = raw := by
  rw [canonical_iff]
  constructor
  · intro h
    refine BitVec.eq_of_getLsbD_eq fun j hj => ?_
    rw [packInfo_readInfo_getLsbD hL hraw my hj]
    cases hres : reservedAt L.pxnBits L.podBits L.coreBits f j with
    | true => rw [h j hres, Bool.false_and]
    | false => rw [Bool.not_false, Bool.and_true]
  · intro h j hres
    rw [← h]
    exact packInfo_getLsbD_of_offFields _ (lt_of_reservedAt hres) (offField_of_reservedAt hL hres)

end

/-! ### The obligations -/

/-- The answer of `AM.ENC` to a valid record that fits (R135). -/
theorem exec_amEnc_of_fits {s : State} (hs : s.Ready) {b : InfoBundle} {i : AddressInfo} {f : Format}
    (hb : infoOf b = some i) (hf : infoFormat i = some f) (hvalid : validInfo i = true)
    (hfits : fitsInfo s.layout i = true) :
    exec (.amEnc b) s = .next (s.gives (.word (packInfo s.layout f i))) := by
  obtain ⟨hrun, hconf, _⟩ := hs
  have henc : encodeBundle Config.overflowPolicy s.layout b = .ok (packInfo s.layout f i) := by
    rw [encodeBundle, hb]
    exact (encodeInfo_of_valid hf _ hvalid).trans (if_pos hfits)
  rw [exec_amEnc_mapped hconf, henc]
  exact answer_ok s _ hrun

/-- The layout of a ready codec is within the budget of R131. -/
theorem State.Ready.budget {s : State} (hs : s.Ready) :
    s.layout.pxnBits + s.layout.podBits + s.layout.coreBits ≤ 31 := by
  obtain ⟨_, hconf, hmap⟩ := hs
  obtain ⟨_, _, _, _, _, _, hbudget⟩ := hmap hconf
  exact hbudget

/-- Settles O40: the word packed for the record has the record's format and reserved bits 0, and each entry is read back
as it was packed. -/
theorem decodeOfEncodeIsTheRecord : Obligations.DecodeOfEncodeIsTheRecord := by
  intro s b i my hs hb hvalid hfits
  obtain ⟨hrun, hconf, _⟩ := id hs
  have hL := hs.budget
  obtain ⟨f, hf⟩ := infoFormat_of_valid hvalid
  have hclass : classify (packInfo s.layout f i) = f := classify_packInfo hL f i
  have hcanon : canonical s.layout f (packInfo s.layout f i) = true :=
    (canonical_iff s.layout f _).2 fun j hres =>
      packInfo_getLsbD_of_offFields i (lt_of_reservedAt hres) (offField_of_reservedAt hL hres)
  refine ⟨packInfo s.layout f i, readInfo s.layout f (packInfo s.layout f i) my,
    exec_amEnc_of_fits hs hb hf hvalid hfits, ?decodes, sameAddress_readInfo_packInfo hL hf hvalid hfits my⟩
  case decodes => rw [exec_amDec_mapped hrun hconf, hclass, decodeAs, hcanon]

/-- Settles O41: the record that was read fits, and packing it puts every bit back but the reserved ones. -/
theorem encodeOfDecodeClearsReservedBits : Obligations.EncodeOfDecodeClearsReservedBits := by
  intro s raw my hs
  obtain ⟨hrun, hconf, _⟩ := id hs
  have hL := hs.budget
  have hraw : HasBits raw (selectorBits (classify raw)) := (classify_eq_iff_hasBits raw _).1 rfl
  have hformat := infoFormat_readInfo s.layout (classify raw) raw my
  have hvalid := validInfo_readInfo s.layout (classify raw) raw my
  have hfits := fitsInfo_readInfo hL (classify raw) raw my
  exact ⟨_, _, _, exec_amDec_mapped hrun hconf raw my, hvalid, hfits,
    exec_amEnc_of_fits hs (infoOf_bundleOf _) hformat hvalid hfits, canonical_iff_packInfo_readInfo hL hraw my,
    fun _ hk => packInfo_readInfo_getLsbD hL hraw my hk⟩

/-- Settles O42: the word tells the format, and what it holds in the format's entries is what both records hold. -/
theorem encodeIsInjectiveOnFittingRecords : Obligations.EncodeIsInjectiveOnFittingRecords := by
  intro policy L a b w hL hfita hfitb henca hencb
  obtain ⟨hvalida, f, hfa, rfl⟩ := valid_of_encodeInfo_ok henca
  obtain ⟨hvalidb, g, hfb, hw⟩ := valid_of_encodeInfo_ok hencb
  obtain rfl : f = g := by rw [← classify_packInfo hL f a, hw, classify_packInfo hL g b]
  obtain ⟨hcoordsa, hoffseta⟩ := fields_of_packInfo hL hfa hvalida hfita
  obtain ⟨hcoordsb, hoffsetb⟩ := fields_of_packInfo hL hfb hvalidb hfitb
  rw [sameAddress_iff_of_format hfa hfb]
  exact ⟨fun k hk => by rw [hcoordsa k hk, hcoordsb k hk, hw], by rw [hoffseta, hoffsetb, hw]⟩

end Sys2Proof.Machine
end

section
/-! Configuration and the queries (R130 to R133, R155, R156): the errors of `AM.CFG` in their order, `AM.FIELD` as a
lookup in the layout table, and what `AM.STATUS` shows. -/

namespace Sys2Proof.Machine

/-! ### `AM.CFG` -/

/-- The width of the field of a count is the count's rounded-up logarithm (R8, R130). -/
theorem bitlength_pred_eq_clog {n : Nat} (hn : 1 ≤ n) : bitlength (n - 1) = Nat.clog 2 n :=
  eq_of_forall_ge_iff fun k =>
    (bitlengthIsTheLeastWidth n k hn).trans (Nat.clog_le_iff_le_pow (by decide)).symm

theorem idBits_eq_clog {p o c : Nat} (hp : 1 ≤ p) (ho : 1 ≤ o) (hc : 1 ≤ c) :
    idBits p o c = Nat.clog 2 p + Nat.clog 2 o + Nat.clog 2 c := by
  rw [idBits, bitlength_pred_eq_clog hp, bitlength_pred_eq_clog ho, bitlength_pred_eq_clog hc]

/-- Settles O25: the three clauses are the three ways `AM.CFG` can end in a running codec. -/
theorem cfgBuildsTheMapOrFails : Obligations.CfgBuildsTheMapOrFails := by
  intro p o c s hs
  have hunconf : s.configured = false → ¬ s.configured = true := fun h => by rw [h]; decide
  refine ⟨fun hu hp ho hc hsum => ?built, fun hu hbad => ?refused, exec_amCfg_configured p o c hs⟩
  case built =>
    have hbudget := idBits_eq_clog hp ho hc
    rcases buildMap_cases s p o c with ⟨hconf, _⟩ | ⟨_, hbad, _⟩ | ⟨_, _, _, _, _, hbuild⟩
    · exact absurd hconf (hunconf hu)
    · omega
    · rw [exec_amCfg_eq, hbuild, attempt_ok _ _ _ hs, State.configure, bitlength_pred_eq_clog hp,
        bitlength_pred_eq_clog ho, bitlength_pred_eq_clog hc]
      rfl
  case refused =>
    rcases buildMap_cases s p o c with ⟨hconf, _⟩ | ⟨_, _, hbuild⟩ | ⟨_, hp, ho, hc, hsum, _⟩
    · exact absurd hconf (hunconf hu)
    · rw [exec_amCfg_eq, hbuild, attempt_error _ _ hs, State.fail_eq_haltsWith s _ rfl]
      rfl
    · have hbudget := idBits_eq_clog hp ho hc
      omega

/-! ### `AM.FIELD` -/

/-- The entries in the order of their ids (R75). -/
def fieldNames : List FieldName :=
  [.isAbsolute, .absIsDram, .absIsL2sp, .absIsCtrl, .absPxn, .absPod, .absCore, .absDramOffset, .absL2spOffset,
    .absL1spOffset, .relIsDram, .relIsL2sp, .relL1spOffset, .relL2spOffset, .relDramOffset]

theorem fieldOfId_eq_getElem? (n : BitVec 4) : fieldOfId n = fieldNames[n.toNat]? := rfl

/-- What `AM.FIELD` answers of a layout. -/
def fieldReport (n : BitVec 4) (L : Layout) : Except Error Result :=
  match fieldOfId n with
  | none => .error .unknownField
  | some name => .ok (reportField (fieldPos L name))

theorem exec_amField_eq (n : BitVec 4) (s : State) : exec (.amField n) s = answer s (withMap s (fieldReport n)) := rfl

theorem exec_amField_of_some {s : State} (hs : s.Ready) {n : BitVec 4} {name : FieldName}
    (h : fieldOfId n = some name) :
    exec (.amField n) s = .next (s.gives (reportField (fieldPos s.layout name))) := by
  obtain ⟨hrun, hconf, _⟩ := hs
  rw [exec_amField_eq, withMap_configured s _ hconf, fieldReport, h]
  exact answer_ok s _ hrun

theorem exec_amField_of_none {s : State} (hs : s.Ready) {n : BitVec 4} (h : fieldOfId n = none) :
    exec (.amField n) s = .next (s.haltsWith .unknownField 6) := by
  obtain ⟨hrun, hconf, _⟩ := hs
  rw [exec_amField_eq, withMap_configured s _ hconf, fieldReport, h]
  exact (answer_error s _ hrun).trans (congrArg _ (State.fail_eq_haltsWith s .unknownField rfl))

theorem exec_amField_unconfigured {s : State} (hs : s.Unconfigured) (n : BitVec 4) :
    exec (.amField n) s = .next (s.haltsWith .notConfigured 7) := by
  obtain ⟨hrun, hconf⟩ := hs
  rw [exec_amField_eq, withMap_unconfigured s _ hconf]
  exact (answer_error s _ hrun).trans (congrArg _ (State.fail_eq_haltsWith s .notConfigured rfl))

/-- An entry is empty exactly when its pair is the wrong way round (R17). -/
theorem reportField_eq (F : FieldPos) :
    reportField F = if F.hi < F.lo then .fieldAbsent else .fieldAt (BitVec.ofNat 6 F.hi) (BitVec.ofNat 6 F.lo) := by
  have hempty : F.width = 0 ↔ F.hi < F.lo := by unfold FieldPos.width; omega
  simp only [reportField, hempty]

/-- Settles O26: the table is the positions of the entries in the order of their ids. -/
theorem fieldAnswersTheLayoutTable : Obligations.FieldAnswersTheLayoutTable := by
  refine ⟨fun s hs => ⟨fun k hi lo hk => ?entry, exec_amField_of_none hs rfl⟩,
    fun s n hs => exec_amField_unconfigured hs n⟩
  case entry =>
    have hnames :
        (fieldNames.map fun n => ((fieldPos s.layout n).hi, (fieldPos s.layout n).lo))[k]? = some (hi, lo) := hk
    rw [List.getElem?_map, Option.map_eq_some_iff] at hnames
    obtain ⟨n, hn, hpos⟩ := hnames
    obtain ⟨rfl, rfl⟩ := Prod.mk.inj hpos
    have hlt : k < 15 := (List.getElem?_eq_some_iff.1 hn).1
    have hid : fieldOfId (BitVec.ofNat 4 k) = some n := by
      rw [fieldOfId_eq_getElem?, BitVec.toNat_ofNat, Nat.mod_eq_of_lt (by omega), hn]
    rw [exec_amField_of_some hs hid, reportField_eq]

/-! ### `AM.STATUS` -/

/-- Settles O27: the report shows the map registers exactly when there is a map. -/
theorem statusReportsTheRegisters : Obligations.StatusReportsTheRegisters := by
  intro s
  refine ⟨fun hconf => ?mapped, fun hconf => ?unmapped⟩
  case mapped => simp [exec_amStatus_eq, statusReport, hconf]
  case unmapped => simp [exec_amStatus_eq, statusReport, hconf]

end Sys2Proof.Machine
end

section
/-! The closed forms of the encoder (R136 to R143): the word of a record is the sum of what its packing inserts. -/

namespace Sys2Proof.Machine

/-- `AM.ENC` of a valid record of a known format: its word, or what the policy makes of a value that does not fit
(R135, R143). -/
theorem exec_amEnc_of_valid {s : State} (hs : s.Ready) {b : InfoBundle} {i : AddressInfo} {f : Format}
    (hb : infoOf b = some i) (hf : infoFormat i = some f) (hvalid : validInfo i = true) :
    exec (.amEnc b) s = if fitsInfo s.layout i = true then .next (s.gives (.word (packInfo s.layout f i)))
      else .next (s.overflows (.word (packInfo s.layout f i))) := by
  obtain ⟨hrun, hconf, _⟩ := id hs
  by_cases hfits : fitsInfo s.layout i = true
  · rw [if_pos hfits, exec_amEnc_of_fits hs hb hf hvalid hfits]
  · have henc : encodeBundle Config.overflowPolicy s.layout b =
        encodeInfo Config.overflowPolicy s.layout i := by rw [encodeBundle, hb]
    rw [if_neg hfits, exec_amEnc_mapped hconf, henc, encodeInfo_of_valid hf _ hvalid, if_neg hfits, State.overflows]
    cases Config.overflowPolicy with
    | reject => exact (answer_error s _ hrun).trans (congrArg _ (State.fail_eq_haltsWith s .fieldOverflow rfl))
    | mask => exact answer_ok s _ hrun

/-- The same in the terms of the statements: what it is to fit, and the word with every value as it is and with every
value reduced. -/
theorem exec_amEnc_forms {s : State} (hs : s.Ready) {b : InfoBundle} {i : AddressInfo} {f : Format}
    (hb : infoOf b = some i) (hf : infoFormat i = some f) (hvalid : validInfo i = true) {fits : Prop}
    {exact masked : Nat}
    (hfits : fitsInfo s.layout i = true ↔ fits) (hword : packInfo s.layout f i = BitVec.ofNat 64 masked)
    (hexact : fits → exact = masked) :
    (fits → exec (.amEnc b) s = .next (s.gives (.word (BitVec.ofNat 64 exact))))
      ∧ (¬ fits → exec (.amEnc b) s = .next (s.overflows (.word (BitVec.ofNat 64 masked)))) := by
  rw [exec_amEnc_of_valid hs hb hf hvalid, hword]
  exact ⟨fun h => by rw [if_pos (hfits.2 h), hexact h], fun h => if_neg (mt hfits.1 h)⟩

section
variable {L : Layout} (hL : L.pxnBits + L.podBits + L.coreBits ≤ 31)
include hL

theorem width_absDramOffset : (fieldPos L .absDramOffset).width = 61 - L.pxnBits := by
  simp only [FieldPos.width, fieldPos]; omega

theorem width_absL2spOffset : (fieldPos L .absL2spOffset).width = 61 - L.pxnBits - L.podBits := by
  simp only [FieldPos.width, fieldPos]; omega

end

/-! ### The closed form of a word -/

theorem insertedValue_bit (L : Layout) {n : FieldName} (hbit : (fieldPos L n).lo = (fieldPos L n).hi) :
    insertedValue L (n, 1) = 2 ^ (fieldPos L n).lo := by
  simp [insertedValue, FieldPos.width, hbit]

/-- The selectors that the packing sets are the match of the format's row (R62). -/
theorem sum_setSelectors (L : Layout) (f : Format) :
    ((setSelectors f).map fun n => insertedValue L (n, 1)).sum = (formatMatch f).toNat := by
  have hbits : (setSelectors f).map (fun n => insertedValue L (n, 1))
      = (setSelectors f).map fun n => 2 ^ (fieldPos L n).lo :=
    List.map_congr_left fun n hn => insertedValue_bit L (setSelectors_at L hn).1
  rw [hbits]
  cases f <;> simp [setSelectors, fieldPos, formatMatch]

/-- What a coordinate adds to the word, reduced to its field. -/
def coordTerm (L : Layout) (i : AddressInfo) (k : Coord) : Nat :=
  ((coordOf i k).getD 0).toNat % 2 ^ coordBits L k * 2 ^ (fieldPos L (coordField k)).lo

theorem offsetField_lo (L : Layout) (f : Format) : (fieldPos L (offsetField f)).lo = 0 := by cases f <;> rfl

section
variable {L : Layout} (hL : L.pxnBits + L.podBits + L.coreBits ≤ 31)
include hL

/-- The word of a record: the match of its format, its coordinates at their places, its offset, each value reduced to
its field. -/
theorem packInfo_eq_closedForm (f : Format) (i : AddressInfo) :
    packInfo L f i = BitVec.ofNat 64 ((formatMatch f).toNat + ((formatCoords f).map (coordTerm L i)).sum
      + i.offset.toNat % 2 ^ (fieldPos L (offsetField f)).width) := by
  have hcoord (k : Coord) : insertedValue L (coordField k, coordValue i k) = coordTerm L i k := by
    rw [insertedValue, width_coordField hL, coordValue, BitVec.toNat_setWidth_of_le (by decide), coordTerm]
  have hoffset : insertedValue L (offsetField f, i.offset)
      = i.offset.toNat % 2 ^ (fieldPos L (offsetField f)).width := by
    rw [insertedValue, offsetField_lo, Nat.pow_zero, Nat.mul_one]
  rw [packInfo_eq_ofNat_sum hL, ← hoffset, ← sum_setSelectors L f]
  simp [packedInserts, Function.comp_def, hcoord, Nat.add_assoc]

/-! ### What `AM.ENC` answers for each format -/

variable (x y z : CoordId) (py pz : Option CoordId) (v : Word)

theorem packInfo_absDram : packInfo L .absDram ⟨some .dram, .absolute, v, some x, py, pz⟩
    = BitVec.ofNat 64 (0xC000000000000000 + x.toNat % 2 ^ L.pxnBits * 2 ^ (61 - L.pxnBits)
      + v.toNat % 2 ^ (61 - L.pxnBits)) := by
  rw [packInfo_eq_closedForm hL, offsetField, width_absDramOffset hL]
  rfl

theorem packInfo_absL2sp : packInfo L .absL2sp ⟨some .l2sp, .absolute, v, some x, some y, pz⟩
    = BitVec.ofNat 64 (0xA000000000000000 + x.toNat % 2 ^ L.pxnBits * 2 ^ (61 - L.pxnBits)
      + y.toNat % 2 ^ L.podBits * 2 ^ (61 - L.pxnBits - L.podBits) + v.toNat % 2 ^ (61 - L.pxnBits - L.podBits)) := by
  rw [packInfo_eq_closedForm hL, offsetField, width_absL2spOffset hL]
  simp only [formatCoords, List.map_cons, List.map_nil, List.sum_cons, List.sum_nil, Nat.add_zero, ← Nat.add_assoc]
  rfl

/-- The formats of a core's window differ in their match only. -/
theorem packInfo_core {f : Format} {t : Tier} (hcoords : formatCoords f = [.pxn, .pod, .core])
    (hoffset : offsetField f = .absL1spOffset) : packInfo L f ⟨some t, .absolute, v, some x, some y, some z⟩
    = BitVec.ofNat 64 ((formatMatch f).toNat + x.toNat % 2 ^ L.pxnBits * 2 ^ (61 - L.pxnBits)
      + y.toNat % 2 ^ L.podBits * 2 ^ (61 - L.pxnBits - L.podBits)
      + z.toNat % 2 ^ L.coreBits * 2 ^ (61 - L.pxnBits - L.podBits - L.coreBits) + v.toNat % 2 ^ 29) := by
  rw [packInfo_eq_closedForm hL, hcoords, hoffset]
  simp only [List.map_cons, List.map_nil, List.sum_cons, List.sum_nil, Nat.add_zero, ← Nat.add_assoc]
  rfl

/-- A relative word carries its offset only. -/
theorem packInfo_relative {f : Format} {w : Nat} (hcoords : formatCoords f = [])
    (hw : (fieldPos L (offsetField f)).width = w) (i : AddressInfo) :
    packInfo L f i = BitVec.ofNat 64 ((formatMatch f).toNat + i.offset.toNat % 2 ^ w) := by
  rw [packInfo_eq_closedForm hL, hcoords, hw]
  rfl

end

/-- Settles O28: neither the fit nor the word reads a coordinate beyond the pxn. -/
theorem encAbsoluteDram : Obligations.EncAbsoluteDram := by
  intro s x y z v vy vz hs p fits
  have hL := hs.budget
  have hfits : fitsInfo s.layout ⟨some .dram, .absolute, v, some x, coordOfSignals vy y, coordOfSignals vz z⟩ = true
      ↔ fits := by
    rw [fitsInfo_iff_of_format (f := .absDram) rfl, offsetField, width_absDramOffset hL]
    simp [formatCoords, coordOf, coordBits, fits, p, and_comm]
  refine exec_amEnc_forms hs rfl rfl rfl hfits (packInfo_absDram hL x _ _ v) ?exact
  case exact =>
    rintro ⟨hx, hv⟩
    rw [Nat.mod_eq_of_lt hx, Nat.mod_eq_of_lt hv]

/-- Settles O29: neither the fit nor the word reads the core. -/
theorem encAbsoluteL2sp : Obligations.EncAbsoluteL2sp := by
  intro s x y z v vz hs p o fits
  have hL := hs.budget
  have hfits : fitsInfo s.layout ⟨some .l2sp, .absolute, v, some x, some y, coordOfSignals vz z⟩ = true ↔ fits := by
    rw [fitsInfo_iff_of_format (f := .absL2sp) rfl, offsetField, width_absL2spOffset hL]
    simp [formatCoords, coordOf, coordBits, fits, p, o, and_comm, and_assoc]
  refine exec_amEnc_forms hs rfl rfl rfl hfits (packInfo_absL2sp hL x y _ v) ?exact
  case exact =>
    rintro ⟨hx, hy, hv⟩
    rw [Nat.mod_eq_of_lt hx, Nat.mod_eq_of_lt hy, Nat.mod_eq_of_lt hv]

/-- Settles O30: the two formats fit alike, and their matches differ by `2 ^ 29`. -/
theorem encAbsoluteL1spAndCtrl : Obligations.EncAbsoluteL1spAndCtrl := by
  intro s x y z v hs p o c fits exact masked
  have hL := hs.budget
  have hfits {f : Format} {t : Tier} (hf : infoFormat ⟨some t, .absolute, v, some x, some y, some z⟩ = some f)
      (hcoords : formatCoords f = [.pxn, .pod, .core]) (hoffset : offsetField f = .absL1spOffset) :
      fitsInfo s.layout ⟨some t, .absolute, v, some x, some y, some z⟩ = true ↔ fits := by
    rw [fitsInfo_iff_of_format hf, hcoords, hoffset]
    simp [coordOf, coordBits, fits, p, o, c, FieldPos.width, fieldPos, and_comm, and_assoc]
  have hexact : fits → exact = masked := by
    rintro ⟨hx, hy, hz, hv⟩
    simp only [exact, masked, Nat.mod_eq_of_lt hx, Nat.mod_eq_of_lt hy, Nat.mod_eq_of_lt hz, Nat.mod_eq_of_lt hv]
  obtain ⟨hl1sp, hl1sp'⟩ := exec_amEnc_forms (b := ⟨1, true, v, true, true, true, x, y, z⟩) (masked := masked) hs
    rfl rfl rfl (hfits (f := .absL1sp) rfl rfl rfl) (packInfo_core hL x y z v rfl rfl) hexact
  have hctrlWord : packInfo s.layout .absCtrl ⟨some .ctrl, .absolute, v, some x, some y, some z⟩
      = BitVec.ofNat 64 (masked + 2 ^ 29) := by
    rw [packInfo_core hL x y z v rfl rfl, show (formatMatch .absCtrl).toNat = 0x8000000000000000 + 2 ^ 29 from rfl]
    congr 1
    simp only [masked, p, o, c, State.layout_pxnBits, State.layout_podBits, State.layout_coreBits]
    omega
  obtain ⟨hctrl, hctrl'⟩ := exec_amEnc_forms (b := ⟨4, true, v, true, true, true, x, y, z⟩) hs rfl rfl rfl
    (hfits (f := .absCtrl) rfl rfl rfl) hctrlWord fun h => congrArg (· + 2 ^ 29) (hexact h)
  exact ⟨fun h => ⟨hl1sp h, hctrl h⟩, fun h => ⟨hl1sp' h, hctrl' h⟩⟩

/-- `AM.ENC` of a relative record, whose offset entry has `w` bits (R140 to R142). -/
theorem exec_amEnc_relative {s : State} (hs : s.Ready) {b : InfoBundle} {i : AddressInfo} {f : Format} {w : Nat}
    (hb : infoOf b = some i) (hf : infoFormat i = some f) (hcoords : formatCoords f = [])
    (hw : (fieldPos s.layout (offsetField f)).width = w) :
    (i.offset.toNat < 2 ^ w → exec (.amEnc b) s
        = .next (s.gives (.word (BitVec.ofNat 64 ((formatMatch f).toNat + i.offset.toNat)))))
      ∧ (2 ^ w ≤ i.offset.toNat → exec (.amEnc b) s
        = .next (s.overflows (.word (BitVec.ofNat 64 ((formatMatch f).toNat + i.offset.toNat % 2 ^ w))))) := by
  have hvalid : validInfo i = true := by
    rw [validInfo_iff_of_format hf, hcoords]
    exact List.forall_mem_nil _
  have hfits : fitsInfo s.layout i = true ↔ i.offset.toNat < 2 ^ w := by
    rw [fitsInfo_iff_of_format hf, hcoords, hw]
    exact and_iff_left (List.forall_mem_nil _)
  rw [← Nat.not_lt]
  exact exec_amEnc_forms hs hb hf hvalid hfits (packInfo_relative hs.budget hcoords hw i)
    fun h => by rw [Nat.mod_eq_of_lt h]

/-- Settles O31: the three words differ in their match, which is 0 for `L1SP`. -/
theorem encRelative : Obligations.EncRelative := by
  intro s x y z v vx vy vz hs
  obtain ⟨hl1sp, hl1sp'⟩ := exec_amEnc_relative (b := ⟨1, false, v, vx, vy, vz, x, y, z⟩) (w := 29) hs rfl rfl rfl rfl
  obtain ⟨hl2sp, hl2sp'⟩ := exec_amEnc_relative (b := ⟨2, false, v, vx, vy, vz, x, y, z⟩) (w := 29) hs rfl rfl rfl rfl
  obtain ⟨hdram, hdram'⟩ := exec_amEnc_relative (b := ⟨3, false, v, vx, vy, vz, x, y, z⟩) (w := 30) hs rfl rfl rfl rfl
  have hmatch : (formatMatch .relL1sp).toNat = 0 := rfl
  rw [hmatch, Nat.zero_add, BitVec.ofNat_toNat, BitVec.setWidth_eq] at hl1sp
  rw [hmatch, Nat.zero_add] at hl1sp'
  exact ⟨fun h => ⟨hl1sp h, hl2sp h⟩, fun h => ⟨hl1sp' h, hl2sp' h⟩, hdram, hdram'⟩

end Sys2Proof.Machine
end

section
/-! The closed forms of the decoder (R145 to R152): the record of a word by the digits of the word at the places of the
layout. -/

namespace Sys2Proof.Machine

/-! ### What the entries read, as numbers -/

section
variable {L : Layout} (hL : L.pxnBits + L.podBits + L.coreBits ≤ 31) (raw : Word)
include hL

theorem readOffset_eq_ofNat {f : Format} {k : Nat} (hk : (fieldPos L (offsetField f)).width = k) :
    readField L (offsetField f) raw = BitVec.ofNat 64 (raw.toNat % 2 ^ k) := by
  rw [← hk, ← Nat.div_one raw.toNat, ← Nat.pow_zero 2, ← offsetField_lo L f, ← readField_toNat L hL,
    BitVec.ofNat_toNat, BitVec.setWidth_eq]

theorem readCoord_eq_ofNat (k : Coord) : readCoord L (coordField k) raw
    = BitVec.ofNat 32 (raw.toNat / 2 ^ (fieldPos L (coordField k)).lo % 2 ^ coordBits L k) := by
  have hwidth := width_coordField hL k
  rw [← hwidth, ← readCoord_toNat hL (hwidth.trans_le (coordBits_le hL k)), BitVec.ofNat_toNat, BitVec.setWidth_eq]

theorem readCoord_absPxn : readCoord L .absPxn raw
    = BitVec.ofNat 32 (raw.toNat / 2 ^ (61 - L.pxnBits) % 2 ^ L.pxnBits) := readCoord_eq_ofNat hL raw .pxn

theorem readCoord_absPod : readCoord L .absPod raw
    = BitVec.ofNat 32 (raw.toNat / 2 ^ (61 - L.pxnBits - L.podBits) % 2 ^ L.podBits) := readCoord_eq_ofNat hL raw .pod

theorem readCoord_absCore : readCoord L .absCore raw
    = BitVec.ofNat 32 (raw.toNat / 2 ^ (61 - L.pxnBits - L.podBits - L.coreBits) % 2 ^ L.coreBits) :=
  readCoord_eq_ofNat hL raw .core

end

theorem canonical_absDram_eq (L : Layout) (raw : Word) : canonical L .absDram raw = !raw.getLsbD 61 := by
  rw [Bool.eq_iff_iff, canonical_absDram_iff, getLsbD_eq_decide]
  simp

theorem canonical_absL1sp_eq {L : Layout} (hL : L.pxnBits + L.podBits + L.coreBits ≤ 31) (raw : Word) :
    canonical L .absL1sp raw = decide (raw.toNat / 2 ^ 30 % 2 ^ (31 - L.pxnBits - L.podBits - L.coreBits) = 0) := by
  rw [Bool.eq_iff_iff, canonical_absL1sp_iff hL, decide_eq_true_eq]

/-- The reserved bits of a relative word are bits 62 to 31 (R64). -/
theorem canonical_relative_eq (L : Layout) {f : Format} (hbits : reservedBits L f = some ⟨62, 31⟩) (raw : Word) :
    canonical L f raw = decide (raw.toNat / 2 ^ 31 % 2 ^ 32 = 0) := by
  rw [canonical, hbits, Bool.eq_iff_iff, beq_iff_eq, slice_toNat, decide_eq_true_eq]
  rfl

/-! ### The record of a word of each format -/

section
variable {L : Layout} (hL : L.pxnBits + L.podBits + L.coreBits ≤ 31) (raw : Word) (my : Requester)
include hL

theorem decodeAs_absDram : decodeAs L .absDram raw my = .decoded
    ⟨some .dram, .absolute, BitVec.ofNat 64 (raw.toNat % 2 ^ (61 - L.pxnBits)),
      some (BitVec.ofNat 32 (raw.toNat / 2 ^ (61 - L.pxnBits) % 2 ^ L.pxnBits)), none, none⟩
    (!raw.getLsbD 61) := by
  rw [decodeAs, canonical_absDram_eq, ← readCoord_absPxn hL,
    ← readOffset_eq_ofNat hL raw (f := .absDram) (width_absDramOffset hL)]
  rfl

theorem decodeAs_absL2sp : decodeAs L .absL2sp raw my = .decoded
    ⟨some .l2sp, .absolute, BitVec.ofNat 64 (raw.toNat % 2 ^ (61 - L.pxnBits - L.podBits)),
      some (BitVec.ofNat 32 (raw.toNat / 2 ^ (61 - L.pxnBits) % 2 ^ L.pxnBits)),
      some (BitVec.ofNat 32 (raw.toNat / 2 ^ (61 - L.pxnBits - L.podBits) % 2 ^ L.podBits)), none⟩ true := by
  rw [decodeAs, ← readCoord_absPxn hL, ← readCoord_absPod hL,
    ← readOffset_eq_ofNat hL raw (f := .absL2sp) (width_absL2spOffset hL)]
  rfl

/-- What both formats of a core's window are read as, but for the tier (R147, R148). -/
def readCore (L : Layout) (t : Tier) (raw : Word) : Result :=
  .decoded
    ⟨some t, .absolute, BitVec.ofNat 64 (raw.toNat % 2 ^ 29),
      some (BitVec.ofNat 32 (raw.toNat / 2 ^ (61 - L.pxnBits) % 2 ^ L.pxnBits)),
      some (BitVec.ofNat 32 (raw.toNat / 2 ^ (61 - L.pxnBits - L.podBits) % 2 ^ L.podBits)),
      some (BitVec.ofNat 32 (raw.toNat / 2 ^ (61 - L.pxnBits - L.podBits - L.coreBits) % 2 ^ L.coreBits))⟩
    (decide (raw.toNat / 2 ^ 30 % 2 ^ (31 - L.pxnBits - L.podBits - L.coreBits) = 0))

theorem decodeAs_absL1sp : decodeAs L .absL1sp raw my = readCore L .l1sp raw := by
  rw [decodeAs, readCore, ← canonical_absL1sp_eq hL, ← readCoord_absPxn hL, ← readCoord_absPod hL,
    ← readCoord_absCore hL, ← readOffset_eq_ofNat hL raw (f := .absL1sp) (k := 29) rfl]
  rfl

theorem decodeAs_absCtrl : decodeAs L .absCtrl raw my = readCore L .ctrl raw := by
  rw [decodeAs, readCore, ← canonical_absL1sp_eq hL, ← readCoord_absPxn hL, ← readCoord_absPod hL,
    ← readCoord_absCore hL, ← readOffset_eq_ofNat hL raw (f := .absCtrl) (k := 29) rfl]
  rfl

/-- A relative word, whose offset entry has `k` bits (R149 to R151). -/
theorem decodeAs_relative {f : Format} {k : Nat} (hmode : formatMode f = .relative)
    (hk : (fieldPos L (offsetField f)).width = k) : decodeAs L f raw my = .decoded
    ⟨some (formatTier f), .relative, BitVec.ofNat 64 (raw.toNat % 2 ^ k), some my.pxn, some my.pod, some my.core⟩
    (decide (raw.toNat / 2 ^ 31 % 2 ^ 32 = 0)) := by
  have hbits : reservedBits L f = some ⟨62, 31⟩ := by
    revert hmode
    cases f <;> simp [formatMode, reservedBits]
  rw [decodeAs, canonical_relative_eq L hbits, ← readOffset_eq_ofNat hL raw hk]
  revert hmode
  cases f <;> simp [formatMode, readInfo, formatTier, offsetField]

end

/-! ### The obligations -/

theorem exec_amDec_of_classify {s : State} (hs : s.Ready) {f : Format} {raw : Word} (hclass : classify raw = f)
    (my : Requester) : exec (.amDec raw my) s = .next (s.gives (decodeAs s.layout f raw my)) := by
  obtain ⟨hrun, hconf, _⟩ := hs
  rw [exec_amDec_mapped hrun hconf, hclass]

/-- Settles O35: bits 63 and 62 alone select the format, so bit 61 is left to `canonical`. -/
theorem decAbsoluteDram : Obligations.DecAbsoluteDram := by
  intro s raw my hs h63 h62 p
  have hclass : classify raw = .absDram := by rw [classify, h63, h62]; rfl
  rw [exec_amDec_of_classify hs hclass, decodeAs_absDram hs.budget]
  rfl

/-- Settles O36: the format has no reserved bit. -/
theorem decAbsoluteL2sp : Obligations.DecAbsoluteL2sp := by
  intro s raw my hs h63 h62 h61 p o
  have hclass : classify raw = .absL2sp := by rw [classify, h63, h62, h61]; rfl
  rw [exec_amDec_of_classify hs hclass, decodeAs_absL2sp hs.budget]
  rfl

/-- Settles O37: bit 29 selects the format, and both formats are read alike. -/
theorem decAbsoluteL1spAndCtrl : Obligations.DecAbsoluteL1spAndCtrl := by
  intro s raw my hs h63 h62 h61 p o c
  cases h29 : raw.getLsbD 29 with
  | true =>
    have hclass : classify raw = .absCtrl := by rw [classify, h63, h62, h61, h29]; rfl
    rw [exec_amDec_of_classify hs hclass, decodeAs_absCtrl hs.budget]
    rfl
  | false =>
    have hclass : classify raw = .absL1sp := by rw [classify, h63, h62, h61, h29]; rfl
    rw [exec_amDec_of_classify hs hclass, decodeAs_absL1sp hs.budget]
    rfl

/-- Settles O38: with bit 63 clear, bits 62 to 31 are all that stands above bit 30. -/
theorem decRelative : Obligations.DecRelative := by
  intro s raw my hs h63
  have htop : raw.toNat / 2 ^ 31 % 2 ^ 32 = raw.toNat / 2 ^ 31 := by
    rw [getLsbD_eq_decide, decide_eq_false_iff_not] at h63
    omega
  rw [← htop]
  refine ⟨fun h30 => ?dram, fun h30 => ?scratchpad⟩
  case dram =>
    have hclass : classify raw = .relDram := by rw [classify, h63, h30]; rfl
    rw [exec_amDec_of_classify hs hclass, decodeAs_relative hs.budget raw my rfl rfl]
    rfl
  case scratchpad =>
    cases h29 : raw.getLsbD 29 with
    | true =>
      have hclass : classify raw = .relL2sp := by rw [classify, h63, h30, h29]; rfl
      rw [exec_amDec_of_classify hs hclass, decodeAs_relative hs.budget raw my rfl rfl]
      rfl
    | false =>
      have hclass : classify raw = .relL1sp := by rw [classify, h63, h30, h29]; rfl
      rw [exec_amDec_of_classify hs hclass, decodeAs_relative hs.budget raw my rfl rfl]
      rfl

end Sys2Proof.Machine
end

section
/-! The address words of the opcode table (log entry 1): each is the `AM.DEC` request for its word, and the digits that
`AM.DEC` reads of the word are digits of the operands of its row. -/

namespace Sys2Proof.Machine

/-! ### An address word is a decode request -/

theorem exec_amDec_eq_presentWord (raw : Word) (my : Requester) (s : State) :
    exec (.amDec raw my) s = presentWord (classify raw) raw my s := rfl

/-- A word of a ready codec's format is answered as the format's rule reads it. -/
theorem presentWord_of_ready {s : State} (hs : s.Ready) (f : Format) (w : Word) (my : Requester) :
    presentWord f w my s = .next (s.gives (decodeAs s.layout f w my)) := by
  obtain ⟨hrun, hconf, _⟩ := hs
  rw [presentWord, withMap_configured s _ hconf, answer_ok s _ hrun]

theorem exec_absDram_eq (low : BitVec 62) (my : Requester) (s : State) :
    exec (.absDram low my) s = presentWord .absDram (absDramWord low) my s := rfl

theorem exec_absL2sp_eq (low : BitVec 61) (my : Requester) (s : State) :
    exec (.absL2sp low my) s = presentWord .absL2sp (absL2spWord low) my s := rfl

theorem exec_absL1sp_eq (ids : BitVec 31) (v : BitVec 29) (my : Requester) (s : State) :
    exec (.absL1sp ids v my) s = presentWord .absL1sp (absL1spWord ids v) my s := rfl

theorem exec_absCtrl_eq (ids : BitVec 31) (v : BitVec 29) (my : Requester) (s : State) :
    exec (.absCtrl ids v my) s = presentWord .absCtrl (absCtrlWord ids v) my s := rfl

theorem exec_relL1sp_eq (r : BitVec 32) (v : BitVec 29) (my : Requester) (s : State) :
    exec (.relL1sp r v my) s = presentWord .relL1sp (relL1spWord r v) my s := rfl

theorem exec_relL2sp_eq (r : BitVec 32) (v : BitVec 29) (my : Requester) (s : State) :
    exec (.relL2sp r v my) s = presentWord .relL2sp (relL2spWord r v) my s := rfl

theorem exec_relDram_eq (r : BitVec 32) (v : BitVec 30) (my : Requester) (s : State) :
    exec (.relDram r v my) s = presentWord .relDram (relDramWord r v) my s := rfl

/-- Settles O45: the row of the word's format puts back the word it was cut from. -/
theorem addressWordIsADecodeRequest : Obligations.AddressWordIsADecodeRequest := by
  intro s raw my
  have hword := slice_address_word raw my
  have hmy := requesterOf_addressBits raw my
  rw [exec_amDec_eq_presentWord]
  cases h : classify raw with
  | absDram => rw [decodeAddress_absDram hword h, exec_absDram_eq, absDramWord_slice h, hmy]
  | absL2sp => rw [decodeAddress_absL2sp hword h, exec_absL2sp_eq, absL2spWord_slice h, hmy]
  | absL1sp => rw [decodeAddress_absL1sp hword h, exec_absL1sp_eq, absL1spWord_slice h, hmy]
  | absCtrl => rw [decodeAddress_absCtrl hword h, exec_absCtrl_eq, absCtrlWord_slice h, hmy]
  | relL1sp => rw [decodeAddress_relL1sp hword h, exec_relL1sp_eq, relL1spWord_slice h, hmy]
  | relL2sp => rw [decodeAddress_relL2sp hword h, exec_relL2sp_eq, relL2spWord_slice h, hmy]
  | relDram => rw [decodeAddress_relDram hword h, exec_relDram_eq, relDramWord_slice h, hmy]

/-! ### The digits of a word and of its operands -/

/-- Digits within a run of digits. -/
theorem div_mod_within (n : Nat) {a k lo m : Nat} (hlo : a ≤ lo) (hhi : lo + m ≤ a + k) :
    n / 2 ^ lo % 2 ^ m = n / 2 ^ a % 2 ^ k / 2 ^ (lo - a) % 2 ^ m := by
  refine Nat.eq_of_testBit_eq fun j => ?_
  simp only [Nat.testBit_mod_two_pow, Nat.testBit_div_two_pow]
  by_cases hj : j < m
  · have hin : j + (lo - a) < k := by omega
    have hbit : j + (lo - a) + a = j + lo := by omega
    simp [hj, hin, hbit]
  · simp [hj]

/-- The digits of a word inside one of its operands. -/
theorem div_mod_of_slice {w : Word} {a k : Nat} {b : BitVec k} (h : slice w a k = b) {lo m : Nat} (hlo : a ≤ lo)
    (hhi : lo + m ≤ a + k) : w.toNat / 2 ^ lo % 2 ^ m = b.toNat / 2 ^ (lo - a) % 2 ^ m := by
  rw [div_mod_within w.toNat hlo hhi, ← slice_toNat, h]

theorem mod_of_slice {w : Word} {k : Nat} {b : BitVec k} (h : slice w 0 k = b) {m : Nat} (hm : m ≤ k) :
    w.toNat % 2 ^ m = b.toNat % 2 ^ m := by
  simpa using div_mod_of_slice h (lo := 0) (m := m) le_rfl (by omega)

/-- The highest digits of an operand need no cut. -/
theorem div_mod_top {k : Nat} (b : BitVec k) {lo m : Nat} (h : lo + m = k) :
    b.toNat / 2 ^ lo % 2 ^ m = b.toNat / 2 ^ lo := by
  refine Nat.mod_eq_of_lt (Nat.div_lt_of_lt_mul ?_)
  rw [← Nat.pow_add, h]
  exact b.isLt

section
variable {L : Layout} (hL : L.pxnBits + L.podBits + L.coreBits ≤ 31)
include hL

/-- A word of a core's window by the operands of its row. -/
theorem readCore_of_slices (t : Tier) {w : Word} {ids : BitVec 31} {v : BitVec 29} (hids : slice w 30 31 = ids)
    (hv : slice w 0 29 = v) : readCore L t w = .decoded
      ⟨some t, .absolute, BitVec.ofNat 64 v.toNat,
        some (BitVec.ofNat 32 (ids.toNat / 2 ^ (31 - L.pxnBits))),
        some (BitVec.ofNat 32 (ids.toNat / 2 ^ (31 - L.pxnBits - L.podBits) % 2 ^ L.podBits)),
        some (BitVec.ofNat 32 (ids.toNat / 2 ^ (31 - L.pxnBits - L.podBits - L.coreBits) % 2 ^ L.coreBits))⟩
      (decide (ids.toNat % 2 ^ (31 - L.pxnBits - L.podBits - L.coreBits) = 0)) := by
  have hreserved : w.toNat / 2 ^ 30 % 2 ^ (31 - L.pxnBits - L.podBits - L.coreBits)
      = ids.toNat % 2 ^ (31 - L.pxnBits - L.podBits - L.coreBits) := by
    simpa using div_mod_of_slice hids (lo := 30) le_rfl (by omega)
  rw [readCore, mod_of_slice hv le_rfl, Nat.mod_eq_of_lt v.isLt, hreserved,
    div_mod_of_slice hids (lo := 61 - L.pxnBits) (by omega) (by omega),
    div_mod_of_slice hids (lo := 61 - L.pxnBits - L.podBits) (by omega) (by omega),
    div_mod_of_slice hids (lo := 61 - L.pxnBits - L.podBits - L.coreBits) (by omega) (by omega),
    show 61 - L.pxnBits - 30 = 31 - L.pxnBits by omega,
    show 61 - L.pxnBits - L.podBits - 30 = 31 - L.pxnBits - L.podBits by omega,
    show 61 - L.pxnBits - L.podBits - L.coreBits - 30 = 31 - L.pxnBits - L.podBits - L.coreBits by omega,
    div_mod_top ids (by omega)]

end

/-- Settles O43: the digits of the closed forms lie inside the operands of the rows. -/
theorem absoluteAddressWordsDecode : Obligations.AbsoluteAddressWordsDecode := by
  intro s my hs p o c
  have hL := hs.budget
  refine ⟨fun low => ?dram, fun low => ?l2sp, fun ids v => ⟨?l1sp, ?ctrl⟩⟩
  case dram =>
    have hlow := slice_absDramWord low
    have hbit : (!(absDramWord low).getLsbD 61) = decide (low.toNat < 2 ^ 61) := by
      have hlt := low.isLt
      have hdigit : (absDramWord low).toNat / 2 ^ 61 % 2 ^ 1 = low.toNat / 2 ^ 61 % 2 ^ 1 :=
        div_mod_of_slice hlow (by decide) (by decide)
      rw [getLsbD_eq_decide, ← decide_not, decide_eq_decide]
      omega
    rw [exec_absDram_eq, presentWord_of_ready hs, decodeAs_absDram hL, hbit, mod_of_slice hlow (by omega),
      div_mod_of_slice hlow (by omega) (by omega)]
    rfl
  case l2sp =>
    have hlow := slice_absL2spWord low
    rw [exec_absL2sp_eq, presentWord_of_ready hs, decodeAs_absL2sp hL, mod_of_slice hlow (by omega),
      div_mod_of_slice hlow (by omega) (by omega), div_mod_of_slice hlow (by omega) (by omega),
      Nat.sub_zero, Nat.sub_zero, div_mod_top low (by omega)]
    rfl
  case l1sp =>
    rw [exec_absL1sp_eq, presentWord_of_ready hs, decodeAs_absL1sp hL,
      readCore_of_slices hL .l1sp (slice_absL1spWord_ids ids v) (slice_absL1spWord_offset ids v)]
    rfl
  case ctrl =>
    rw [exec_absCtrl_eq, presentWord_of_ready hs, decodeAs_absCtrl hL,
      readCore_of_slices hL .ctrl (slice_absCtrlWord_ids ids v) (slice_absCtrlWord_offset ids v)]
    rfl

/-- A relative word by the operands of its row. -/
theorem decodeAs_relative_of_slices {L : Layout} (hL : L.pxnBits + L.podBits + L.coreBits ≤ 31) {f : Format} {k : Nat}
    (hmode : formatMode f = .relative) (hk : (fieldPos L (offsetField f)).width = k) {w : Word} {r : BitVec 32}
    {v : BitVec k} (hr : slice w 31 32 = r) (hv : slice w 0 k = v) (my : Requester) :
    decodeAs L f w my = .decoded
      ⟨some (formatTier f), .relative, BitVec.ofNat 64 v.toNat, some my.pxn, some my.pod, some my.core⟩
      (decide (r.toNat = 0)) := by
  rw [decodeAs_relative hL w my hmode hk, mod_of_slice hv le_rfl, Nat.mod_eq_of_lt v.isLt, ← slice_toNat, hr]

/-- Settles O44: the reserved bits and the offset are the operands of the rows. -/
theorem relativeAddressWordsDecode : Obligations.RelativeAddressWordsDecode := by
  intro s my r hs
  have hL := hs.budget
  refine ⟨fun v => ⟨?l1sp, ?l2sp⟩, fun v => ?dram⟩
  case l1sp =>
    rw [exec_relL1sp_eq, presentWord_of_ready hs, decodeAs_relative_of_slices hL (k := 29) rfl rfl
      (slice_relL1spWord_reserved r v) (slice_relL1spWord_offset r v)]
    rfl
  case l2sp =>
    rw [exec_relL2sp_eq, presentWord_of_ready hs, decodeAs_relative_of_slices hL (k := 29) rfl rfl
      (slice_relL2spWord_reserved r v) (slice_relL2spWord_offset r v)]
    rfl
  case dram =>
    rw [exec_relDram_eq, presentWord_of_ready hs, decodeAs_relative_of_slices hL (k := 30) rfl rfl
      (slice_relDramWord_reserved r v) (slice_relDramWord_offset r v)]
    rfl

end Sys2Proof.Machine
end

section
/-! The base of the range builder (R160 to R164): the number of banks, the envelope of a bank, and how `RB.BANKS`,
`RB.TOTAL` and `RB.RANGE` end. -/

namespace Sys2Proof.Machine

/-! ### The number of banks (R161) -/

theorem bankNumber_zero (t : Nat) : bankNumber 0 t = 1 := rfl

theorem bankNumber_of_pos {s : Nat} (hs : 0 < s) (t : Nat) : bankNumber s t = t / s := if_neg hs.ne'

theorem bankNumber_pos {s t : Nat} (h : StepLegal s t) : 0 < bankNumber s t := by
  rcases Nat.eq_zero_or_pos s with rfl | hs
  · exact Nat.one_pos
  · obtain rfl | ⟨hdvd, ht⟩ := h
    · exact absurd hs (lt_irrefl 0)
    · rw [bankNumber_of_pos hs]
      exact Nat.div_pos (Nat.le_of_dvd ht hdvd) hs

theorem bankNumber_mul {s t : Nat} (h : StepLegal s t) (hs : 0 < s) : bankNumber s t * s = t := by
  obtain rfl | ⟨hdvd, _⟩ := h
  · exact absurd hs (lt_irrefl 0)
  · rw [bankNumber_of_pos hs, Nat.div_mul_cancel hdvd]

/-- The port carries the number of banks and every bank index below it. -/
theorem bankNumber_lt (n t : Word) : bankNumber n.toNat t.toNat < 2 ^ 64 := by
  unfold bankNumber
  split
  · decide
  · exact (Nat.div_le_self _ _).trans_lt t.isLt

theorem bankCount_of_legal {s t : Nat} (h : StepLegal s t) : bankCount s t = .ok (bankNumber s t) :=
  (bankCount_cases s t).elim And.right fun hn => absurd h hn.1

theorem bankCount_of_not_legal {s t : Nat} (h : ¬ StepLegal s t) : bankCount s t = .error .configurationError :=
  (bankCount_cases s t).elim (fun hl => absurd hl.1 h) And.right

/-! ### The envelope of an accepted bank (R163, R164) -/

theorem bankRange_of_accepts {m s t b : Nat} (h : RangeAccepts m s t b) :
    bankRange m s t b = .ok (b * s, lastOffset m s t b) :=
  (bankRange_cases m s t b).elim And.right fun hn => absurd h hn.1

theorem bankRange_of_not_accepts {m s t b : Nat} (h : ¬ RangeAccepts m s t b) :
    bankRange m s t b = .error .configurationError :=
  (bankRange_cases m s t b).elim (fun ha => absurd ha.1 h) And.right

/-- The starts of a region's banks lie below the region's end: a bank holds at least a chunk. -/
theorem pred_bankNumber_mul_lt {m s t : Nat} (hstep : StepLegal s t) (hm : 0 < m) (hsm : s ≤ m) :
    (bankNumber s t - 1) * s < m * bankNumber s t :=
  calc (bankNumber s t - 1) * s ≤ (bankNumber s t - 1) * m := Nat.mul_le_mul_left _ hsm
    _ < bankNumber s t * m := Nat.mul_lt_mul_of_pos_right (Nat.sub_one_lt (bankNumber_pos hstep).ne') hm
    _ = m * bankNumber s t := Nat.mul_comm _ _

theorem first_le_lastOffset {m s t b : Nat} (h : RangeAccepts m s t b) : b * s ≤ lastOffset m s t b := by
  obtain ⟨hstep, hm, hsm, _, _⟩ := id h
  have hlast := lastOffset_eq h
  have hstarts := pred_bankNumber_mul_lt hstep hm hsm
  omega

/-- Every envelope of a region has the same length. -/
theorem envelope_length {m s t b : Nat} (h : RangeAccepts m s t b) :
    lastOffset m s t b - b * s + 1 = m * bankNumber s t - (bankNumber s t - 1) * s := by
  have hlast := lastOffset_eq h
  have hle := first_le_lastOffset h
  omega

theorem lastOffset_lt_two_pow {m s t b : Nat} (h : RangeAccepts m s t b) : lastOffset m s t b < 2 ^ 64 := by
  obtain ⟨_, _, _, _, hlast⟩ := h
  exact hlast

theorem first_lt_two_pow {m s t b : Nat} (h : RangeAccepts m s t b) : b * s < 2 ^ 64 :=
  (first_le_lastOffset h).trans_lt (lastOffset_lt_two_pow h)

/-! ### How the three requests end -/

theorem answer_error_eq_haltsWith {s : State} (hs : s.Running) {e : Error} (he : e.setsFault = true) :
    answer s (.error e) = .next (s.haltsWith e e.code) :=
  (answer_error s e hs).trans (congrArg _ (State.fail_eq_haltsWith s e he))

theorem exec_rbBanks_eq (n t : Word) (s : State) : exec (.rbBanks n t) s
    = answer s ((bankCount n.toNat t.toNat).map fun k => .banks (BitVec.ofNat 64 k)) := rfl

theorem exec_rbTotal_eq (m n t : Word) (s : State) : exec (.rbTotal m n t) s
    = answer s (((bankCount n.toNat t.toNat).map fun k => m.toNat * k).map .total) := rfl

theorem exec_rbRange_eq (m n t b : Word) (s : State) : exec (.rbRange m n t b) s
    = answer s ((bankRange m.toNat n.toNat t.toNat b.toNat).map fun r =>
        .range (BitVec.ofNat 64 r.1) (BitVec.ofNat 64 r.2)) := rfl

section
variable {s : State} (hs : s.Running) {m n t b : Word}
include hs

theorem exec_rbBanks_of_legal (h : StepLegal n.toNat t.toNat) : exec (.rbBanks n t) s
    = .next (s.gives (.banks (BitVec.ofNat 64 (bankNumber n.toNat t.toNat)))) := by
  rw [exec_rbBanks_eq, bankCount_of_legal h]
  exact answer_ok s _ hs

theorem exec_rbBanks_of_not_legal (h : ¬ StepLegal n.toNat t.toNat) :
    exec (.rbBanks n t) s = .next (s.haltsWith .configurationError 1) := by
  rw [exec_rbBanks_eq, bankCount_of_not_legal h]
  exact answer_error_eq_haltsWith hs rfl

theorem exec_rbRange_of_accepts (h : RangeAccepts m.toNat n.toNat t.toNat b.toNat) :
    exec (.rbRange m n t b) s = .next (s.gives (.range (BitVec.ofNat 64 (b.toNat * n.toNat))
      (BitVec.ofNat 64 (lastOffset m.toNat n.toNat t.toNat b.toNat)))) := by
  rw [exec_rbRange_eq, bankRange_of_accepts h]
  exact answer_ok s _ hs

theorem exec_rbRange_of_not_accepts (h : ¬ RangeAccepts m.toNat n.toNat t.toNat b.toNat) :
    exec (.rbRange m n t b) s = .next (s.haltsWith .configurationError 1) := by
  rw [exec_rbRange_eq, bankRange_of_not_accepts h]
  exact answer_error_eq_haltsWith hs rfl

/-- The envelopes that `RB.RANGE` answers, as numbers: the port loses nothing of them. -/
theorem exec_rbRange_eq_range_iff (first last : Word) :
    exec (.rbRange m n t b) s = .next (s.gives (.range first last))
      ↔ RangeAccepts m.toNat n.toNat t.toNat b.toNat ∧ first.toNat = b.toNat * n.toNat
        ∧ last.toNat = lastOffset m.toNat n.toNat t.toNat b.toNat := by
  by_cases h : RangeAccepts m.toNat n.toNat t.toNat b.toNat
  · rw [exec_rbRange_of_accepts hs h, next_gives_inj, Result.range.injEq, and_iff_right h,
      ← BitVec.toNat_inj, ← BitVec.toNat_inj, BitVec.toNat_ofNat, BitVec.toNat_ofNat,
      Nat.mod_eq_of_lt (first_lt_two_pow h), Nat.mod_eq_of_lt (lastOffset_lt_two_pow h), eq_comm,
      eq_comm (b := last.toNat)]
  · rw [exec_rbRange_of_not_accepts hs h]
    simp [h, State.haltsWith, State.gives]

end

/-! ### The obligations -/

/-- Settles O46: the three clauses are the legal steps without interleaving, those with it, and the steps that are not
legal. -/
theorem banksAnswersStepOverSize : Obligations.BanksAnswersStepOverSize := by
  intro n t s hs
  refine ⟨fun hn => ?single, fun hn hdvd ht => ?divides, fun hn hbad => ?bad⟩
  case single =>
    rw [exec_rbBanks_of_legal hs (.inl hn), hn, bankNumber_zero]
    rfl
  case divides => rw [exec_rbBanks_of_legal hs (.inr ⟨hdvd, ht⟩), bankNumber_of_pos hn]
  case bad => exact exec_rbBanks_of_not_legal hs (by unfold StepLegal; omega)

/-- Settles O47: both factors are below `2 ^ 64`. -/
theorem totalIsTheExactProduct : Obligations.TotalIsTheExactProduct := by
  intro m n t s hs
  refine ⟨fun hstep => ⟨?product, ?bound⟩, fun hbad => ?bad⟩
  case product =>
    rw [exec_rbTotal_eq, bankCount_of_legal hstep]
    exact answer_ok s _ hs
  case bound =>
    calc m.toNat * bankNumber n.toNat t.toNat
        < 2 ^ 64 * 2 ^ 64 := Nat.mul_lt_mul'' m.isLt (bankNumber_lt n t)
      _ = 2 ^ 128 := by rw [← Nat.pow_add]
  case bad =>
    rw [exec_rbTotal_eq, bankCount_of_not_legal hbad]
    exact answer_error_eq_haltsWith hs rfl

/-- Settles O48: the checks of R164 keep both subtractions and both results in range. -/
theorem rangeAnswersTheEnvelope : Obligations.RangeAnswersTheEnvelope := by
  intro m n t b s hs
  refine ⟨fun h => ?accepted, exec_rbRange_of_not_accepts hs⟩
  case accepted =>
    have hexec := exec_rbRange_of_accepts hs h
    obtain ⟨_, hfirst, hlast⟩ := (exec_rbRange_eq_range_iff hs _ _).1 hexec
    refine ⟨_, _, hexec, hfirst, hlast, ?_, ?_⟩
    · rw [hfirst, hlast]
      exact first_le_lastOffset h
    · rw [hfirst, hlast]
      exact envelope_length h

end Sys2Proof.Machine
end

section
/-! Coverage and ownership (R170, R180, R181): the envelopes of a region cover its offsets, and each offset belongs to
one bank, whose number is the chunk's number modulo the number of banks. -/

namespace Sys2Proof.Machine

/-! ### The banks of a region within 2^64 -/

/-- `RB.RANGE` answers every bank of a region within the offsets the port carries (R164). -/
theorem rangeAccepts_iff_of_region {m s t : Nat} (hstep : StepLegal s t) (hm : 0 < m) (hsm : s ≤ m)
    (hregion : m * bankNumber s t ≤ 2 ^ 64) (b : Nat) : RangeAccepts m s t b ↔ b < bankNumber s t := by
  have hpos : 0 < m * bankNumber s t := Nat.mul_pos hm (bankNumber_pos hstep)
  have hend : lastOffset m s t b < 2 ^ 64 := by
    unfold lastOffset
    omega
  exact ⟨fun ⟨_, _, _, hb, _⟩ => hb, fun hb => ⟨hstep, hm, hsm, hb, hend⟩⟩

theorem lastOffset_lt_region {m s t b : Nat} (h : RangeAccepts m s t b) : lastOffset m s t b < m * bankNumber s t := by
  obtain ⟨hstep, hm, _, _, _⟩ := h
  have hpos : 0 < m * bankNumber s t := Nat.mul_pos hm (bankNumber_pos hstep)
  unfold lastOffset
  omega

/-- The answer for a bank index below the number of banks, which the port carries. -/
theorem exec_rbRange_ofNat {s : State} (hs : s.Running) {m n t : Word} {b : Nat}
    (h : RangeAccepts m.toNat n.toNat t.toNat b) :
    ∃ bank first last : Word, exec (.rbRange m n t bank) s = .next (s.gives (.range first last)) ∧ bank.toNat = b
      ∧ first.toNat = b * n.toNat ∧ last.toNat = lastOffset m.toNat n.toNat t.toNat b := by
  obtain ⟨_, _, _, hb, _⟩ := id h
  have hbank : (BitVec.ofNat 64 b).toNat = b := by
    rw [BitVec.toNat_ofNat, Nat.mod_eq_of_lt (hb.trans (bankNumber_lt n t))]
  rw [← hbank] at h
  have hexec := exec_rbRange_of_accepts hs h
  obtain ⟨_, hfirst, hlast⟩ := (exec_rbRange_eq_range_iff hs _ _).1 hexec
  rw [hbank] at hfirst hlast hexec
  exact ⟨_, _, _, hexec, hbank, hfirst, hlast⟩

/-! ### Coverage (R170) -/

/-- The bank whose first chunk holds the offset, or the last bank beyond the first chunks. -/
def coveringBank (s t a : Nat) : Nat := min (a / s) (bankNumber s t - 1)

theorem coveringBank_lt {s t : Nat} (hstep : StepLegal s t) (a : Nat) : coveringBank s t a < bankNumber s t :=
  (Nat.min_le_right _ _).trans_lt (Nat.sub_one_lt (bankNumber_pos hstep).ne')

theorem coveringBank_first_le (s t a : Nat) : coveringBank s t a * s ≤ a :=
  (Nat.mul_le_mul_right s (Nat.min_le_left _ _)).trans (Nat.div_mul_le_self a s)

theorem le_lastOffset_coveringBank {m s t a : Nat} (h : RangeAccepts m s t (coveringBank s t a))
    (ha : a < m * bankNumber s t) : a ≤ lastOffset m s t (coveringBank s t a) := by
  obtain ⟨hstep, _, hsm, _, _⟩ := id h
  have hlast := lastOffset_eq h
  rcases Nat.le_total (bankNumber s t - 1) (a / s) with hge | hlt
  case inl =>
    have hbank : coveringBank s t a = bankNumber s t - 1 := Nat.min_eq_right hge
    rw [hbank] at hlast ⊢
    omega
  case inr =>
    have hbank : coveringBank s t a = a / s := Nat.min_eq_left hlt
    rw [hbank] at hlast ⊢
    rcases Nat.eq_zero_or_pos s with rfl | hs
    · simp only [Nat.mul_zero] at hlast
      omega
    · have hchunk : a < a / s * s + s := Nat.lt_div_mul_add hs
      have hround : (bankNumber s t - 1) * s + s ≤ m * bankNumber s t :=
        calc (bankNumber s t - 1) * s + s = bankNumber s t * s := by
              rw [← Nat.succ_mul, Nat.succ_eq_add_one, Nat.sub_add_cancel (bankNumber_pos hstep)]
          _ ≤ m * bankNumber s t := by
              rw [Nat.mul_comm]
              exact Nat.mul_le_mul_right _ hsm
      omega

/-- Settles O52: an offset lies in the envelope of its covering bank, and no envelope goes beyond the region. -/
theorem envelopesCoverTheRegion : Obligations.EnvelopesCoverTheRegion := by
  intro m n t s hs hstep hm hnm hregion a
  constructor
  · intro ha
    have hbank := (rangeAccepts_iff_of_region hstep hm hnm hregion _).2 (coveringBank_lt hstep a)
    obtain ⟨b, first, last, hexec, _, hfirst, hlast⟩ := exec_rbRange_ofNat hs hbank
    exact ⟨b, first, last, hexec, hfirst.trans_le (coveringBank_first_le _ _ a),
      (le_lastOffset_coveringBank hbank ha).trans_eq hlast.symm⟩
  · rintro ⟨b, first, last, hexec, _, hle⟩
    obtain ⟨h, _, hlast⟩ := (exec_rbRange_eq_range_iff hs first last).1 hexec
    exact (hle.trans_eq hlast).trans_lt (lastOffset_lt_region h)

/-! ### Ownership (R180, R181) -/

theorem owns_iff (first last s t a : Nat) :
    owns first last s t a = true ↔ first ≤ a ∧ a ≤ last ∧ (s = 0 ∨ (a - first) % t < s) := by
  simp [owns, and_assoc]

/-- The last chunk of bank `b` is chunk `b` of the region's last round (R181). -/
theorem lastOffset_eq_of_chunks {k s t b : Nat} (h : RangeAccepts (s * (k + 1)) s t b) (hs : 0 < s) :
    lastOffset (s * (k + 1)) s t b + 1 = k * t + b * s + s := by
  obtain ⟨hstep, _, _, _, _⟩ := id h
  have ht := bankNumber_mul hstep hs
  have hlast := lastOffset_eq h
  have hregion : s * (k + 1) * bankNumber s t = k * t + t :=
    calc s * (k + 1) * bankNumber s t = (k + 1) * (bankNumber s t * s) := by ring
      _ = k * t + t := by rw [ht, Nat.succ_mul]
  have hround : (bankNumber s t - 1) * s + s = t := by
    rw [← Nat.succ_mul, Nat.succ_eq_add_one, Nat.sub_add_cancel (bankNumber_pos hstep), ht]
  omega

/-- Where the bank size is a whole number of chunks, the bank of an offset is its chunk's number modulo the number of
banks. -/
theorem owns_iff_of_chunks {m s t b a : Nat} (h : RangeAccepts m s t b) (hs : 0 < s) (hdvd : s ∣ m)
    (ha : a < m * bankNumber s t) :
    owns (b * s) (lastOffset m s t b) s t a = true ↔ b = a / s % bankNumber s t := by
  obtain ⟨hstep, hm, _, hb, _⟩ := id h
  have ht := bankNumber_mul hstep hs
  obtain ⟨k, rfl⟩ : ∃ k, m = s * (k + 1) := by
    obtain ⟨k, rfl⟩ := hdvd
    obtain ⟨k', rfl⟩ := Nat.exists_eq_succ_of_ne_zero (Nat.pos_of_mul_pos_left hm).ne'
    exact ⟨k', rfl⟩
  have hlast := lastOffset_eq_of_chunks h hs
  rw [owns_iff, or_iff_right hs.ne']
  constructor
  · rintro ⟨hfirst, -, hchunk⟩
    have hround : a = (a - b * s) % t + s * (b + bankNumber s t * ((a - b * s) / t)) :=
      calc a = (a - b * s) % t + t * ((a - b * s) / t) + b * s := by rw [Nat.mod_add_div, Nat.sub_add_cancel hfirst]
        _ = _ := by nth_rw 2 [← ht]; ring
    rw [hround, Nat.add_mul_div_left _ _ hs, Nat.div_eq_of_lt hchunk, Nat.zero_add, Nat.add_mul_mod_self_left,
      Nat.mod_eq_of_lt hb]
  · intro hbank
    have hchunk : a % s < s := Nat.mod_lt a hs
    have hoffset : a = a / s / bankNumber s t * t + b * s + a % s :=
      calc a = (a / s % bankNumber s t + bankNumber s t * (a / s / bankNumber s t)) * s + a % s := by
            rw [Nat.mod_add_div, Nat.div_add_mod']
        _ = (b + bankNumber s t * (a / s / bankNumber s t)) * s + a % s := by rw [← hbank]
        _ = a / s / bankNumber s t * (bankNumber s t * s) + b * s + a % s := by ring
        _ = _ := by rw [ht]
    have hround : a / s / bankNumber s t * t ≤ k * t := by
      refine Nat.mul_le_mul_right t (Nat.lt_add_one_iff.1 ?_)
      rw [Nat.div_lt_iff_lt_mul (bankNumber_pos hstep), Nat.div_lt_iff_lt_mul hs]
      calc a < s * (k + 1) * bankNumber s t := ha
        _ = _ := by ring
    refine ⟨by omega, by omega, ?_⟩
    have hrest : a - b * s = a % s + a / s / bankNumber s t * t := by omega
    have hst : s ≤ t := ht ▸ Nat.le_mul_of_pos_left s (bankNumber_pos hstep)
    rwa [hrest, Nat.add_mul_mod_self_right, Nat.mod_eq_of_lt (hchunk.trans_le hst)]

/-- Without interleaving the one bank owns every offset. -/
theorem owns_of_single {m t b a : Nat} (h : RangeAccepts m 0 t b) (ha : a < m * bankNumber 0 t) :
    owns (b * 0) (lastOffset m 0 t b) 0 t a = true := by
  have hlast := lastOffset_eq h
  rw [owns_iff]
  omega

/-- The owner of an offset, with interleaving or without. -/
theorem owns_answered_iff {s : State} (hs : s.Running) {m n t b first last : Word}
    (hchunks : n.toNat ∣ m.toNat ∨ n.toNat = 0)
    (hexec : exec (.rbRange m n t b) s = .next (s.gives (.range first last))) {a : Nat}
    (ha : a < m.toNat * bankNumber n.toNat t.toNat) :
    owns first.toNat last.toNat n.toNat t.toNat a = true ↔ b.toNat = a / n.toNat % bankNumber n.toNat t.toNat := by
  obtain ⟨h, hfirst, hlast⟩ := (exec_rbRange_eq_range_iff hs first last).1 hexec
  rw [hfirst, hlast]
  rcases Nat.eq_zero_or_pos n.toNat with hn | hn
  · obtain ⟨_, _, _, hb, _⟩ := id h
    rw [hn] at h ha hb ⊢
    rw [bankNumber_zero, Nat.lt_one_iff] at hb
    rw [iff_true_left (owns_of_single h ha), hb, bankNumber_zero, Nat.mod_one]
  · exact owns_iff_of_chunks h hn (hchunks.resolve_right hn.ne') ha

/-- Settles O53. -/
theorem ownerIsTheChunkNumberModuloBanks : Obligations.OwnerIsTheChunkNumberModuloBanks :=
  fun _ _ _ _ _ _ _ hs _ hdvd hexec _ ha => owns_answered_iff hs (.inl hdvd) hexec ha

/-- Settles O58: the bank of the offset's chunk is answered, and an answered owner is that bank. -/
theorem everyOffsetHasOneAnsweredOwner : Obligations.EveryOffsetHasOneAnsweredOwner := by
  intro m n t s hs hstep hm hchunks hregion a ha
  have hnm : n.toNat ≤ m.toNat := by
    rcases hchunks with hn | hdvd
    · exact hn.trans_le (Nat.zero_le _)
    · exact Nat.le_of_dvd hm hdvd
  have hbank := (rangeAccepts_iff_of_region hstep hm hnm hregion _).2
    (Nat.mod_lt (a / n.toNat) (bankNumber_pos hstep))
  obtain ⟨b, first, last, hexec, hb, _, _⟩ := exec_rbRange_ofNat hs hbank
  refine ⟨b, first, last, hexec, (owns_answered_iff hs hchunks.symm hexec ha).2 hb, fun b' _ _ hexec' hown => ?_⟩
  exact BitVec.eq_of_toNat_eq (((owns_answered_iff hs hchunks.symm hexec' ha).1 hown).trans hb.symm)

/-! ### The offsets of one bank (R181) -/

/-- Each chunk whose number satisfies `p` has `s` offsets. -/
theorem count_chunks (p : Nat → Prop) [DecidablePred p] {s : Nat} (hs : 0 < s) (q : Nat) :
    Nat.count (fun a => p (a / s)) (q * s) = Nat.count p q * s := by
  induction q with
  | zero => simp
  | succ q ih =>
    have hchunk : Nat.count (fun j => p ((q * s + j) / s)) s = if p q then s else 0 := by
      have hdiv : ∀ j < s, (q * s + j) / s = q := fun j hj => by
        rw [Nat.mul_comm, Nat.mul_add_div hs, Nat.div_eq_of_lt hj, Nat.add_zero]
      split
      case isTrue hp => exact Nat.count_of_forall fun j hj => (hdiv j hj).symm ▸ hp
      case isFalse hp => exact Nat.count_of_forall_not fun j hj => (hdiv j hj).symm ▸ hp
    rw [Nat.succ_mul, Nat.count_add, ih, hchunk, Nat.count_succ, Nat.add_mul]
    split <;> simp

/-- Of the chunks of `k` rounds, `k` have the number `b` modulo the number of banks. -/
theorem count_mod_eq {n b : Nat} (hb : b < n) (k : Nat) : Nat.count (fun q => b = q % n) (k * n) = k := by
  have hn : 0 < n := Nat.zero_lt_of_lt hb
  calc Nat.count (fun q => b = q % n) (k * n) = Nat.count (· ≡ b [MOD n]) (k * n) := by
        simp only [Nat.ModEq, Nat.mod_eq_of_lt hb, eq_comm]
    _ = k := by simp [Nat.count_modEq_card _ hn, Nat.mul_div_cancel _ hn]

/-- A bank's offsets: `s` of each of its chunks, one chunk a round. -/
theorem count_owner {m s t b : Nat} (h : RangeAccepts m s t b) (hchunks : s ∣ m ∨ s = 0) :
    Nat.count (fun a => b = a / s % bankNumber s t) (m * bankNumber s t) = m := by
  obtain ⟨_, _, _, hb, _⟩ := h
  rcases Nat.eq_zero_or_pos s with rfl | hs
  · rw [bankNumber_zero, Nat.lt_one_iff] at hb
    simp [hb, bankNumber_zero]
  · obtain ⟨k, rfl⟩ := hchunks.resolve_right hs.ne'
    calc Nat.count (fun a => b = a / s % bankNumber s t) (s * k * bankNumber s t)
        = Nat.count (fun a => b = a / s % bankNumber s t) (k * bankNumber s t * s) := by congr 1; ring
      _ = Nat.count (fun q => b = q % bankNumber s t) (k * bankNumber s t) * s :=
          count_chunks (fun q => b = q % bankNumber s t) hs _
      _ = s * k := by rw [count_mod_eq hb, Nat.mul_comm]

/-- Settles O54: the offsets a bank owns are those of its chunks. -/
theorem everyBankOwnsItsMemsize : Obligations.EveryBankOwnsItsMemsize := by
  intro m n t b first last s hs hchunks hexec
  obtain ⟨h, _, _⟩ := (exec_rbRange_eq_range_iff hs first last).1 hexec
  have howner : ∀ a ∈ List.range (m.toNat * bankNumber n.toNat t.toNat),
      owns first.toNat last.toNat n.toNat t.toNat a
        = decide (b.toNat = a / n.toNat % bankNumber n.toNat t.toNat) := fun a ha => by
    rw [Bool.eq_iff_iff, decide_eq_true_eq, owns_answered_iff hs hchunks hexec (List.mem_range.1 ha)]
  rw [List.filter_congr howner, ← List.countP_eq_length_filter]
  exact count_owner h hchunks

end Sys2Proof.Machine
end

section
/-! The specialisations of the range builder (R165 to R168): both boundaries of an envelope are encoded with the same
tag, so the larger one decides whether the envelope fits, and the policy decides what becomes of one that does not. -/

namespace Sys2Proof.Machine

/-! ### What the three tags have in common -/

/-- The records of a tag are valid records of the format `f` with an offset entry of `w` bits; they fit exactly when
`ids` holds and the offset fits its entry, and their words are `masked` plus the offset reduced, where `masked` is
`base` when the ids fit (R135 to R143). -/
structure TagsWindow (L : Layout) (tag : Word → AddressInfo) (f : Format) (ids : Prop) (base masked w : Nat) :
    Prop where
  format : ∀ v, infoFormat (tag v) = some f
  valid : ∀ v, validInfo (tag v) = true
  fits_iff : ∀ v, fitsInfo L (tag v) = true ↔ ids ∧ v.toNat < 2 ^ w
  word : ∀ v, packInfo L f (tag v) = BitVec.ofNat 64 (masked + v.toNat % 2 ^ w)
  exact_of_ids : ids → base = masked

section
variable {L : Layout} (hL : L.pxnBits + L.podBits + L.coreBits ≤ 31) (x y z : CoordId)
include hL

theorem tagsWindow_absDram : TagsWindow L (absDramInfo x) .absDram (x.toNat < 2 ^ L.pxnBits)
    (0xC000000000000000 + x.toNat * 2 ^ (61 - L.pxnBits))
    (0xC000000000000000 + x.toNat % 2 ^ L.pxnBits * 2 ^ (61 - L.pxnBits)) (61 - L.pxnBits) where
  format _ := rfl
  valid _ := rfl
  fits_iff v := by
    rw [fitsInfo_iff_of_format (f := .absDram) rfl, offsetField, width_absDramOffset hL]
    simp [absDramInfo, formatCoords, coordOf, coordBits, and_comm]
  word v := packInfo_absDram hL x none none v
  exact_of_ids hx := by rw [Nat.mod_eq_of_lt hx]

theorem tagsWindow_absL2sp : TagsWindow L (absL2spInfo x y) .absL2sp
    (x.toNat < 2 ^ L.pxnBits ∧ y.toNat < 2 ^ L.podBits)
    (0xA000000000000000 + x.toNat * 2 ^ (61 - L.pxnBits) + y.toNat * 2 ^ (61 - L.pxnBits - L.podBits))
    (0xA000000000000000 + x.toNat % 2 ^ L.pxnBits * 2 ^ (61 - L.pxnBits)
      + y.toNat % 2 ^ L.podBits * 2 ^ (61 - L.pxnBits - L.podBits)) (61 - L.pxnBits - L.podBits) where
  format _ := rfl
  valid _ := rfl
  fits_iff v := by
    rw [fitsInfo_iff_of_format (f := .absL2sp) rfl, offsetField, width_absL2spOffset hL]
    simp [absL2spInfo, formatCoords, coordOf, coordBits, and_comm]
  word v := packInfo_absL2sp hL x y none v
  exact_of_ids := fun ⟨hx, hy⟩ => by rw [Nat.mod_eq_of_lt hx, Nat.mod_eq_of_lt hy]

theorem tagsWindow_absL1sp : TagsWindow L (absL1spInfo x y z) .absL1sp
    (x.toNat < 2 ^ L.pxnBits ∧ y.toNat < 2 ^ L.podBits ∧ z.toNat < 2 ^ L.coreBits)
    (0x8000000000000000 + x.toNat * 2 ^ (61 - L.pxnBits) + y.toNat * 2 ^ (61 - L.pxnBits - L.podBits)
      + z.toNat * 2 ^ (61 - L.pxnBits - L.podBits - L.coreBits))
    (0x8000000000000000 + x.toNat % 2 ^ L.pxnBits * 2 ^ (61 - L.pxnBits)
      + y.toNat % 2 ^ L.podBits * 2 ^ (61 - L.pxnBits - L.podBits)
      + z.toNat % 2 ^ L.coreBits * 2 ^ (61 - L.pxnBits - L.podBits - L.coreBits)) 29 where
  format _ := rfl
  valid _ := rfl
  fits_iff v := by
    rw [fitsInfo_iff_of_format (f := .absL1sp) rfl]
    simp [absL1spInfo, formatCoords, coordOf, coordBits, offsetField, FieldPos.width, fieldPos, and_comm]
  word v := packInfo_core hL x y z v rfl rfl
  exact_of_ids := fun ⟨hx, hy, hz⟩ => by rw [Nat.mod_eq_of_lt hx, Nat.mod_eq_of_lt hy, Nat.mod_eq_of_lt hz]

end

/-! ### A boundary through `AM.ENC` (R165) -/

section
variable {L : Layout} {tag : Word → AddressInfo} {f : Format} {ids : Prop} {base masked w : Nat}
  (htag : TagsWindow L tag f ids base masked w) {n : Nat} (hn : n < 2 ^ 64)
include htag hn

theorem fitsInfo_tag_iff : fitsInfo L (tag (BitVec.ofNat 64 n)) = true ↔ ids ∧ n < 2 ^ w := by
  rw [htag.fits_iff, BitVec.toNat_ofNat, Nat.mod_eq_of_lt hn]

theorem packInfo_tag : packInfo L f (tag (BitVec.ofNat 64 n)) = BitVec.ofNat 64 (masked + n % 2 ^ w) := by
  rw [htag.word, BitVec.toNat_ofNat, Nat.mod_eq_of_lt hn]

theorem encodeInfo_tag_of_fits (policy : OverflowPolicy) (hids : ids) (hnw : n < 2 ^ w) :
    encodeInfo policy L (tag (BitVec.ofNat 64 n)) = .ok (BitVec.ofNat 64 (base + n)) := by
  rw [encodeInfo_of_valid (htag.format _) _ (htag.valid _), if_pos ((fitsInfo_tag_iff htag hn).2 ⟨hids, hnw⟩),
    packInfo_tag htag hn, Nat.mod_eq_of_lt hnw, htag.exact_of_ids hids]

theorem encodeInfo_tag_reject (hfits : ¬ (ids ∧ n < 2 ^ w)) :
    encodeInfo .reject L (tag (BitVec.ofNat 64 n)) = .error .fieldOverflow := by
  rw [encodeInfo_of_valid (htag.format _) _ (htag.valid _), if_neg (mt (fitsInfo_tag_iff htag hn).1 hfits)]

theorem encodeInfo_tag_mask :
    encodeInfo .mask L (tag (BitVec.ofNat 64 n)) = .ok (BitVec.ofNat 64 (masked + n % 2 ^ w)) := by
  rw [encodeInfo_of_valid (htag.format _) _ (htag.valid _), packInfo_tag htag hn, ite_self]

end

/-! ### The two boundaries of an envelope (R165) -/

section
variable {L : Layout} {tag : Word → AddressInfo} {f : Format} {ids : Prop} {base masked w : Nat}
  (htag : TagsWindow L tag f ids base masked w) {first last : Nat} (hle : first ≤ last) (hlast : last < 2 ^ 64)
include htag hle hlast

theorem encodeRange_of_fits (policy : OverflowPolicy) (hids : ids) (hfits : last < 2 ^ w) :
    encodeRange policy L tag first last = .ok (BitVec.ofNat 64 (base + first), BitVec.ofNat 64 (base + last)) := by
  rw [encodeRange, encodeInfo_tag_of_fits htag (hle.trans_lt hlast) policy hids (hle.trans_lt hfits),
    encodeInfo_tag_of_fits htag hlast policy hids hfits]

/-- The start may fit where the end does not; the error is the same. -/
theorem encodeRange_reject (hfits : ¬ (ids ∧ last < 2 ^ w)) :
    encodeRange .reject L tag first last = .error .fieldOverflow := by
  by_cases hstart : ids ∧ first < 2 ^ w
  · rw [encodeRange, encodeInfo_tag_of_fits htag (hle.trans_lt hlast) _ hstart.1 hstart.2,
      encodeInfo_tag_reject htag hlast hfits]
  · rw [encodeRange, encodeInfo_tag_reject htag (hle.trans_lt hlast) hstart]

theorem encodeRange_mask : encodeRange .mask L tag first last
    = .ok (BitVec.ofNat 64 (masked + first % 2 ^ w), BitVec.ofNat 64 (masked + last % 2 ^ w)) := by
  rw [encodeRange, encodeInfo_tag_mask htag (hle.trans_lt hlast), encodeInfo_tag_mask htag hlast]

end

/-- The answer with the two boundaries of an envelope encoded. -/
def answerEncoded (s : State) (tag : Word → AddressInfo) (first last : Nat) (size step : Word) : Outcome :=
  answer s ((encodeRange Config.overflowPolicy s.layout tag first last).map fun r => .descriptor r.1 r.2 size step)

section
variable {s : State} (hs : s.Running) {tag : Word → AddressInfo} {f : Format} {ids : Prop} {base masked w : Nat}
  (htag : TagsWindow s.layout tag f ids base masked w) {first last : Nat} (hle : first ≤ last) (hlast : last < 2 ^ 64)
  (size step : Word)
include hs htag hle hlast

theorem answerEncoded_of_fits (hids : ids) (hfits : last < 2 ^ w) :
    answerEncoded s tag first last size step = .next (s.gives
      (.descriptor (BitVec.ofNat 64 (base + first)) (BitVec.ofNat 64 (base + last)) size step)) := by
  rw [answerEncoded, encodeRange_of_fits htag hle hlast _ hids hfits]
  exact answer_ok s _ hs

theorem answerEncoded_of_not_fits (hfits : ¬ (ids ∧ last < 2 ^ w)) :
    answerEncoded s tag first last size step = .next (s.overflows
      (.descriptor (BitVec.ofNat 64 (masked + first % 2 ^ w)) (BitVec.ofNat 64 (masked + last % 2 ^ w))
        size step)) := by
  rw [answerEncoded, State.overflows]
  cases Config.overflowPolicy with
  | reject =>
    rw [encodeRange_reject htag hle hlast hfits]
    exact answer_error_eq_haltsWith hs rfl
  | mask =>
    rw [encodeRange_mask htag hle hlast]
    exact answer_ok s _ hs

end

/-! ### `RB.L1SP` (R166) -/

theorem exec_rbL1sp_eq (m : Word) (x y z : CoordId) (s : State) : exec (.rbL1sp m x y z) s
    = answer s ((withMap s fun L => l1spRange Config.overflowPolicy L m.toNat x y z).map fun r =>
        .descriptor r.1 r.2 0 0) := rfl

theorem exec_rbL1sp_unconfigured {s : State} (hs : s.Unconfigured) (m : Word) (x y z : CoordId) :
    exec (.rbL1sp m x y z) s = .next (s.haltsWith .notConfigured 7) := by
  obtain ⟨hrun, hconf⟩ := hs
  rw [exec_rbL1sp_eq, withMap_unconfigured s _ hconf]
  exact answer_error_eq_haltsWith hrun rfl

theorem exec_rbL1sp_of_pos {s : State} (hs : s.Ready) {m : Word} (hm : 0 < m.toNat) (x y z : CoordId) :
    exec (.rbL1sp m x y z) s = answerEncoded s (absL1spInfo x y z) 0 (m.toNat - 1) 0 0 := by
  obtain ⟨_, hconf, _⟩ := hs
  have hcheck : checkRange m.toNat 0 1 0 = .ok () :=
    (checkRange_cases m.toNat 0 1 0).elim And.right fun hn => absurd ⟨hm, Nat.zero_le _, Nat.one_pos⟩ hn.1
  rw [exec_rbL1sp_eq, withMap_configured s _ hconf, l1spRange, hcheck]
  rfl

theorem exec_rbL1sp_of_zero {s : State} (hs : s.Ready) {m : Word} (hm : m.toNat = 0) (x y z : CoordId) :
    exec (.rbL1sp m x y z) s = .next (s.haltsWith .configurationError 1) := by
  obtain ⟨hrun, hconf, _⟩ := hs
  rw [exec_rbL1sp_eq, withMap_configured s _ hconf, l1spRange, hm]
  exact answer_error_eq_haltsWith hrun rfl

/-- Settles O49: the window is the envelope from 0 to `m - 1` under the core's tag. -/
theorem l1spWindowOfOneCore : Obligations.L1spWindowOfOneCore := by
  refine fun m x y z s => ⟨fun hs => exec_rbL1sp_unconfigured hs m x y z, fun hs => ?ready⟩
  intro p o c fits base masked
  have htag := tagsWindow_absL1sp hs.budget x y z
  have hlast : m.toNat - 1 < 2 ^ 64 := (Nat.sub_le _ _).trans_lt m.isLt
  refine ⟨fun hm ⟨hx, hy, hz, hmax⟩ => ?fitting, fun hm hfits => ?overflowing,
    fun hm => exec_rbL1sp_of_zero hs hm x y z⟩
  case fitting =>
    rw [exec_rbL1sp_of_pos hs hm]
    exact answerEncoded_of_fits hs.1 htag (Nat.zero_le _) hlast 0 0 ⟨hx, hy, hz⟩ (by omega)
  case overflowing =>
    rw [exec_rbL1sp_of_pos hs hm]
    refine answerEncoded_of_not_fits hs.1 htag (Nat.zero_le _) hlast 0 0 fun ⟨⟨hx, hy, hz⟩, hmax⟩ => ?_
    exact hfits ⟨hx, hy, hz, by omega⟩

/-! ### `RB.L2SP` and `RB.DRAM` (R167, R168) -/

/-- A bank's descriptor under a tag, through the map. -/
def answerBank (s : State) (tag : Word → AddressInfo) (m n t b : Word) : Outcome :=
  answer s ((withMap s fun L => taggedRange Config.overflowPolicy L tag m.toNat n.toNat t.toNat b.toNat).map fun r =>
    .descriptor r.1 r.2 n t)

theorem exec_rbL2sp_eq (m n t : Word) (x y : CoordId) (b : Word) (s : State) :
    exec (.rbL2sp m n t x y b) s = answerBank s (absL2spInfo x y) m n t b := rfl

theorem exec_rbDram_eq (m n t : Word) (x : CoordId) (b : Word) (s : State) :
    exec (.rbDram m n t x b) s = answerBank s (absDramInfo x) m n t b := rfl

theorem answerBank_unconfigured {s : State} (hs : s.Unconfigured) (tag : Word → AddressInfo) (m n t b : Word) :
    answerBank s tag m n t b = .next (s.haltsWith .notConfigured 7) := by
  obtain ⟨hrun, hconf⟩ := hs
  rw [answerBank, withMap_unconfigured s _ hconf]
  exact answer_error_eq_haltsWith hrun rfl

theorem answerBank_of_accepts {s : State} (hs : s.Ready) (tag : Word → AddressInfo) {m n t b : Word}
    (h : RangeAccepts m.toNat n.toNat t.toNat b.toNat) : answerBank s tag m n t b
      = answerEncoded s tag (b.toNat * n.toNat) (lastOffset m.toNat n.toNat t.toNat b.toNat) n t := by
  obtain ⟨_, hconf, _⟩ := hs
  rw [answerBank, withMap_configured s _ hconf, taggedRange, bankRange_of_accepts h]
  rfl

theorem answerBank_of_not_accepts {s : State} (hs : s.Ready) (tag : Word → AddressInfo) {m n t b : Word}
    (h : ¬ RangeAccepts m.toNat n.toNat t.toNat b.toNat) :
    answerBank s tag m n t b = .next (s.haltsWith .configurationError 1) := by
  obtain ⟨hrun, hconf, _⟩ := hs
  rw [answerBank, withMap_configured s _ hconf, taggedRange, bankRange_of_not_accepts h]
  exact answer_error_eq_haltsWith hrun rfl

section
variable {s : State} (hs : s.Ready) {tag : Word → AddressInfo} {f : Format} {ids : Prop} {base masked w : Nat}
  (htag : TagsWindow s.layout tag f ids base masked w) {m n t b : Word}
  (h : RangeAccepts m.toNat n.toNat t.toNat b.toNat)
include hs htag h

theorem answerBank_of_fits (hids : ids) (hfits : lastOffset m.toNat n.toNat t.toNat b.toNat < 2 ^ w) :
    answerBank s tag m n t b = .next (s.gives (.descriptor (BitVec.ofNat 64 (base + b.toNat * n.toNat))
      (BitVec.ofNat 64 (base + lastOffset m.toNat n.toNat t.toNat b.toNat)) n t)) := by
  rw [answerBank_of_accepts hs tag h]
  exact answerEncoded_of_fits hs.1 htag (first_le_lastOffset h) (lastOffset_lt_two_pow h) n t hids hfits

theorem answerBank_of_not_fits (hfits : ¬ (ids ∧ lastOffset m.toNat n.toNat t.toNat b.toNat < 2 ^ w)) :
    answerBank s tag m n t b = .next (s.overflows (.descriptor
      (BitVec.ofNat 64 (masked + b.toNat * n.toNat % 2 ^ w))
      (BitVec.ofNat 64 (masked + lastOffset m.toNat n.toNat t.toNat b.toNat % 2 ^ w)) n t)) := by
  rw [answerBank_of_accepts hs tag h]
  exact answerEncoded_of_not_fits hs.1 htag (first_le_lastOffset h) (lastOffset_lt_two_pow h) n t hfits

end

/-- Settles O50. -/
theorem l2spBankEnvelope : Obligations.L2spBankEnvelope := by
  intro m n t b x y s
  rw [exec_rbL2sp_eq]
  refine ⟨fun hs => answerBank_unconfigured hs _ m n t b, fun hs => ?ready⟩
  have htag := tagsWindow_absL2sp hs.budget x y
  exact ⟨fun h ⟨hx, hy, hfits⟩ => answerBank_of_fits hs htag h ⟨hx, hy⟩ hfits,
    fun h hfits => answerBank_of_not_fits hs htag h (mt and_assoc.1 hfits), answerBank_of_not_accepts hs _⟩

/-- Settles O51. -/
theorem dramBankEnvelope : Obligations.DramBankEnvelope := by
  intro m n t b x s
  rw [exec_rbDram_eq]
  refine ⟨fun hs => answerBank_unconfigured hs _ m n t b, fun hs => ?ready⟩
  have htag := tagsWindow_absDram hs.budget x
  exact ⟨fun h ⟨hx, hfits⟩ => answerBank_of_fits hs htag h hx hfits,
    fun h hfits => answerBank_of_not_fits hs htag h hfits, answerBank_of_not_accepts hs _⟩

/-! ### The scratchpads of two cores (R165) -/

theorem inWindow_first (first k : Nat) : InWindow first first k :=
  ⟨le_rfl, Nat.lt_add_of_pos_right (Nat.two_pow_pos k)⟩

/-- Two different multiples of `d` are at least `d` apart. -/
theorem add_le_of_dvd_of_lt {a b d : Nat} (ha : d ∣ a) (hb : d ∣ b) (hlt : a < b) : a + d ≤ b := by
  have := Nat.le_of_dvd (Nat.sub_pos_of_lt hlt) (Nat.dvd_sub hb ha)
  omega

/-- The first address of a core's scratchpad. -/
def l1spFirst (L : Layout) (x y z : CoordId) : Nat := coreFirst L 0x8000000000000000 x.toNat y.toNat z.toNat

/-- The core has ids that fit its map. -/
def CoreFits (L : Layout) (x y z : CoordId) : Prop :=
  x.toNat < 2 ^ L.pxnBits ∧ y.toNat < 2 ^ L.podBits ∧ z.toNat < 2 ^ L.coreBits

section
variable {L : Layout} (hL : L.pxnBits + L.podBits + L.coreBits ≤ 31) {x y z x' y' z' : CoordId}
  (hfits : CoreFits L x y z)
include hL

theorem l1spFirst_aligned (x y z : CoordId) : 2 ^ 29 ∣ l1spFirst L x y z :=
  (Nat.pow_dvd_pow 2 (by omega)).trans (coreFirst_aligned hL (by decide) x.toNat y.toNat z.toNat)

include hfits

/-- The first address is among the tier's addresses, and its digits are the core's ids. -/
theorem l1spFirst_digits : InWindow (l1spFirst L x y z) 0x8000000000000000 61
    ∧ l1spFirst L x y z / 2 ^ (61 - L.pxnBits) % 2 ^ L.pxnBits = x.toNat
    ∧ l1spFirst L x y z / 2 ^ (61 - L.pxnBits - L.podBits) % 2 ^ L.podBits = y.toNat
    ∧ l1spFirst L x y z / 2 ^ (61 - L.pxnBits - L.podBits - L.coreBits) % 2 ^ L.coreBits = z.toNat := by
  obtain ⟨hx, hy, hz⟩ := hfits
  have hbase : 2 ^ 61 ∣ 0x8000000000000000 := by decide
  have hfirst := inWindow_first (l1spFirst L x y z) (61 - L.pxnBits - L.podBits - L.coreBits)
  obtain ⟨hpodWindow, hcore⟩ := (inWindow_coreFirst_iff hL hbase hz).1 hfirst
  obtain ⟨hpxnWindow, hpod⟩ := (inWindow_podFirst_iff hL hbase hy).1 hpodWindow
  obtain ⟨htier, hpxn⟩ := (inWindow_pxnFirst_iff hL hbase hx).1 hpxnWindow
  exact ⟨htier, hpxn, hpod, hcore⟩

theorem l1spFirst_add_le : l1spFirst L x y z + 2 ^ 29 ≤ 2 ^ 64 := by
  obtain ⟨⟨_, hlt⟩, _⟩ := l1spFirst_digits hL hfits
  exact add_le_of_dvd_of_lt (l1spFirst_aligned hL x y z) (by decide) (hlt.trans (by decide))

/-- Different cores have different first addresses, for the address shows the ids. -/
theorem l1spFirst_ne (hfits' : CoreFits L x' y' z') (hne : ¬ (x = x' ∧ y = y' ∧ z = z')) :
    l1spFirst L x y z ≠ l1spFirst L x' y' z' := by
  intro heq
  obtain ⟨_, hpxn, hpod, hcore⟩ := l1spFirst_digits hL hfits
  obtain ⟨_, hpxn', hpod', hcore'⟩ := l1spFirst_digits hL hfits'
  rw [heq] at hpxn hpod hcore
  exact hne ⟨BitVec.eq_of_toNat_eq (hpxn.symm.trans hpxn'), BitVec.eq_of_toNat_eq (hpod.symm.trans hpod'),
    BitVec.eq_of_toNat_eq (hcore.symm.trans hcore')⟩

end

/-- The window that `RB.L1SP` answers for a core, as numbers. -/
theorem exec_rbL1sp_window {s : State} (hs : s.Ready) {m : Word} (hm : 0 < m.toNat) (hmax : m.toNat ≤ 2 ^ 29)
    {x y z : CoordId} (hfits : CoreFits s.layout x y z) :
    ∃ first last : Word, exec (.rbL1sp m x y z) s = .next (s.gives (.descriptor first last 0 0))
      ∧ first.toNat = l1spFirst s.layout x y z ∧ last.toNat = l1spFirst s.layout x y z + (m.toNat - 1) := by
  obtain ⟨hx, hy, hz⟩ := id hfits
  obtain ⟨_, hready⟩ := l1spWindowOfOneCore m x y z s
  obtain ⟨hexec, _⟩ := hready hs
  have hbound := l1spFirst_add_le hs.budget hfits
  refine ⟨_, _, hexec hm ⟨hx, hy, hz, hmax⟩, ?_, ?_⟩
  · exact (BitVec.toNat_ofNat _ _).trans (Nat.mod_eq_of_lt (show l1spFirst s.layout x y z < 2 ^ 64 by omega))
  · exact (BitVec.toNat_ofNat _ _).trans
      (Nat.mod_eq_of_lt (show l1spFirst s.layout x y z + (m.toNat - 1) < 2 ^ 64 by omega))

/-- Settles O55: the windows begin at different multiples of `2 ^ 29` and are no longer than that. -/
theorem l1spWindowsOfTwoCoresAreDisjoint : Obligations.L1spWindowsOfTwoCoresAreDisjoint := by
  intro m x y z x' y' z' s hs hm hmax hx hy hz hx' hy' hz' hne
  have hL := hs.budget
  have hfits : CoreFits s.layout x y z := ⟨hx, hy, hz⟩
  have hfits' : CoreFits s.layout x' y' z' := ⟨hx', hy', hz'⟩
  obtain ⟨first, last, hexec, hfirst, hlast⟩ := exec_rbL1sp_window hs hm hmax hfits
  obtain ⟨first', last', hexec', hfirst', hlast'⟩ := exec_rbL1sp_window hs hm hmax hfits'
  refine ⟨first, last, first', last', hexec, hexec', by omega, by omega, ?_⟩
  have haligned := l1spFirst_aligned hL x y z
  have haligned' := l1spFirst_aligned hL x' y' z'
  rcases Nat.lt_or_gt_of_ne (l1spFirst_ne hL hfits hfits' hne) with hlt | hgt
  · have := add_le_of_dvd_of_lt haligned haligned' hlt
    exact .inl (by omega)
  · have := add_le_of_dvd_of_lt haligned' haligned hgt
    exact .inr (by omega)

end Sys2Proof.Machine
end

section
/-! Fault entry and the halted codec (R200, R201, R203): every request has an answer, a halted codec changes nothing but
its response whatever it is asked, and so it stays as it is through any run without reset. Then the requests that end
with `NotConfigured` before the map exists (R193, R196, R225). -/

namespace Sys2Proof.Machine

/-! ### Every request has an answer -/

theorem exec_answers_next (i : Instr) (s : State) : ∃ t, exec i s = .next t := by
  by_cases hs : i = .amStatus
  · subst hs
    exact ⟨_, exec_amStatus_eq s⟩
  by_cases hc : ∃ p o c, i = .amCfg p o c
  · obtain ⟨p, o, c, rfl⟩ := hc
    exact attempt_answers_next s (buildMap s p o c)
  · obtain ⟨k, _, hexec⟩ := exec_endsThroughAnswer i hs fun p o c hi => hc ⟨p, o, c, hi⟩
    rw [hexec s]
    exact attempt_answers_next s _

/-- Settles O10: idling and reset are next states, and a request, with or without an operation, is answered. -/
theorem everyStepAnswersNext : Obligations.EveryStepAnswersNext := by
  intro s
  rcases step_cases s with ⟨_, hs⟩ | ⟨rest, _, hs⟩ | ⟨_, rest, i, _, _, hs⟩ | ⟨_, rest, _, _, _, hs⟩
  · exact ⟨_, hs⟩
  · exact ⟨_, hs⟩
  · exact hs ▸ exec_answers_next i _
  · exact hs ▸ attempt_answers_next _ _

/-! ### The halted codec (R201) -/

/-- A halted codec turns every instruction away but `AM.STATUS`. -/
theorem exec_halted {s : State} (hf : s.fault = true) {i : Instr} (hi : i ≠ .amStatus) :
    exec i s = .next { s with response := some (.error .faulted) } := by
  have hrunning : s.fault ≠ false := by simp [hf]
  obtain ⟨t, ht⟩ := exec_answers_next i s
  rcases exec_next_cases ht with ⟨hst, _⟩ | ⟨_, _, rfl⟩ | ⟨hr, _⟩ | ⟨hr, _⟩ | ⟨hr, _⟩
  · exact absurd hst hi
  · rw [ht, State.fail_faulted]
  · exact absurd hr hrunning
  · exact absurd hr hrunning
  · exact absurd hr hrunning

theorem refuseUnknownOp_halted {s : State} (hf : s.fault = true) :
    refuseUnknownOp s = .next { s with response := some (.error .faulted) } :=
  (attempt_halted s _ hf).trans (congrArg _ s.fail_faulted)

/-- Settles O11: the report of `AM.STATUS` shows the two status registers as they are. -/
theorem haltedCodecAnswersFaulted : Obligations.HaltedCodecAnswersFaulted := by
  intro s hf
  refine ⟨fun i hi => exec_halted hf hi, fun b rest hp hno => ?reserved,
    statusReport s, exec_amStatus_eq s, hf, rfl⟩
  case reserved =>
    cases hd : decode (.request b) with
    | ok i => exact absurd hd (hno i)
    | error e =>
      exact (step_unknownOp s _ rest e hp hd).trans (refuseUnknownOp_halted (s := { s with pending := rest }) hf)

/-! ### Runs of a halted codec (R201, R203) -/

/-- Whatever a halted codec is asked, it writes its response and no register. -/
theorem exec_halted_atPort {s : State} (hf : s.fault = true) (i : Instr) (es : List Event) (last : Option Response) :
    ∃ last', exec i (s.atPort es last) = .next (s.atPort es last') := by
  by_cases hi : i = .amStatus
  · subst hi
    exact ⟨_, exec_amStatus_eq (s.atPort es last)⟩
  · exact ⟨_, exec_halted (s := s.atPort es last) hf hi⟩

/-- A step of a halted codec but reset takes the first event, if there is one, and writes no register. -/
theorem step_halted {s : State} (hf : s.fault = true) (hr : ∀ rest, s.pending ≠ .reset :: rest) :
    ∃ last, step s = .next (s.atPort s.pending.tail last) := by
  rcases step_cases s with ⟨hp, hs⟩ | ⟨rest, hp, _⟩ | ⟨_, rest, i, hp, _, hs⟩ | ⟨_, rest, _, hp, _, hs⟩
  · refine ⟨s.response, ?_⟩
    rw [hs, hp, List.tail_nil, ← hp]
    rfl
  · exact absurd hp (hr rest)
  · obtain ⟨last, hexec⟩ := exec_halted_atPort hf i rest s.response
    exact ⟨last, by rw [hs, hp]; exact hexec⟩
  · exact ⟨_, by rw [hs, hp]; exact refuseUnknownOp_halted (s := s.atPort rest s.response) hf⟩

/-- A run of a halted codec that meets no reset takes its events and writes no register. -/
theorem run_halted (k : Nat) {s : State} (hf : s.fault = true) (hr : ∀ e ∈ s.pending.take k, e ≠ .reset) :
    ∃ last, Host.Core.run Sys2Proof.core k s = .next (s.atPort (s.pending.drop k) last) := by
  induction k generalizing s with
  | zero => exact ⟨s.response, core_run_zero s⟩
  | succ k ih =>
    have hhead : ∀ rest, s.pending ≠ .reset :: rest := fun rest hp => hr .reset (by simp [hp]) rfl
    have htail : ∀ e ∈ s.pending.tail.take k, e ≠ .reset := fun e he => hr e (by
      cases hp : s.pending with
      | nil => simp [hp] at he
      | cons e' rest => rw [hp] at he; exact List.mem_cons_of_mem e' he)
    obtain ⟨last, hstep⟩ := step_halted hf hhead
    obtain ⟨last', hrun⟩ := ih (s := s.atPort s.pending.tail last) hf htail
    refine ⟨last', ?_⟩
    calc Host.Core.run Sys2Proof.core (k + 1) s
        = Host.Core.run Sys2Proof.core k (s.atPort s.pending.tail last) := core_run_succ k hstep
      _ = .next (s.atPort (s.pending.tail.drop k) last') := hrun
      _ = .next (s.atPort (s.pending.drop (k + 1)) last') := by rw [List.drop_tail]

/-- Settles O15: the state after the run has every register of `s`. -/
theorem faultPersistsUntilReset : Obligations.FaultPersistsUntilReset := by
  intro k s t hf hr h
  obtain ⟨last, hrun⟩ := run_halted k hf hr
  cases hrun.symm.trans h
  exact ⟨hf, rfl, s.sameMap_refl⟩

/-! ### Fault entry (R200) -/

/-- Settles O12: of the ways an instruction ends in a running codec, `State.fail` alone leaves an error. -/
theorem faultEntryWritesFaultAndCauseOnly : Obligations.FaultEntryWritesFaultAndCauseOnly := by
  intro i s t e hf h hresp
  rcases exec_next_cases h with ⟨_, rfl⟩ | ⟨_, hhalted, _⟩ | ⟨_, _, _, _, _, _, _, _, _, _, rfl⟩ | ⟨_, _, _, rfl⟩
    | ⟨_, _, hsets, rfl⟩
  · cases hresp
  · cases hf.symm.trans hhalted
  · cases hresp
  · cases hresp
  · cases hresp
    exact ⟨s.fail_eq_haltsWith e hsets, Error.code_range e hsets⟩

/-! ### Before the map exists (R193, R196, R225) -/

theorem exec_amEnc_unconfigured {s : State} (hs : s.Unconfigured) (b : InfoBundle) :
    exec (.amEnc b) s = .next (s.haltsWith .notConfigured 7) := by
  obtain ⟨hrun, hconf⟩ := hs
  calc exec (.amEnc b) s
      = answer s ((withMap s fun L => encodeBundle Config.overflowPolicy L b).map .word) := rfl
    _ = answer s (.error .notConfigured) := by rw [withMap_unconfigured s _ hconf]; rfl
    _ = _ := answer_error_eq_haltsWith hrun rfl

theorem exec_amDec_unconfigured {s : State} (hs : s.Unconfigured) (raw : Word) (my : Requester) :
    exec (.amDec raw my) s = .next (s.haltsWith .notConfigured 7) := by
  obtain ⟨hrun, hconf⟩ := hs
  rw [exec_amDec_eq_presentWord, presentWord, withMap_unconfigured s _ hconf]
  exact answer_error_eq_haltsWith hrun rfl

/-- An address input is the `AM.DEC` request for its word and identity, whatever stands on it. -/
theorem exec_decodeAddress (b : BitVec 160) (s : State) :
    exec (decodeAddress b) s = exec (.amDec (slice b 0 64) (requesterOf b)) s := by
  have h := addressWordIsADecodeRequest s (slice b 0 64) (requesterOf b)
  rwa [Wire.address.inj (addressBits_slice_requesterOf b)] at h

/-- Settles O18. -/
theorem mapOperationsNeedConfiguration : Obligations.MapOperationsNeedConfiguration := fun _ hs =>
  ⟨exec_amEnc_unconfigured hs, exec_amDec_unconfigured hs, exec_amField_unconfigured hs, exec_rbL1sp_unconfigured hs,
    fun m n t _ _ b => answerBank_unconfigured hs _ m n t b, fun m n t _ b => answerBank_unconfigured hs _ m n t b,
    fun b => (exec_decodeAddress b _).trans (exec_amDec_unconfigured hs _ _)⟩

end Sys2Proof.Machine
end

section
/-! `InvalidAddressKind` (R192): the records that have no valid format, and the requests that never end with it. -/

namespace Sys2Proof.Machine

/-! ### The causes -/

/-- The causes of R192: no type, relative `CTRL`, or an absolute record without a coordinate its type carries. -/
def InvalidKind (i : AddressInfo) : Prop :=
  i.tier = none ∨ (i.mode = .relative ∧ i.tier = some .ctrl)
    ∨ (i.mode = .absolute ∧ (i.pxn = none
        ∨ (i.tier ≠ some .dram ∧ i.pod = none)
        ∨ ((i.tier = some .l1sp ∨ i.tier = some .ctrl) ∧ i.core = none)))

theorem infoFormat_eq_none_iff (i : AddressInfo) :
    infoFormat i = none ↔ i.tier = none ∨ (i.mode = .relative ∧ i.tier = some .ctrl) := by
  obtain ⟨t, m, _, _, _, _⟩ := i
  cases t with
  | none => exact iff_of_true rfl (.inl rfl)
  | some t => cases t <;> cases m <;> simp [infoFormat, formatOf]

theorem validInfo_eq_false_iff_of_format {i : AddressInfo} {f : Format} (hf : infoFormat i = some f) :
    validInfo i = false ↔ ∃ k ∈ formatCoords f, coordOf i k = none := by
  rw [← Bool.not_eq_true, validInfo_iff_of_format hf]
  simp

/-- A record is valid exactly when none of the causes holds (R115). -/
theorem validInfo_eq_false_iff (i : AddressInfo) : validInfo i = false ↔ InvalidKind i := by
  cases hf : infoFormat i with
  | none =>
    have hcause := (infoFormat_eq_none_iff i).1 hf
    exact iff_of_true (by simp [validInfo, hf]) (or_assoc.1 (.inl hcause))
  | some f =>
    obtain ⟨htier, hmode⟩ := (infoFormat_eq_some_iff i f).1 hf
    rw [validInfo_eq_false_iff_of_format hf, InvalidKind, htier, hmode]
    cases f <;> simp [formatCoords, formatMode, formatTier, coordOf]

/-! ### Requests that never end with an error -/

/-- The request does not end with the error `e`. -/
def Outcome.Avoids (e : Error) (o : Outcome) : Prop := ∀ t, o = .next t → t.response ≠ some (.error e)

theorem avoids_gives (e : Error) (s : State) (r : Result) : Outcome.Avoids e (.next (s.gives r)) := by
  rintro _ ⟨⟩
  simp

theorem avoids_haltsWith {e e' : Error} (h : e' ≠ e) (s : State) (code : BitVec 4) :
    Outcome.Avoids e (.next (s.haltsWith e' code)) := by
  rintro _ ⟨⟩
  simpa using h

/-- Under either policy a value that does not fit is no other error than `FieldOverflow`. -/
theorem avoids_overflows {e : Error} (h : .fieldOverflow ≠ e) (s : State) (r : Result) :
    Outcome.Avoids e (.next (s.overflows r)) := by
  unfold State.overflows
  cases Config.overflowPolicy with
  | reject => exact avoids_haltsWith h s 3
  | mask => exact avoids_gives e s r

/-! ### `AM.ENC` -/

theorem exec_amEnc_invalid {s : State} (hs : s.Ready) {b : InfoBundle} {i : AddressInfo} (hb : infoOf b = some i)
    (h : InvalidKind i) : exec (.amEnc b) s = .next (s.haltsWith .invalidAddressKind 2) := by
  obtain ⟨hrun, hconf, _⟩ := hs
  have hinvalid := (validInfo_eq_false_iff i).2 h
  have henc : encodeInfo Config.overflowPolicy s.layout i = .error .invalidAddressKind := by
    rcases encodeInfo_cases Config.overflowPolicy s.layout i with ⟨_, he⟩ | ⟨hvalid, _⟩ | ⟨hvalid, _⟩
    · exact he
    · cases hinvalid.symm.trans hvalid
    · cases hinvalid.symm.trans hvalid
  rw [exec_amEnc_mapped hconf, encodeBundle, hb]
  exact (congrArg (fun r => answer s (r.map .word)) henc).trans (answer_error_eq_haltsWith hrun rfl)

theorem exec_amEnc_avoids {s : State} (hs : s.Ready) {b : InfoBundle} {i : AddressInfo} (hb : infoOf b = some i)
    (h : ¬ InvalidKind i) : Outcome.Avoids .invalidAddressKind (exec (.amEnc b) s) := by
  have hvalid : validInfo i = true := by rwa [← validInfo_eq_false_iff, Bool.not_eq_false] at h
  obtain ⟨f, hf⟩ := infoFormat_of_valid hvalid
  rw [exec_amEnc_of_valid hs hb hf hvalid]
  split
  · exact avoids_gives _ s _
  · exact avoids_overflows (by decide) s _

/-! ### `AM.DEC` and the range specialisations -/

theorem exec_amDec_avoids {s : State} (hs : s.Ready) (e : Error) (raw : Word) (my : Requester) :
    Outcome.Avoids e (exec (.amDec raw my) s) := by
  obtain ⟨hrun, hconf, _⟩ := hs
  rw [exec_amDec_mapped hrun hconf]
  exact avoids_gives e s _

section
variable {s : State} {tag : Word → AddressInfo} {f : Format} {ids : Prop} {base masked w : Nat}
  (htag : TagsWindow s.layout tag f ids base masked w)
include htag

/-- The two boundaries have a valid format, so encoding them can overflow only. -/
theorem answerEncoded_avoids (hs : s.Running) {first last : Nat} (hle : first ≤ last) (hlast : last < 2 ^ 64)
    (size step : Word) : Outcome.Avoids .invalidAddressKind (answerEncoded s tag first last size step) := by
  by_cases hfits : ids ∧ last < 2 ^ w
  · rw [answerEncoded_of_fits hs htag hle hlast size step hfits.1 hfits.2]
    exact avoids_gives _ s _
  · rw [answerEncoded_of_not_fits hs htag hle hlast size step hfits]
    exact avoids_overflows (by decide) s _

theorem answerBank_avoids (hs : s.Ready) (m n t b : Word) :
    Outcome.Avoids .invalidAddressKind (answerBank s tag m n t b) := by
  by_cases h : RangeAccepts m.toNat n.toNat t.toNat b.toNat
  · rw [answerBank_of_accepts hs tag h]
    exact answerEncoded_avoids htag hs.1 (first_le_lastOffset h) (lastOffset_lt_two_pow h) n t
  · rw [answerBank_of_not_accepts hs tag h]
    exact avoids_haltsWith (by decide) s 1

end

theorem exec_rbL1sp_avoids {s : State} (hs : s.Ready) (m : Word) (x y z : CoordId) :
    Outcome.Avoids .invalidAddressKind (exec (.rbL1sp m x y z) s) := by
  rcases Nat.eq_zero_or_pos m.toNat with hm | hm
  · rw [exec_rbL1sp_of_zero hs hm]
    exact avoids_haltsWith (by decide) s 1
  · rw [exec_rbL1sp_of_pos hs hm]
    exact answerEncoded_avoids (tagsWindow_absL1sp hs.budget x y z) hs.1 (Nat.zero_le _)
      ((Nat.sub_le _ _).trans_lt m.isLt) 0 0

/-- Settles O32: `AM.ENC` refuses exactly the records that are not valid, and what the other four operations read or
encode is valid. -/
theorem invalidAddressKindCauses : Obligations.InvalidAddressKindCauses := by
  intro s b i hs hb
  refine ⟨exec_amEnc_invalid hs hb, fun t ht hresp => ?noOtherCause, exec_amDec_avoids hs _, exec_rbL1sp_avoids hs,
    fun m n k x y c => ?l2sp, fun m n k x c => ?dram⟩
  case noOtherCause => exact by_contra fun h => exec_amEnc_avoids hs hb h t ht hresp
  case l2sp => exact answerBank_avoids (tagsWindow_absL2sp hs.budget x y) hs m n k c
  case dram => exact answerBank_avoids (tagsWindow_absDram hs.budget x) hs m n k c

end Sys2Proof.Machine
end

section
/-! The reset event (R220, R221). -/

namespace Sys2Proof.Machine

/-- Settles O7: the step resets the state whose inputs hold the rest of the sequence. Reset clears the three registers
whatever they held, and keeps what is pending. -/
theorem resetEventUnconfigures : Obligations.ResetEventUnconfigures := by
  intro s rest hp
  exact ⟨_, step_reset s rest hp, State.applyReset_configured _, State.applyReset_fault _, State.applyReset_cause _,
    State.applyReset_pending { s with pending := rest }⟩

end Sys2Proof.Machine
end
